-- ==== Sys2Proof/Word.lean ====
section
/-! DEFINITION. The two word types of AIC-SPB and the type of its samples. -/

namespace Sys2Proof

/-- A command word: 32 bits, presented whole (R60). -/
abbrev Word := BitVec 32

/-- An 8-bit character code, status code or fault code (R8, R260). -/
abbrev Byte := BitVec 8

/-- The numbers of the machine at hand, a NUM a run can be checked on: a sample, coefficient, physical
parameter, gain or dB threshold. NUM is open (R3): every type and rule of the model takes it as an argument
`K`, which is `Sample` where it is not written. The reference instance is `K = ℝ`. DESIGN CHOICE (log 1). -/
abbrev Sample := Rat

end Sys2Proof
end

