-- ==== Sys2Proof/Syntax.lean ====
section
/-! DEFINITION. The commands: one constructor for each row of spec/opcode_table.json (R64). -/

namespace Sys2Proof

/-- The stream selector of PRB.LEVEL (R62, format B). -/
inductive StreamSel
  | raw
  | filt
  deriving DecidableEq, Repr

/-- The 23 commands of R64 with their immediate operands (R61, R62). Samples, physical parameters, bit
data and strings travel in the payload (R63), not here. -/
inductive Instr
  /-- SYS.RESET (R250). -/
  | sysReset
  /-- SYS.RDREG r (R251). -/
  | sysRdreg (reg : Nat)
  /-- PARAM.LOAD n (R90). -/
  | paramLoad (n : Nat)
  /-- BC.APPLY.S (R114). -/
  | bcApplyS
  /-- BC.APPLY.D (R115). -/
  | bcApplyD
  /-- SF.INIT preset (R117); the number 3 is a bad operand, not an illegal word (R68). -/
  | sfInit (preset : Nat)
  /-- SF.PROC (R118). -/
  | sfProc
  /-- TX.START n (R140). -/
  | txStart (n : Nat)
  /-- TX.STOP (R141). -/
  | txStop
  /-- RX.START n (R171). -/
  | rxStart (n : Nat)
  /-- RX.STOP (R172). -/
  | rxStop
  /-- RX.PUSH (R176). -/
  | rxPush
  /-- RX.CHUNK (R173). -/
  | rxChunk
  /-- PRB.LEVEL sel (R175). -/
  | prbLevel (sel : StreamSel)
  /-- SLC.DECIDE (R218). -/
  | slcDecide
  /-- STAT.ONAVG (R231). -/
  | statOnavg
  /-- STAT.ONMIN (R232). -/
  | statOnmin
  /-- STAT.ONMAX (R233). -/
  | statOnmax
  /-- STAT.OFFAVG (R234). -/
  | statOffavg
  /-- STAT.OFFMIN (R235). -/
  | statOffmin
  /-- STAT.OFFMAX (R236). -/
  | statOffmax
  /-- STAT.TOTAL (R237). -/
  | statTotal
  /-- CMP.DIFF (R238). -/
  | cmpDiff
  deriving DecidableEq, Repr

end Sys2Proof
end

