-- ==== Sys2Proof/WellFormed.lean ====
section
/-! DEFINITION. Which terms of Instr stand for a command word: every immediate fits its field (R62). -/

namespace Sys2Proof

/-- Each immediate is the unsigned value of its field (R62): 24 bits for format I, 8 for R, 2 for P. -/
def Instr.wf : Instr → Bool
  | .sysRdreg reg => decide (reg < 2 ^ 8)
  | .paramLoad n => decide (n < 2 ^ 24)
  | .sfInit preset => decide (preset < 2 ^ 2)
  | .txStart n => decide (n < 2 ^ 24)
  | .rxStart n => decide (n < 2 ^ 24)
  | .sysReset => true
  | .bcApplyS => true
  | .bcApplyD => true
  | .sfProc => true
  | .txStop => true
  | .rxStop => true
  | .rxPush => true
  | .rxChunk => true
  | .prbLevel _ => true
  | .slcDecide => true
  | .statOnavg => true
  | .statOnmin => true
  | .statOnmax => true
  | .statOffavg => true
  | .statOffmin => true
  | .statOffmax => true
  | .statTotal => true
  | .cmpDiff => true

end Sys2Proof
end

