-- ==== Sys2Proof/Decode.lean ====
section
/-! DEFINITION. The decoder of command words (R60 to R62, R64, R67), the opcode table of R64 as rows, and
the encoder. -/

namespace Sys2Proof

/-- Why a word selects no row of R64 (R67). Both are refused with E_ILLEGAL_CMD. -/
inductive DecodeError
  /-- The operation code is unassigned. -/
  | unassignedOp
  /-- Immediate bits that the format requires to be 0 are not. -/
  | reservedBitsSet
  deriving DecidableEq, Repr

/-- Field `op`, bits 31:24 (R60). -/
def opField (w : Word) : Nat := w.toNat / 2 ^ 24

/-- Field `imm`, bits 23:0, unsigned (R60, R62). -/
def immField (w : Word) : Nat := w.toNat % 2 ^ 24

/-- The immediate when it lies below `bound` (the bits above must be 0, R61), a refusal otherwise. -/
def withImm (bound imm : Nat) (i : Nat → Instr) : Except DecodeError Instr :=
  if imm < bound then .ok (i imm) else .error .reservedBitsSet

/-- Format Z: the immediate must be 0 (R61). -/
def formatZ (imm : Nat) (i : Instr) : Except DecodeError Instr := withImm 1 imm fun _ => i

/-- Format B: bit 0 selects the stream, 0 = RAW, 1 = FILT (R61, R62). -/
def streamOf (imm : Nat) : StreamSel := if imm = 0 then .raw else .filt

/-- The decoder: the operation map of R64 with the formats of R61. -/
def decode (w : Word) : Except DecodeError Instr :=
  let imm := immField w
  match opField w with
  | 0x01 => formatZ imm .sysReset
  | 0x02 => withImm (2 ^ 8) imm .sysRdreg
  | 0x10 => withImm (2 ^ 24) imm .paramLoad
  | 0x20 => formatZ imm .bcApplyS
  | 0x21 => formatZ imm .bcApplyD
  | 0x22 => withImm (2 ^ 2) imm .sfInit
  | 0x23 => formatZ imm .sfProc
  | 0x30 => withImm (2 ^ 24) imm .txStart
  | 0x31 => formatZ imm .txStop
  | 0x40 => withImm (2 ^ 24) imm .rxStart
  | 0x41 => formatZ imm .rxStop
  | 0x42 => formatZ imm .rxPush
  | 0x43 => formatZ imm .rxChunk
  | 0x44 => withImm (2 ^ 1) imm fun b => .prbLevel (streamOf b)
  | 0x45 => formatZ imm .slcDecide
  | 0x50 => formatZ imm .statOnavg
  | 0x51 => formatZ imm .statOnmin
  | 0x52 => formatZ imm .statOnmax
  | 0x53 => formatZ imm .statOffavg
  | 0x54 => formatZ imm .statOffmin
  | 0x55 => formatZ imm .statOffmax
  | 0x56 => formatZ imm .statTotal
  | 0x58 => formatZ imm .cmpDiff
  | _ => .error .unassignedOp

/-- The operation code of a command (R64). -/
def Instr.op : Instr → Nat
  | .sysReset => 0x01
  | .sysRdreg _ => 0x02
  | .paramLoad _ => 0x10
  | .bcApplyS => 0x20
  | .bcApplyD => 0x21
  | .sfInit _ => 0x22
  | .sfProc => 0x23
  | .txStart _ => 0x30
  | .txStop => 0x31
  | .rxStart _ => 0x40
  | .rxStop => 0x41
  | .rxPush => 0x42
  | .rxChunk => 0x43
  | .prbLevel _ => 0x44
  | .slcDecide => 0x45
  | .statOnavg => 0x50
  | .statOnmin => 0x51
  | .statOnmax => 0x52
  | .statOffavg => 0x53
  | .statOffmin => 0x54
  | .statOffmax => 0x55
  | .statTotal => 0x56
  | .cmpDiff => 0x58

/-- The immediate field of a command (R61, R62). -/
def Instr.imm : Instr → Nat
  | .sysRdreg reg => reg
  | .paramLoad n => n
  | .sfInit preset => preset
  | .txStart n => n
  | .rxStart n => n
  | .prbLevel .raw => 0
  | .prbLevel .filt => 1
  | .sysReset => 0
  | .bcApplyS => 0
  | .bcApplyD => 0
  | .sfProc => 0
  | .txStop => 0
  | .rxStop => 0
  | .rxPush => 0
  | .rxChunk => 0
  | .slcDecide => 0
  | .statOnavg => 0
  | .statOnmin => 0
  | .statOnmax => 0
  | .statOffavg => 0
  | .statOffmin => 0
  | .statOffmax => 0
  | .statTotal => 0
  | .cmpDiff => 0

/-- The encoder: `op` in bits 31:24, `imm` in bits 23:0 (R60). -/
def encode (i : Instr) : Word := BitVec.ofNat 32 (i.op * 2 ^ 24 + i.imm)

/-- One row of the opcode map (R64). -/
structure OpRow where
  mnemonic : String
  pattern : Word
  mask : Word
  deriving DecidableEq, Repr

/-- A word selects a row iff `w & mask = match` (R64). -/
def OpRow.selects (r : OpRow) (w : Word) : Bool := w &&& r.mask == r.pattern

/-- The complete map of R64. -/
def opcodeTable : List OpRow :=
  [ ⟨"SYS.RESET", 0x01000000, 0xFFFFFFFF⟩, ⟨"SYS.RDREG", 0x02000000, 0xFFFFFF00⟩,
    ⟨"PARAM.LOAD", 0x10000000, 0xFF000000⟩ ] ++
  [ ⟨"BC.APPLY.S", 0x20000000, 0xFFFFFFFF⟩, ⟨"BC.APPLY.D", 0x21000000, 0xFFFFFFFF⟩,
    ⟨"SF.INIT", 0x22000000, 0xFFFFFFFC⟩, ⟨"SF.PROC", 0x23000000, 0xFFFFFFFF⟩ ] ++
  [ ⟨"TX.START", 0x30000000, 0xFF000000⟩, ⟨"TX.STOP", 0x31000000, 0xFFFFFFFF⟩ ] ++
  [ ⟨"RX.START", 0x40000000, 0xFF000000⟩, ⟨"RX.STOP", 0x41000000, 0xFFFFFFFF⟩,
    ⟨"RX.PUSH", 0x42000000, 0xFFFFFFFF⟩, ⟨"RX.CHUNK", 0x43000000, 0xFFFFFFFF⟩,
    ⟨"PRB.LEVEL", 0x44000000, 0xFFFFFFFE⟩, ⟨"SLC.DECIDE", 0x45000000, 0xFFFFFFFF⟩ ] ++
  [ ⟨"STAT.ONAVG", 0x50000000, 0xFFFFFFFF⟩, ⟨"STAT.ONMIN", 0x51000000, 0xFFFFFFFF⟩,
    ⟨"STAT.ONMAX", 0x52000000, 0xFFFFFFFF⟩, ⟨"STAT.OFFAVG", 0x53000000, 0xFFFFFFFF⟩,
    ⟨"STAT.OFFMIN", 0x54000000, 0xFFFFFFFF⟩, ⟨"STAT.OFFMAX", 0x55000000, 0xFFFFFFFF⟩,
    ⟨"STAT.TOTAL", 0x56000000, 0xFFFFFFFF⟩, ⟨"CMP.DIFF", 0x58000000, 0xFFFFFFFF⟩ ]

/-- The mnemonic of a command (R64). -/
def Instr.mnemonic : Instr → String
  | .sysReset => "SYS.RESET"
  | .sysRdreg _ => "SYS.RDREG"
  | .paramLoad _ => "PARAM.LOAD"
  | .bcApplyS => "BC.APPLY.S"
  | .bcApplyD => "BC.APPLY.D"
  | .sfInit _ => "SF.INIT"
  | .sfProc => "SF.PROC"
  | .txStart _ => "TX.START"
  | .txStop => "TX.STOP"
  | .rxStart _ => "RX.START"
  | .rxStop => "RX.STOP"
  | .rxPush => "RX.PUSH"
  | .rxChunk => "RX.CHUNK"
  | .prbLevel _ => "PRB.LEVEL"
  | .slcDecide => "SLC.DECIDE"
  | .statOnavg => "STAT.ONAVG"
  | .statOnmin => "STAT.ONMIN"
  | .statOnmax => "STAT.ONMAX"
  | .statOffavg => "STAT.OFFAVG"
  | .statOffmin => "STAT.OFFMIN"
  | .statOffmax => "STAT.OFFMAX"
  | .statTotal => "STAT.TOTAL"
  | .cmpDiff => "CMP.DIFF"

/-- The word whose low `nbits` bits are those of `w` and whose other bits are 0. The command word is
presented whole and has no byte order (R42, R60). -/
def tableWord (nbits w : Nat) : Word := BitVec.ofNat 32 (w % 2 ^ nbits)

/-- The instruction the decoder reads from a word numbered as spec/opcode_table.json numbers it. -/
def decodeTableWord (nbits w : Nat) : Option Instr := (decode (tableWord nbits w)).toOption

end Sys2Proof
end

