-- ==== Sys2Proof/Config.lean ====
section
/-! DEFINITION. What an implementation fixes (00_scope.md section 5): the open parameters as a record
over a numeric domain, the fixed constants by name, and the free values. -/

namespace Sys2Proof

/-! Every type below that holds a NUM takes the numeric domain `K` as its argument (R3) and stands in the
namespace `Over`; the same name outside it is the type of the machine at hand. -/

namespace Over

/-- The five coefficients of a biquad section, a0 normalized to 1 (R14, R110). -/
structure Biquad (K : Type) where
  b0 : K
  b1 : K
  b2 : K
  a1 : K
  a2 : K
  deriving DecidableEq, Repr, Inhabited

end Over

/-- How a running maximum starts (R7): `COARSE_INIT`, `FINE_INIT`. -/
inductive ScanInit
  | zero
  | first
  deriving DecidableEq, Repr, Inhabited

/-- The three presets of the streaming filter (R16, R117). -/
inductive Preset
  | order6
  | order10
  | order20
  deriving DecidableEq, Repr, Inhabited

/-- `SF_SECTIONS` (00_scope.md section 5): half the order of the preset (R120). -/
def Preset.sections : Preset → Nat
  | .order6 => 3
  | .order10 => 5
  | .order20 => 10

namespace Over

/-- The open parameters of 00_scope.md section 5 over NUM. No command writes them (R51, R277). -/
structure Config (K : Type) where
  /-- `BC_COEF`: eight sections (R113). -/
  bcCoef : Vector (Biquad K) 8
  /-- `SF_COEF[ORDER6]` (R120). -/
  sfCoef6 : Vector (Biquad K) 3
  /-- `SF_COEF[ORDER10]` (R120). -/
  sfCoef10 : Vector (Biquad K) 5
  /-- `SF_COEF[ORDER20]` (R120). -/
  sfCoef20 : Vector (Biquad K) 10
  /-- `TX_GAIN` (R144). -/
  txGain : K
  /-- `PCM_BITS` (R148). -/
  pcmBits : Nat
  /-- `PCM_SCALE` (R148). -/
  pcmScale : K
  /-- `SAMPLE_THRESHOLD` (R177). -/
  sampleThreshold : K
  /-- `DELIM_HOLE` (R178); `none` is NONE. -/
  delimHole : Option Nat
  /-- `COARSE_INIT` (R180). -/
  coarseInit : ScanInit
  /-- `FINE_INIT` (R186). -/
  fineInit : ScanInit
  /-- `DEV_MIN_IN` (R264). -/
  devMinIn : Nat
  /-- `DEV_MIN_OUT` (R264). -/
  devMinOut : Nat
  deriving DecidableEq, Repr, Inhabited

/-- `SF_COEF[p]` (R118). -/
def Config.sfCoef {K : Type} (c : Config K) : Preset → List (Biquad K)
  | .order6 => c.sfCoef6.toList
  | .order10 => c.sfCoef10.toList
  | .order20 => c.sfCoef20.toList

end Over

abbrev Biquad := Over.Biquad Sample
abbrev Config := Over.Config Sample

namespace Config

/-- The configuration of the machine at hand: open, so it has no body (log 3). -/
opaque installed : Config

/-- The value of the k-th draw the environment has not supplied (R146, U6): a free value of NUM (log 6). -/
opaque freeNoise {K : Type} [Inhabited K] : Nat → K

/-- The k-th PCM conversion outside 2^31 (R148, U4): a free value, cut to the PCM range where it is
used (log 8). -/
opaque freePcm : Nat → Int

/-- `DELIM_PATTERN` (00_scope.md section 5, R142, R178). -/
def delimPattern : List Bool := [true, true, true, false, false, false]

/-- `THRESH_OFFSET_DB` (R93). -/
def threshOffsetDb {K : Type} [Field K] : K := 11

/-- `WINDOWING_FACTOR` (R145). -/
def windowingFactor : Rat := 1 / 10

/-- `SKIP_BEFORE_FRAC` (R211). -/
def skipBeforeFrac : Rat := 3 / 20

/-- `SKIP_AFTER_FRAC` (R211). -/
def skipAfterFrac : Rat := 1 / 20

/-- The bound that `INTW = 32` puts on `accumulationBufferSize` (R97). -/
def maxBufferSize : Nat := 2 ^ 31 - 1

end Config

end Sys2Proof
end

