-- ==== Sys2Proof/Machine/State.lean ====
section
/-! DEFINITION. The state of AIC-SPB as plain data (10_state.md), its ports, the state after reset (R34),
and the reasons a step can stop. -/

namespace Sys2Proof.Machine

open Sys2Proof

/-! ## Names -/

/-- The three-valued secure bit (R214): 0, 1, or 2 "unclear". -/
inductive Secure
  | zero
  | one
  | unclear
  deriving DecidableEq, Repr, Inhabited

/-- The exceptional outcomes of R260. -/
inductive Exc
  | illegalCmd
  | operand
  | state
  | cfgChunk
  | cfgLen
  | cfgData
  | cfgParam
  | range
  | fatalCmplen
  | halted
  deriving DecidableEq, Repr, Inhabited

/-- `txState` (R20). -/
inductive TxState
  | idle
  | running
  deriving DecidableEq, Repr, Inhabited

/-- `rxState` (R24). -/
inductive RxState
  | none
  | accumulating
  | done
  deriving DecidableEq, Repr, Inhabited

/-- The decode result registers `syn.*` (R26). -/
structure SynRegs where
  argmax : Nat
  currentMax : Int
  delimiterEnd : Nat
  delay : Nat
  fineMax : Nat
  deriving DecidableEq, Repr, Inhabited

/-! ## Values, units, ports: the types that hold a NUM (R3), over a numeric domain `K` -/

namespace Over

/-- A linear RMS amplitude, the real number √ms (R5). Held by its mean square, which is a NUM whatever NUM
is (DESIGN CHOICE, log 2). -/
structure Amp (K : Type) where
  ms : K
  deriving DecidableEq, Repr, Inhabited

/-- A level in decibels (R4). DESIGN CHOICE (log 2): a level is held by what it is the level
of, never by an approximation. -/
inductive Level (K : Type) where
  /-- `dB(0)` (R4). -/
  | negInf
  /-- `dB(√ms) = 10·log10 ms`, for `ms > 0`. -/
  | ofMs (ms : K)
  /-- `dB(√r₀ + √r₁ + ...)` for a sum of roots that is not merged into one root. -/
  | ofRoots (roots : List K)
  deriving DecidableEq, Repr, Inhabited

/-- A NUM on an output port: a value of the domain or a level. -/
inductive Num (K : Type) where
  | val (q : K)
  | level (l : Level K)
  deriving DecidableEq, Repr, Inhabited

/-- An item of a payload frame (R63). -/
inductive Item (K : Type) where
  | num (q : K)
  | byte (b : Byte)
  deriving DecidableEq, Repr, Inhabited

/-- A payload frame: a finite sequence of items (R63). -/
abbrev Frame (K : Type) := List (Item K)

/-- An item of a response frame (R63). -/
inductive OutItem (K : Type) where
  | num (v : Num K)
  | int (v : Int)
  | byte (b : Byte)
  deriving DecidableEq, Repr, Inhabited

/-- A response frame (R63). -/
abbrev OutFrame (K : Type) := List (OutItem K)

/-- The events of the port `evt` (R270). -/
inductive Event (K : Type) where
  | levelRaw (db : Level K)
  | levelFilt (db : Level K)
  | syncLevel (db : Level K) (above : Bool)
  | decoded (ml sec : List Byte) (on off : List (Amp K))
  | stopReq
  | fault (code : Byte)
  deriving DecidableEq, Repr, Inhabited

/-! ## Units -/

/-- The seven input registers of PARAM (R12). -/
structure ParamRegs (K : Type) where
  sampleRate : K
  slotDuration : K
  bandLow : K
  bandHigh : K
  noiseFloorPower : K
  snr : K
  symbolCount : Nat
  deriving DecidableEq, Repr, Inhabited

/-- The seven derived registers of PARAM (R12). -/
structure DerivedRegs (K : Type) where
  samplesPerSlot : Nat
  samplesPerSymbol : Nat
  samplesPerDelimiter : Nat
  samplesPerFrame : Nat
  thresholdHigh : K
  thresholdLow : K
  accumulationBufferSize : Nat
  deriving DecidableEq, Repr, Inhabited

/-- PARAM (R12, R13). -/
structure ParamUnit (K : Type) where
  /-- `paramValid`. -/
  valid : Bool
  p : ParamRegs K
  d : DerivedRegs K
  deriving DecidableEq, Repr, Inhabited

/-- The four state values of a biquad section (R14). -/
structure SecState (K : Type) where
  x1 : K
  x2 : K
  y1 : K
  y2 : K
  deriving DecidableEq, Repr, Inhabited

/-- The streaming filter (R16). -/
structure StreamFilter (K : Type) where
  preset : Preset
  st : Vector (SecState K) 10
  deriving DecidableEq, Repr, Inhabited

/-- MOD (R17 to R21). -/
structure TxUnit (K : Type) where
  /-- `txBits`. -/
  bits : List Bool
  /-- `txStop`. -/
  stop : Bool
  /-- `txChunk`. -/
  chunk : Nat
  /-- `txState`. -/
  state : TxState
  /-- `TXBUF`. -/
  buf : List K
  deriving DecidableEq, Repr, Inhabited

/-- SYN (R22 to R27). -/
structure RxUnit (K : Type) where
  /-- `RXBUF`. -/
  buf : List K
  /-- `rxCursor`. -/
  cursor : Nat
  /-- `rxFull`. -/
  full : Bool
  /-- `rxChunk`. -/
  chunk : Nat
  /-- `rxState`. -/
  state : RxState
  /-- `rxStop`. -/
  stop : Bool
  syn : SynRegs
  synValid : Bool
  /-- `TSEQ`. -/
  tseq : List Int
  /-- `REFD`. -/
  refd : List Int
  /-- `REFS`. -/
  refs : List Int
  /-- `PROF`. -/
  prof : List Nat
  deriving DecidableEq, Repr, Inhabited

/-- The SlotInformation store and the decoded strings (R28). -/
structure SlotInfo (K : Type) where
  /-- `SI.onPowers`. -/
  onPowers : List (Amp K)
  /-- `SI.offPowers`. -/
  offPowers : List (Amp K)
  /-- `siValid`. -/
  valid : Bool
  mlStr : List Byte
  secStr : List Byte
  deriving DecidableEq, Repr, Inhabited

/-! ## Ports and environment -/

/-- The ports of R63 and R66. -/
structure Ports (K : Type) where
  /-- The payload presented with the command. -/
  din : List (Frame K)
  /-- The status byte of the last command (R260). -/
  status : Byte
  /-- The response frames of the last command (R63). -/
  dout : List (OutFrame K)
  /-- The event output, oldest first (R270). -/
  evt : List (Event K)
  /-- The PCM frames the SINK has accepted, oldest first (R149). -/
  sink : List (List Int)
  deriving DecidableEq, Repr, Inhabited

/-- One move of the environment (log 5): the HOST presents a command with its payload, or TXLOOP is
given a turn, the SINK being ready to accept a frame or not (R149, R150). -/
inductive Turn (K : Type) where
  | cmd (w : Word) (din : List (Frame K))
  | rep (sinkReady : Bool)
  deriving DecidableEq, Repr, Inhabited

/-- The NOISE agent as the block sees it (R146, log 6): answers it has ready, and how many draws have
been taken. -/
structure NoisePort (K : Type) where
  pending : List K
  taken : Nat
  deriving DecidableEq, Repr, Inhabited

/-- The environment's side of the state: the model's own fields (log 5, 6, 8). -/
structure Env (K : Type) where
  /-- The turns to come, next first. -/
  agenda : List (Turn K)
  noise : NoisePort K
  /-- How many PCM conversions fell outside 2^31 (R148). -/
  escapes : Nat
  deriving DecidableEq, Repr, Inhabited

/-- The whole state. -/
structure State (K : Type) where
  cfg : Over.Config K
  param : ParamUnit K
  /-- `bc.st` (R15). -/
  bcSt : Vector (SecState K) 8
  sf : StreamFilter K
  tx : TxUnit K
  rx : RxUnit K
  slc : SlotInfo K
  halted : Bool
  faultCode : Byte
  io : Ports K
  env : Env K
  deriving DecidableEq, Repr, Inhabited

end Over

/-- A cleared section (R113, R117). -/
def SecState.cleared {K : Type} [Zero K] : Over.SecState K := ⟨0, 0, 0, 0⟩

/-! ## The types of the machine at hand (R3, log 1) -/

abbrev Amp := Over.Amp Sample
abbrev Level := Over.Level Sample
abbrev Num := Over.Num Sample
abbrev Item := Over.Item Sample
abbrev Frame := Over.Frame Sample
abbrev OutItem := Over.OutItem Sample
abbrev OutFrame := Over.OutFrame Sample
abbrev Event := Over.Event Sample
abbrev ParamRegs := Over.ParamRegs Sample
abbrev DerivedRegs := Over.DerivedRegs Sample
abbrev ParamUnit := Over.ParamUnit Sample
abbrev SecState := Over.SecState Sample
abbrev StreamFilter := Over.StreamFilter Sample
abbrev TxUnit := Over.TxUnit Sample
abbrev RxUnit := Over.RxUnit Sample
abbrev SlotInfo := Over.SlotInfo Sample
abbrev Ports := Over.Ports Sample
abbrev Turn := Over.Turn Sample
abbrev NoisePort := Over.NoisePort Sample
abbrev Env := Over.Env Sample
abbrev State := Over.State Sample

/-! ## Why a step stops -/

/-- Why the machine stops. It has no constructor: R67 and R68 make every word with every payload
defined (R277), and each exception of R260 is taken as a next state (R274). Safe: no run is cut short. -/
inductive Fault
  deriving DecidableEq, Repr

/-- Why an instruction has no meaning in the model. -/
inductive Refusal
  /-- Raised by an arm of exec whose command has no meaning yet. Safe: nothing can be proved of what the
  command does. No arm raises it. -/
  | notModelled (mnemonic : String)
  deriving DecidableEq, Repr

/-! ## Reset -/

/-- The block after power-on reset under a configuration (R34, R300). Registers to which R34 gives no value
hold 0 (DESIGN CHOICE, log 4); the ports' and the environment's fields are empty (log 15). -/
def State.poweredOn {K : Type} [Zero K] (cfg : Over.Config K) : Over.State K where
  cfg := cfg
  param :=
    { valid := false
      p := ⟨0, 0, 0, 0, 0, 0, 0⟩
      d := ⟨0, 0, 0, 0, 0, 0, 0⟩ }
  bcSt := Vector.replicate 8 SecState.cleared
  sf := { preset := .order6, st := Vector.replicate 10 SecState.cleared }
  tx := { bits := [], stop := false, chunk := 0, state := .idle, buf := [] }
  rx :=
    { buf := [], cursor := 0, full := false, chunk := 0, state := .none, stop := false
      syn := ⟨0, 0, 0, 0, 0⟩, synValid := false, tseq := [], refd := [], refs := [], prof := [] }
  slc := { onPowers := [], offPowers := [], valid := false, mlStr := [], secStr := [] }
  halted := false
  faultCode := 0
  io := { din := [], status := 0, dout := [], evt := [], sink := [] }
  env := { agenda := [], noise := ⟨[], 0⟩, escapes := 0 }

/-- The machine after power-on reset: its configuration is the open one (log 3). -/
def State.reset : State := State.poweredOn Config.installed

end Sys2Proof.Machine
end

