-- ==== Sys2Proof/Machine/Levels.lean ====
section
/-! DEFINITION. RMS amplitudes, decibels and their comparisons (R4, R5 and the derived paragraph under R5), the
mean of amplitudes as a sum of roots (R230), and what a numeric domain must decide for them. -/

namespace Sys2Proof.Machine

open Sys2Proof

/-- What the rules ask of NUM (R3) beyond an ordered field with `floor`: comparing a level in dB with a
threshold, and the roots a sum of roots is merged by (log 1, log 2). -/
structure Numeric (K : Type) where
  /-- `dB(a) >= t` (R4, R5). -/
  dbGe : Over.Amp K → K → Bool
  /-- `dB(a) <= t` (R4, R5). -/
  dbLe : Over.Amp K → K → Bool
  /-- The non-negative root of a number that is the square of a rational. -/
  root : K → Option K

/-! ## The machine at hand: the rationals -/

/-- With `ms = p/q` and `t = n/d`, the pair `p^(10d)·10^(-n)`, `q^(10d)·10^n` (a negative power written on
the other side): `dB(√ms)` stands to `t` as the first to the second, since `10·log10 ms` compared with
`n/d` is `ms^(10d)` compared with `10^n` (derived paragraph under R5). -/
def Over.Amp.powers (a : Over.Amp Sample) (t : Sample) : Nat × Nat :=
  let e := 10 * t.den
  (a.ms.num.toNat ^ e * 10 ^ (-t.num).toNat, a.ms.den ^ e * 10 ^ t.num.toNat)

/-- `dB(a) >= t` (R4, R5). -/
def Over.Amp.dbGe (a : Over.Amp Sample) (t : Sample) : Bool := decide ((a.powers t).2 ≤ (a.powers t).1)

/-- `dB(a) <= t` (R4, R5). -/
def Over.Amp.dbLe (a : Over.Amp Sample) (t : Sample) : Bool := decide ((a.powers t).1 ≤ (a.powers t).2)

/-- The non-negative root of the square of a rational. -/
def ratRoot (q : Sample) : Option Sample := if Rat.sqrt q * Rat.sqrt q = q then some (Rat.sqrt q) else none

/-- NUM of the machine at hand (log 1). -/
def rationals : Numeric Sample := { dbGe := Over.Amp.dbGe, dbLe := Over.Amp.dbLe, root := ratRoot }

/-! ## Amplitudes and levels over a numeric domain -/

variable {K : Type} [Field K] [LinearOrder K]

/-- `rms(a)` of a non-empty sequence (R5), held by the mean square. -/
def rms (xs : List K) : Over.Amp K := ⟨(xs.map fun x => x * x).sum / xs.length⟩

/-- The amplitude that is the non-negative number `x` itself. -/
def Amp.ofLinear (x : K) : Over.Amp K := ⟨x * x⟩

/-- `dB` of an amplitude (R4). -/
def Over.Amp.dB (a : Over.Amp K) : Over.Level K := if a.ms = 0 then .negInf else .ofMs a.ms

/-- `dB(a) > dB(b)`: the mean squares compare as the levels do (R5). -/
def Over.Amp.dbGt (a b : Over.Amp K) : Bool := decide (b.ms < a.ms)

/-- `max` of two amplitudes (R215). -/
def Over.Amp.max (a b : Over.Amp K) : Over.Amp K := if a.ms < b.ms then b else a

/-- `min` of two amplitudes (R215). -/
def Over.Amp.min (a b : Over.Amp K) : Over.Amp K := if a.ms < b.ms then a else b

/-- Greatest element of a non-empty sequence (R230). -/
def maxAmp : List (Over.Amp K) → Over.Amp K
  | [] => ⟨0⟩
  | a :: as => as.foldl Over.Amp.max a

/-- Least element of a non-empty sequence (R230). -/
def minAmp : List (Over.Amp K) → Over.Amp K
  | [] => ⟨0⟩
  | a :: as => as.foldl Over.Amp.min a

/-- `√q` and `√r` add up to one root: `r/q` is the square of a rational. -/
def sameClass (N : Numeric K) (q r : K) : Bool := (N.root (r / q)).isSome

/-- The `m` with `√m = √q + √r`, for roots of one class. -/
def mergeRoots (N : Numeric K) (q r : K) : K :=
  q * ((1 + (N.root (r / q)).getD 0) * (1 + (N.root (r / q)).getD 0))

/-- Adds `√q` to a sum of roots, kept ascending and with no two roots of one class. -/
def addRoot (N : Numeric K) (q : K) (roots : List K) : List K :=
  if q = 0 then roots
  else
    match roots.find? (sameClass N q) with
    | some r => (roots.erase r).orderedInsert (· ≤ ·) (mergeRoots N q r)
    | none => roots.orderedInsert (· ≤ ·) q

/-- The sum of the roots of `qs`, in index order (R230). -/
def sumRoots (N : Numeric K) (qs : List K) : List K := qs.foldl (fun acc q => addRoot N q acc) []

/-- `dB` of a sum of roots (R4). -/
def dbOfRoots (roots : List K) : Over.Level K :=
  match roots with
  | [] => .negInf
  | [q] => .ofMs q
  | rs => .ofRoots rs

/-- The mean squares of the summands of `avg(as) = (a₀ + a₁ + ...)/N`: each `√ms / N = √(ms/N²)` (R230). -/
def avgTerms (as : List (Over.Amp K)) : List K :=
  as.map fun a => a.ms / ((as.length : K) * (as.length : K))

/-- `dB(avg(as))` (R230). -/
def dbAvg (N : Numeric K) (as : List (Over.Amp K)) : Over.Level K := dbOfRoots (sumRoots N (avgTerms as))

/-- `dB((avg(on) + avg(off)) / 2)` (R237). -/
def dbTotal (N : Numeric K) (on off : List (Over.Amp K)) : Over.Level K :=
  dbOfRoots (sumRoots N ((avgTerms on ++ avgTerms off).map fun q => q / 4))

end Sys2Proof.Machine
end

