-- ==== Sys2Proof/Machine/Ops.lean ====
section
/-! DEFINITION. The shared operations: responding, emitting an event, taking an exception (R262, R274), the
halted check (R261), buffer slices (R40), rounding (R6) and the running-maximum scan (R7). -/

namespace Sys2Proof.Machine

open Sys2Proof

variable {K : Type}

/-- The result of a meaning. -/
abbrev Over.Result (K : Type) := Host.Outcome (Over.State K) Fault Refusal

abbrev Result := Over.Result Sample

/-! ## Responses, events, exceptions -/

/-- The command took effect: status 0 and its response frames (R260, R63). -/
def respond (frames : List (Over.OutFrame K)) (s : Over.State K) : Over.Result K :=
  .next { s with io := { s.io with status := 0, dout := frames } }

/-- `emit` (R270): the event is appended to the event output. -/
def emit (e : Over.Event K) (s : Over.State K) : Over.State K := { s with io := { s.io with evt := s.io.evt ++ [e] } }

/-- The status codes of R260. -/
def Exc.code : Exc → Byte
  | .illegalCmd => 0x01
  | .operand => 0x02
  | .state => 0x03
  | .cfgChunk => 0x10
  | .cfgLen => 0x11
  | .cfgData => 0x12
  | .cfgParam => 0x13
  | .range => 0x20
  | .fatalCmplen => 0x30
  | .halted => 0x3F

/-- What an exception records before it is reported (column "records" of R260): F_RANGE and
E_FATAL_CMPLEN write `faultCode` and emit FAULT, the latter sets `halted` (R268, R269); a refusal
records nothing (R262). -/
def Exc.record (x : Exc) (s : Over.State K) : Over.State K :=
  match x with
  | .range => emit (.fault x.code) { s with faultCode := x.code }
  | .fatalCmplen => emit (.fault x.code) { s with faultCode := x.code, halted := true }
  | .illegalCmd | .operand | .state | .cfgChunk | .cfgLen | .cfgData | .cfgParam | .halted => s

/-- Taking an exception (R262, R274): what it records, then the step ends with its code in the status
byte and no response frame. There is no vector, no saved context and no return (R274, R275). -/
def takeException (x : Exc) (s : Over.State K) : Over.State K :=
  let r := x.record s
  { r with io := { r.io with status := x.code, dout := [] } }

/-- `raise X` as the end of a command (R262). -/
def raise (x : Exc) (s : Over.State K) : Over.Result K := .next (takeException x s)

/-- The halted check that every command but SYS.RESET begins with (R261). -/
def unlessHalted (s : Over.State K) (body : Over.Result K) : Over.Result K := if s.halted then raise .halted s else body

/-- A command other than SYS.RESET (log 9) whose payload is none (R63): E_OPERAND where frames stand on `din`, a
wrong number of frames (R68). -/
def unlessPayload (s : Over.State K) (body : Over.Result K) : Over.Result K :=
  match s.io.din with
  | [] => body
  | _ :: _ => raise .operand s

/-- A word that selects no row: E_ILLEGAL_CMD, or E_HALTED when halted, which is checked before decoding
(R67, R261). -/
def refuseIllegal (s : Over.State K) : Over.Result K := unlessHalted s (raise .illegalCmd s)

/-- The HOST's next command leaves the agenda and its payload stands on `din` (R63, log 5). -/
def present (din : List (Over.Frame K)) (rest : List (Over.Turn K)) (s : Over.State K) : Over.State K :=
  { s with io := { s.io with din := din }, env := { s.env with agenda := rest } }

/-- A turn of TXLOOP leaves the agenda (log 5). -/
def popTurn (rest : List (Over.Turn K)) (s : Over.State K) : Over.State K := { s with env := { s.env with agenda := rest } }

/-! ## Sequences and numbers -/

/-- `a[lo..hi)` (00_scope.md section 6). -/
def slice {α : Type} (a : List α) (lo hi : Nat) : List α := (a.drop lo).take (hi - lo)

/-- `a[at .. at + len(c)) <- c` (R40). -/
def writeSlice {α : Type} (a : List α) (pos : Nat) (c : List α) : List α :=
  a.take pos ++ c ++ a.drop (pos + c.length)

/-- `round(q) = floor(q + 1/2)` for `q >= 0` (R6). -/
def roundHalfUp [Field K] [LinearOrder K] [FloorRing K] (q : K) : Nat := ⌊q + 1 / 2⌋.toNat

/-- `skipBefore = ceil(3·sps/20)` (R95, R211). -/
def skipBefore (sps : Nat) : Nat := (Config.skipBeforeFrac * sps).ceil.toNat

/-- `skipAfter = floor(sps/20)` (R95, R211). -/
def skipAfter (sps : Nat) : Nat := (Config.skipAfterFrac * sps).floor.toNat

/-- `winLen = floor(sps/10)` (R95, R145). -/
def winLen (sps : Nat) : Nat := (Config.windowingFactor * sps).floor.toNat

/-! The scan and the correlator (R179) are over any numbers `R`, as R7 and R189 say; the block's own are over the
integers. -/

section scan
variable {R : Type} [LT R] [DecidableLT R]

/-- The loop of the scan (R7): strict comparison, so the lowest index of a maximum wins. -/
def scanFrom (f : Nat → R) (best : R) (arg : Nat) : List Nat → R × Nat
  | [] => (best, arg)
  | i :: is => if best < f i then scanFrom f (f i) i is else scanFrom f best arg is

/-- `scan(init, I, f)` (R7). -/
def scan [Zero R] (init : ScanInit) (is : List Nat) (f : Nat → R) : R × Nat :=
  match init, is with
  | .zero, _ => scanFrom f 0 0 is
  | .first, [] => (0, 0)
  | .first, i :: _ => scanFrom f (f i) i is

end scan

/-- `'0'`, `'1'`, `'2'` (R8): `chr(b) = 0x30 + b`. -/
def chr (b : Nat) : Byte := BitVec.ofNat 8 (0x30 + b)

/-- A bit of a status word as a number. -/
def bitNat (b : Bool) : Nat := if b then 1 else 0

end Sys2Proof.Machine
end

