-- ==== Sys2Proof/Machine/Operands.lean ====
section
/-! DEFINITION. The operand forms that travel in the payload (R63, R68): how a list of frames is read as
the payload a command asks for. -/

namespace Sys2Proof.Machine

open Sys2Proof

variable {K : Type}

/-- The samples of a frame whose items are all NUM; none where an item is a BYTE (R63, R68). An empty
frame is a frame of either type (DEDUCED, log 10). -/
def numFrame : Over.Frame K → Option (List K)
  | [] => some []
  | .num q :: rest => (numFrame rest).map (q :: ·)
  | .byte _ :: _ => none

/-- The bytes of a frame whose items are all BYTE (R63, R68). -/
def byteFrame : Over.Frame K → Option (List Byte)
  | [] => some []
  | .byte b :: rest => (byteFrame rest).map (b :: ·)
  | .num _ :: _ => none

/-- "one frame of n >= 0 NUM" (R63). -/
def oneNumFrame : List (Over.Frame K) → Option (List K)
  | [f] => numFrame f
  | _ => none

/-- "one frame of n >= 1 NUM" (R63, R68). -/
def oneChunk (din : List (Over.Frame K)) : Option (List K) :=
  match oneNumFrame din with
  | some [] => none
  | r => r

/-- "one frame of m >= 0 BYTE" (R63). -/
def oneByteFrame : List (Over.Frame K) → Option (List Byte)
  | [f] => byteFrame f
  | _ => none

/-- "two frames of BYTE, a then b" (R63). -/
def twoByteFrames : List (Over.Frame K) → Option (List Byte × List Byte)
  | [f, g] =>
    match byteFrame f, byteFrame g with
    | some a, some b => some (a, b)
    | _, _ => none
  | _ => none

/-- The NUM items of a response frame (R63). -/
def numItems (xs : List K) : Over.OutFrame K := xs.map fun x => .num (.val x)

end Sys2Proof.Machine
end

