-- ==== Sys2Proof/Machine/FilterBank.lean ====
section
/-! DEFINITION. FB: the biquad primitive, the two cascades, BC.APPLY.S, BC.APPLY.D, SF.INIT, SF.PROC
(41_filterbank.md). -/

namespace Sys2Proof.Machine

open Sys2Proof

variable {K : Type} [Field K]

/-- The biquad difference equation with its state update (R110, R111). -/
def bqStep (c : Over.Biquad K) (st : Over.SecState K) (x : K) : Over.SecState K × K :=
  let y := c.b0 * x + c.b1 * st.x1 + c.b2 * st.x2 - c.a1 * st.y1 - c.a2 * st.y2
  ({ x1 := x, x2 := st.x1, y1 := y, y2 := st.y1 }, y)

/-- One sample through a cascade (R112): the sections that have coefficients, in order; later sections
keep their state (R16). -/
def cascadeStep : List (Over.Biquad K) → List (Over.SecState K) → K → List (Over.SecState K) × K
  | c :: cs, st :: sts, x =>
    let (st', y) := bqStep c st x
    let (sts', z) := cascadeStep cs sts y
    (st' :: sts', z)
  | _, sts, x => (sts, x)

/-- A buffer through a cascade, sample by sample (R113, R118). -/
def cascadeRun (cs : List (Over.Biquad K)) : List (Over.SecState K) → List K → List (Over.SecState K) × List K
  | sts, [] => (sts, [])
  | sts, x :: xs =>
    let (sts', y) := cascadeStep cs sts x
    let (sts'', ys) := cascadeRun cs sts' xs
    (sts'', y :: ys)

theorem cascadeStep_length (cs : List (Over.Biquad K)) (sts : List (Over.SecState K)) (x : K) :
    (cascadeStep cs sts x).1.length = sts.length := by
  induction cs generalizing sts x with
  | nil => cases sts <;> rfl
  | cons c cs ih => cases sts with
    | nil => rfl
    | cons st sts => simp [cascadeStep, ih]

theorem cascadeRun_length (cs : List (Over.Biquad K)) (sts : List (Over.SecState K)) (xs : List K) :
    (cascadeRun cs sts xs).1.length = sts.length := by
  induction xs generalizing sts with
  | nil => rfl
  | cons x xs ih => simp [cascadeRun, ih, cascadeStep_length]

/-- The states of a filter's sections after a buffer, as many as before. -/
def sectionsAfter {n : Nat} (cs : List (Over.Biquad K)) (st : Vector (Over.SecState K) n) (buf : List K) :
    Vector (Over.SecState K) n :=
  ⟨(cascadeRun cs st.toList buf).1.toArray, by simp [cascadeRun_length]⟩

/-- `bc_apply` (R113): the sections are cleared first. Answers the sections' states and the output. -/
def bcApply (cfg : Over.Config K) (buf : List K) : Vector (Over.SecState K) 8 × List K :=
  let clear : Vector (Over.SecState K) 8 := Vector.replicate 8 SecState.cleared
  (sectionsAfter cfg.bcCoef.toList clear buf, (cascadeRun cfg.bcCoef.toList clear.toList buf).2)

/-- `sf_process` (R118): the live delay line is used and updated. -/
def sfProcess (cfg : Over.Config K) (sf : Over.StreamFilter K) (buf : List K) : Over.StreamFilter K × List K :=
  ({ sf with st := sectionsAfter (cfg.sfCoef sf.preset) sf.st buf },
    (cascadeRun (cfg.sfCoef sf.preset) sf.st.toList buf).2)

/-- The batch cascade as a command, evaluated in the reference instance of NUM (R114, R115; log 12). -/
def batchApply (s : Over.State K) : Over.Result K :=
  unlessHalted s <|
    match oneNumFrame s.io.din with
    | none => raise .operand s
    | some buf =>
      respond [numItems (bcApply s.cfg buf).2] { s with bcSt := (bcApply s.cfg buf).1 }

/-- BC.APPLY.S (R114). -/
def execBcApplyS (s : Over.State K) : Over.Result K := batchApply s

/-- BC.APPLY.D (R115): the same frame as BC.APPLY.S in the reference instance. -/
def execBcApplyD (s : Over.State K) : Over.Result K := batchApply s

/-- The preset an operand of SF.INIT selects; 3 is reserved (R62). -/
def presetOf (preset : Nat) : Option Preset :=
  match preset with
  | 0 => some .order6
  | 1 => some .order10
  | 2 => some .order20
  | _ => none

/-- SF.INIT (R117). A payload is a wrong number of frames (R63, R68; log 9). -/
def execSfInit (preset : Nat) (s : Over.State K) : Over.Result K :=
  unlessHalted s <|
    match presetOf preset with
    | none => raise .operand s
    | some p =>
      unlessPayload s <|
        respond [] { s with sf := { preset := p, st := Vector.replicate 10 SecState.cleared } }

/-- SF.PROC (R118). -/
def execSfProc (s : Over.State K) : Over.Result K :=
  unlessHalted s <|
    match oneNumFrame s.io.din with
    | none => raise .operand s
    | some buf =>
      respond [numItems (sfProcess s.cfg s.sf buf).2] { s with sf := (sfProcess s.cfg s.sf buf).1 }

end Sys2Proof.Machine
end

