-- ==== Sys2Proof/Machine/Modulator.lean ====
section
/-! DEFINITION. MOD: TX.START, TX.STOP and the autonomous step TX.REP (42_modulator.md). -/

namespace Sys2Proof.Machine

open Sys2Proof

variable {K : Type} [Field K] [LinearOrder K] [FloorRing K] [Inhabited K]

/-- A byte is '0' or '1' (R140, R266). -/
def isBinary (b : Byte) : Bool := b == 0x30 || b == 0x31

/-- TX.START (R140, R264 to R266). -/
def execTxStart (n : Nat) (s : Over.State K) : Over.Result K :=
  unlessHalted s <|
    match oneByteFrame s.io.din with
    | none => raise .operand s
    | some data =>
      if !s.param.valid then raise .state s
      else if s.tx.state = .running then raise .state s
      else if n < s.cfg.devMinOut then raise .cfgChunk s
      else if data.length ≠ s.param.p.symbolCount then raise .cfgLen s
      else if !data.all isBinary then raise .cfgData s
      else
        respond []
          { s with
            tx :=
              { s.tx with
                bits := data.map (· == 0x31)
                chunk := n
                stop := false
                state := .running } }

/-- TX.STOP (R141). A payload is a wrong number of frames (R63, R68; log 9). -/
def execTxStop (s : Over.State K) : Over.Result K :=
  unlessHalted s <| unlessPayload s <| respond [] { s with tx := { s.tx with stop := true } }

/-- The slot sequence (R142); `true` is "on". -/
def slots (bits : List Bool) : List Bool :=
  Config.delimPattern ++ bits.flatMap fun b => if b then [true, false] else [false, true]

/-- `draw()` (R146): the next answer the NOISE agent has ready, a free value where it has none (log 6). -/
def Over.NoisePort.draw (np : Over.NoisePort K) : K × Over.NoisePort K :=
  match np.pending with
  | v :: rest => (v, { pending := rest, taken := np.taken + 1 })
  | [] => (Config.freeNoise np.taken, { pending := [], taken := np.taken + 1 })

/-- `k` samples of scaled noise, drawn in ascending order (R144). -/
def noiseBurst (gain : K) : Nat → Over.NoisePort K → List K × Over.NoisePort K
  | 0, np => ([], np)
  | k + 1, np =>
    let (v, np') := np.draw
    let (vs, np'') := noiseBurst gain k np'
    (gain * v :: vs, np'')

/-- Steps 1 and 2: the zero-filled buffer with its "on" slots filled, slot by slot (R143, R144). -/
def fillSlots (gain : K) (sps : Nat) : List Bool → Over.NoisePort K → List K × Over.NoisePort K
  | [], np => ([], np)
  | true :: ss, np =>
    let (burst, np') := noiseBurst gain sps np
    let (rest, np'') := fillSlots gain sps ss np'
    (burst ++ rest, np'')
  | false :: ss, np =>
    let (rest, np') := fillSlots gain sps ss np
    (List.replicate sps 0 ++ rest, np')

/-- Step 3: the first and the last `w` elements of the whole buffer are zeroed (R145). -/
def zeroEdges (w : Nat) (buf : List K) : List K :=
  buf.mapIdx fun k v => if k < w ∨ buf.length - w ≤ k then 0 else v

/-- Step 4: the batch cascade twice, each pass from cleared sections (R147). -/
def bandpassTwice (cfg : Over.Config K) (buf : List K) : Vector (Over.SecState K) 8 × List K :=
  bcApply cfg (bcApply cfg buf).2

/-- The integer nearest to zero-ward (R148). -/
def truncate (v : K) : Int := if 0 ≤ v then ⌊v⌋ else ⌈v⌉

/-- The two's-complement wrap to `bits` bits (R148). -/
def wrapPcm (bits : Nat) (t : Int) : Int :=
  let m := t % 2 ^ bits
  if 2 ^ (bits - 1) ≤ m then m - 2 ^ bits else m

/-- `to_pcm` (R148), with the counter of escapes: outside 2^31 the value is any in the PCM range
(log 8). -/
def toPcm (cfg : Over.Config K) (v : K) (escapes : Nat) : Int × Nat :=
  let t := truncate (v * cfg.pcmScale)
  if 2 ^ 31 ≤ |t| then (wrapPcm cfg.pcmBits (Config.freePcm escapes), escapes + 1)
  else (wrapPcm cfg.pcmBits t, escapes)

/-- Step 5: `to_pcm` over the buffer in index order (R148). -/
def pcmFrame (cfg : Over.Config K) : List K → Nat → List Int × Nat
  | [], escapes => ([], escapes)
  | v :: vs, escapes =>
    let (x, escapes') := toPcm cfg v escapes
    let (xs, escapes'') := pcmFrame cfg vs escapes'
    (x :: xs, escapes'')

/-- The buffer of a repetition before filtering, with the NOISE port after its draws (R142 to R145). -/
def burstBuffer (s : Over.State K) : List K × Over.NoisePort K :=
  let sps := s.param.d.samplesPerSlot
  let filled := fillSlots s.cfg.txGain sps (slots s.tx.bits) s.env.noise
  (zeroEdges (winLen sps) filled.1, filled.2)

/-- One repetition: steps 1 to 5 and the write (R143 to R149). -/
def repetition (s : Over.State K) : Over.State K :=
  let burst := burstBuffer s
  let filtered := bandpassTwice s.cfg burst.1
  let pcm := pcmFrame s.cfg filtered.2 s.env.escapes
  { s with
    tx := { s.tx with buf := filtered.2 }
    bcSt := filtered.1
    io := { s.io with sink := s.io.sink ++ [pcm.1] }
    env := { s.env with noise := burst.2, escapes := pcm.2 } }

/-- TX.REP is enabled (R150). -/
def repEnabled (sinkReady : Bool) (s : Over.State K) : Bool :=
  !s.halted && s.tx.state == .running && (s.tx.stop || sinkReady)

/-- A turn of TXLOOP: TX.REP where it is enabled (R150), nothing where it is not (log 7). -/
def txRep (sinkReady : Bool) (s : Over.State K) : Over.State K :=
  if repEnabled sinkReady s then
    if s.tx.stop then { s with tx := { s.tx with state := .idle } } else repetition s
  else s

end Sys2Proof.Machine
end

