-- ==== Sys2Proof/Machine/Param.lean ====
section
/-! DEFINITION. PARAM: the derived quantities and PARAM.LOAD (40_parameters.md). -/

namespace Sys2Proof.Machine

open Sys2Proof

variable {K : Type} [Field K] [LinearOrder K] [FloorRing K]

/-- The derived registers from `samplesPerSlot`, the symbol count and the noise floor (R92 to R94). -/
def derive (sps n : Nat) (noiseFloorPower : K) : Over.DerivedRegs K :=
  let sym := 2 * sps
  let spd := 6 * sps
  let spf := sym * n
  { samplesPerSlot := sps
    samplesPerSymbol := sym
    samplesPerDelimiter := spd
    samplesPerFrame := spf
    thresholdHigh := noiseFloorPower + Config.threshOffsetDb
    thresholdLow := noiseFloorPower + Config.threshOffsetDb
    accumulationBufferSize := 2 * spd + 2 * spf }

/-- The derived registers a set of inputs gives (R91 to R94). -/
def deriveFrom (p : Over.ParamRegs K) : Over.DerivedRegs K :=
  derive (roundHalfUp (p.slotDuration * p.sampleRate)) p.symbolCount p.noiseFloorPower

/-- `valid(...)` (R96, R97). -/
def paramsValid (p : Over.ParamRegs K) (d : Over.DerivedRegs K) : Bool :=
  decide (0 < p.sampleRate) && decide (0 < p.slotDuration) && decide (1 ≤ p.symbolCount)
    && decide (2 ≤ d.samplesPerSlot) && decide (d.accumulationBufferSize ≤ Config.maxBufferSize)

/-- The registers of a payload of exactly six NUM (R90). -/
def paramPayload (n : Nat) (din : List (Over.Frame K)) : Option (Over.ParamRegs K) :=
  match oneNumFrame din with
  | some [sampleRate, slotDuration, bandLow, bandHigh, noiseFloorPower, snr] =>
    some ⟨sampleRate, slotDuration, bandLow, bandHigh, noiseFloorPower, snr, n⟩
  | _ => none

/-- PARAM.LOAD (R90). -/
def execParamLoad (n : Nat) (s : Over.State K) : Over.Result K :=
  unlessHalted s <|
    match paramPayload n s.io.din with
    | none => raise .operand s
    | some p =>
      if s.param.valid then raise .state s
      else if paramsValid p (deriveFrom p) then
        respond [] { s with param := { valid := true, p := p, d := deriveFrom p } }
      else raise .cfgParam s

end Sys2Proof.Machine
end

