-- ==== Sys2Proof/Machine/Slicer.lean ====
section
/-! DEFINITION. SLC: the two decisions, the measurement of a symbol, the demodulation loop and SLC.DECIDE
(44_slicer.md). -/

namespace Sys2Proof.Machine

open Sys2Proof

variable {K : Type} [Field K] [LinearOrder K]

/-- The ML bit (R213). -/
def mlBit (first second : Over.Amp K) : Bool := first.dbGt second

/-- The secure bit, the clauses tried in the order written (R214). -/
def secureBit (N : Numeric K) (d : Over.DerivedRegs K) (first second : Over.Amp K) : Secure :=
  if N.dbGe first d.thresholdHigh && N.dbLe second d.thresholdLow then .one
  else if N.dbLe first d.thresholdLow && N.dbGe second d.thresholdHigh then .zero
  else .unclear

/-- The secure bit as a number (R214). -/
def Secure.toNat : Secure → Nat
  | .zero => 0
  | .one => 1
  | .unclear => 2

/-- `firstPower(i)` of a symbol that starts at `start` (R211). -/
def firstPower (d : Over.DerivedRegs K) (buf : List K) (start : Nat) : Over.Amp K :=
  let sps := d.samplesPerSlot
  rms (slice buf (start + skipBefore sps) (start + sps - skipAfter sps))

/-- `secondPower(i)` of a symbol that starts at `start` (R211). -/
def secondPower (d : Over.DerivedRegs K) (buf : List K) (start : Nat) : Over.Amp K :=
  let sps := d.samplesPerSlot
  rms (slice buf (start + sps + skipBefore sps) (start + d.samplesPerSymbol - skipAfter sps))

/-- What the demodulation records of one symbol (R216). -/
structure Over.SymbolResult (K : Type) where
  ml : Byte
  sec : Byte
  on : Over.Amp K
  off : Over.Amp K
  deriving DecidableEq, Repr

abbrev SymbolResult := Over.SymbolResult Sample

/-- The decisions on the two halves of a symbol (R213 to R216). -/
def sliceSymbol (N : Numeric K) (d : Over.DerivedRegs K) (first second : Over.Amp K) : Over.SymbolResult K :=
  { ml := chr (bitNat (mlBit first second))
    sec := chr (secureBit N d first second).toNat
    on := first.max second
    off := first.min second }

/-- Symbol `i` of a frame whose symbols start at `delay` (R210, R211, R216). -/
def demodSymbol (N : Numeric K) (d : Over.DerivedRegs K) (buf : List K) (delay i : Nat) : Over.SymbolResult K :=
  let start := delay + i * d.samplesPerSymbol
  sliceSymbol N d (firstPower d buf start) (secondPower d buf start)

/-- Step 6 (R216): the symbols in ascending order. -/
def demodulate (N : Numeric K) (d : Over.DerivedRegs K) (n : Nat) (buf : List K) (delay : Nat) :
    List (Over.SymbolResult K) :=
  (List.range n).map (demodSymbol N d buf delay)

/-- The response of SLC.DECIDE (R63, R218). -/
def slicerFrame (N : Numeric K) (d : Over.DerivedRegs K) (first second : K) : Over.OutFrame K :=
  let f := Amp.ofLinear first
  let g := Amp.ofLinear second
  [ .int (bitNat (mlBit f g)), .int (secureBit N d f g).toNat,
    .num (.val (max first second)), .num (.val (min first second)),
    .num (.level f.dB), .num (.level g.dB) ]

/-- SLC.DECIDE over a numeric domain (R218). -/
def slcDecide (N : Numeric K) (s : Over.State K) : Over.Result K :=
  unlessHalted s <|
    match oneNumFrame s.io.din with
    | some [first, second] =>
      if first < 0 ∨ second < 0 then raise .operand s
      else if !s.param.valid then raise .state s
      else respond [slicerFrame N s.param.d first second] s
    | _ => raise .operand s

/-- SLC.DECIDE (R218). -/
def execSlcDecide (s : State) : Result := slcDecide rationals s

end Sys2Proof.Machine
end

