-- ==== Sys2Proof/Machine/SlotStats.lean ====
section
/-! DEFINITION. STAT: the seven statistics and the comparator (45_slotstats.md). -/

namespace Sys2Proof.Machine

open Sys2Proof

variable {K : Type} [Field K] [LinearOrder K]

/-- The prologue of the statistics and their one-item response (R230). A payload is a wrong number of frames
(R63, R68; log 9), checked before the state (R272). An aggregate of no element, which no
run reaches, reads outside its space: F_RANGE (R41, R269; log 11). -/
def statistic (f : List (Over.Amp K) → List (Over.Amp K) → Over.Level K) (s : Over.State K) : Over.Result K :=
  unlessHalted s <| unlessPayload s <|
    if !s.slc.valid then raise .state s
    else if s.slc.onPowers = [] ∨ s.slc.offPowers = [] then raise .range s
    else respond [[.num (.level (f s.slc.onPowers s.slc.offPowers))]] s

/-- STAT.ONAVG over a numeric domain (R231). -/
def statOnavg (N : Numeric K) (s : Over.State K) : Over.Result K := statistic (fun on _ => dbAvg N on) s

/-- STAT.ONAVG (R231). -/
def execStatOnavg (s : State) : Result := statOnavg rationals s

/-- STAT.ONMIN (R232). -/
def execStatOnmin (s : Over.State K) : Over.Result K := statistic (fun on _ => (minAmp on).dB) s

/-- STAT.ONMAX (R233). -/
def execStatOnmax (s : Over.State K) : Over.Result K := statistic (fun on _ => (maxAmp on).dB) s

/-- STAT.OFFAVG over a numeric domain (R234). -/
def statOffavg (N : Numeric K) (s : Over.State K) : Over.Result K := statistic (fun _ off => dbAvg N off) s

/-- STAT.OFFAVG (R234). -/
def execStatOffavg (s : State) : Result := statOffavg rationals s

/-- STAT.OFFMIN (R235). -/
def execStatOffmin (s : Over.State K) : Over.Result K := statistic (fun _ off => (minAmp off).dB) s

/-- STAT.OFFMAX (R236). -/
def execStatOffmax (s : Over.State K) : Over.Result K := statistic (fun _ off => (maxAmp off).dB) s

/-- STAT.TOTAL over a numeric domain (R237). -/
def statTotal (N : Numeric K) (s : Over.State K) : Over.Result K := statistic (dbTotal N) s

/-- STAT.TOTAL (R237). -/
def execStatTotal (s : State) : Result := statTotal rationals s

/-- How many positions of two byte strings differ (R238). -/
def countDifferences (a b : List Byte) : Nat := (a.zip b).countP fun p => p.1 != p.2

/-- CMP.DIFF (R238, R268). -/
def execCmpDiff (s : Over.State K) : Over.Result K :=
  unlessHalted s <|
    match twoByteFrames s.io.din with
    | none => raise .operand s
    | some (a, b) =>
      if a.length ≠ b.length then raise .fatalCmplen s
      else respond [[.int (countDifferences a b)]] s

end Sys2Proof.Machine
end

