-- ==== Sys2Proof/Machine/Correlator.lean ====
section
/-! DEFINITION. SYN's batch decode: the threshold detector, the two templates, the correlator, coarse and
fine sync, the range check (43_synchronizer.md section 3). -/

namespace Sys2Proof.Machine

open Sys2Proof

variable {K : Type} [Field K] [LinearOrder K]

/-- Step 1 (R177): +1 where the magnitude exceeds the threshold, strictly. -/
def thresholded (thr : K) (buf : List K) : List Int :=
  buf.map fun x => if thr < |x| then 1 else -1

/-- Step 2 (R178): the delimiter template with its hole. -/
def refDelimiter (hole : Option Nat) (sps : Nat) : List Int :=
  Config.delimPattern.flatMap fun bit =>
    (List.range sps).map fun o => if hole = some o then 0 else if bit then 1 else -1

/-- Step 4 (R183): the symbol template. -/
def refSymbol (sps : Nat) : List Int := List.replicate sps 1 ++ List.replicate sps (-1)

/-- The correlator primitive (R179), over any numbers (R189). -/
def corr {R : Type} [Add R] [Mul R] [Zero R] (r t : List R) (i : Nat) : R := (List.zipWith (· * ·) r (t.drop i)).sum

/-- The result of steps 1 to 3 (R177 to R182). -/
structure Coarse where
  tseq : List Int
  refd : List Int
  currentMax : Int
  argmax : Nat
  deriving DecidableEq, Repr

/-- Steps 1 to 3: thresholding, the template, the coarse scan over `[0, L - spd - spf)` (R177, R178,
R180). -/
def coarseSync (cfg : Over.Config K) (d : Over.DerivedRegs K) (buf : List K) : Coarse :=
  let tseq := thresholded cfg.sampleThreshold buf
  let refd := refDelimiter cfg.delimHole d.samplesPerSlot
  let offsets :=
    List.range (d.accumulationBufferSize - d.samplesPerDelimiter - d.samplesPerFrame)
  let best := scan cfg.coarseInit offsets (corr refd tseq)
  { tseq := tseq, refd := refd, currentMax := best.1, argmax := best.2 }

/-- `delimiterEnd` (R181). -/
def Coarse.delimiterEnd (c : Coarse) (d : Over.DerivedRegs K) : Nat := c.argmax + d.samplesPerDelimiter

/-- `lo` (R182). -/
def Coarse.lo (c : Coarse) (d : Over.DerivedRegs K) : Nat := c.delimiterEnd d - d.samplesPerSlot / 2

/-- `hi` (R182). -/
def Coarse.hi (c : Coarse) (d : Over.DerivedRegs K) : Nat := c.delimiterEnd d + d.samplesPerSlot / 2

/-- The range check fails (R185): the fine search would reach past the buffer. -/
def Coarse.outOfRange (c : Coarse) (d : Over.DerivedRegs K) : Bool :=
  decide (d.accumulationBufferSize < c.hi d + d.samplesPerFrame)

/-- Step 5a (R184): the correlation profile on `[0, L - sym]`. -/
def profile (d : Over.DerivedRegs K) (tseq : List Int) : List Nat :=
  (List.range (d.accumulationBufferSize - d.samplesPerSymbol + 1)).map fun o =>
    (corr (refSymbol d.samplesPerSlot) tseq o).natAbs

/-- `score(d)` (R186). Every index lies inside `PROF` once the range check has passed (R185). -/
def score (d : Over.DerivedRegs K) (n : Nat) (prof : List Nat) (delay : Nat) : Nat :=
  ((List.range n).map fun j => prof.getD (delay + j * d.samplesPerSymbol) 0).sum

/-- The result of step 5 (R184, R186). -/
structure Fine where
  prof : List Nat
  fineMax : Nat
  delay : Nat
  deriving DecidableEq, Repr

/-- Step 5: the profile and the fine scan over the window `lo..hi`, both ends included (R182, R184,
R186). -/
def fineSync (cfg : Over.Config K) (d : Over.DerivedRegs K) (n : Nat) (c : Coarse) : Fine :=
  let prof := profile d c.tseq
  let window := List.range' (c.lo d) (2 * (d.samplesPerSlot / 2) + 1)
  let best := scan cfg.fineInit window fun delay => (score d n prof delay : Int)
  { prof := prof, fineMax := best.1.toNat, delay := best.2 }

end Sys2Proof.Machine
end

