-- ==== Sys2Proof/Machine/Synchronizer.lean ====
section
/-! DEFINITION. SYN: RX.START, RX.STOP, the chunk stage with the transition to DONE, RX.CHUNK, PRB.LEVEL and
RX.PUSH (43_synchronizer.md sections 1 and 2). -/

namespace Sys2Proof.Machine

open Sys2Proof

variable {K : Type} [Field K] [LinearOrder K]

/-- RX.START (R171). A payload is a wrong number of frames (R63, R68; log 9). -/
def execRxStart (n : Nat) (s : Over.State K) : Over.Result K :=
  unlessHalted s <| unlessPayload s <|
    if n = 0 then raise .operand s
    else if !s.param.valid then raise .state s
    else if n < s.cfg.devMinIn then raise .cfgChunk s
    else
      respond []
        { s with
          rx :=
            { s.rx with
              buf := List.replicate s.param.d.accumulationBufferSize 0
              cursor := 0
              full := false
              stop := false
              chunk := n
              synValid := false
              state := .accumulating }
          slc := { s.slc with valid := false } }

/-- RX.STOP (R172). A payload is a wrong number of frames (R63, R68; log 9). -/
def execRxStop (s : Over.State K) : Over.Result K :=
  unlessHalted s <| unlessPayload s <| respond [] { s with rx := { s.rx with stop := true } }

/-- How a stage of a chunk command ends: the command goes on, or an exception ended it (R262). -/
inductive Over.Stage (K : Type) where
  | done (s : Over.State K)
  | raised (s : Over.State K)
  deriving DecidableEq, Repr

abbrev Stage := Over.Stage Sample

/-- What the decode leaves of steps 1 to 4: `rxFull`, `rxState`, the scratch spaces and the first three
`syn` registers (R174, R187, R269). -/
def afterCoarse (c : Coarse) (s : Over.State K) : Over.State K :=
  { s with
    rx :=
      { s.rx with
        full := true
        state := .done
        tseq := c.tseq
        refd := c.refd
        refs := refSymbol s.param.d.samplesPerSlot
        syn :=
          { s.rx.syn with
            argmax := c.argmax
            currentMax := c.currentMax
            delimiterEnd := c.delimiterEnd s.param.d } } }

/-- What the decode leaves of steps 5 to 7 (R186, R187, R216, R217), with the flags of R174. -/
def afterFine (f : Fine) (syms : List (Over.SymbolResult K)) (s : Over.State K) : Over.State K :=
  { s with
    rx :=
      { s.rx with
        prof := f.prof
        synValid := true
        syn := { s.rx.syn with delay := f.delay, fineMax := f.fineMax } }
    slc :=
      { onPowers := syms.map (·.on)
        offPowers := syms.map (·.off)
        valid := true
        mlStr := syms.map (·.ml)
        secStr := syms.map (·.sec) } }

/-- The event that carries the result of a decode (R217, R270). -/
def decodedEvent (slc : Over.SlotInfo K) : Over.Event K :=
  .decoded slc.mlStr slc.secStr slc.onPowers slc.offPowers

/-- `finish()` with the batch decode (R174, R188). -/
def finish (N : Numeric K) (s : Over.State K) : Over.Stage K :=
  let d := s.param.d
  let c := coarseSync s.cfg d s.rx.buf
  let s₁ := afterCoarse c s
  if c.outOfRange d then .raised (takeException .range s₁)
  else
    let f := fineSync s.cfg d s.param.p.symbolCount c
    let s₂ := afterFine f (demodulate N d s.param.p.symbolCount s.rx.buf f.delay) s₁
    .done (emit .stopReq (emit (decodedEvent s₂.slc) s₂))

/-- The sample counts stand as R92, R94 and R96 make them. -/
def Over.DerivedRegs.sound (d : Over.DerivedRegs K) (n : Nat) : Bool :=
  decide (2 ≤ d.samplesPerSlot) && decide (1 ≤ n)
    && decide (d.samplesPerSymbol = 2 * d.samplesPerSlot)
    && decide (d.samplesPerDelimiter = 6 * d.samplesPerSlot)
    && decide (d.samplesPerFrame = d.samplesPerSymbol * n)
    && decide (d.accumulationBufferSize = 2 * d.samplesPerDelimiter + 2 * d.samplesPerFrame)

/-- Every index the chunk stage and the decode compute lies inside its space (R41): the counts are
sound and RXBUF has `L` elements (R22). It fails in no state a run reaches (log 11). -/
def spacesSound (s : Over.State K) : Bool :=
  s.param.d.sound s.param.p.symbolCount
    && decide (s.rx.buf.length = s.param.d.accumulationBufferSize)

/-- `chunk_stage(c)` (R173). Where an index would leave its space the outcome is F_RANGE (R41, R269). -/
def chunkStage (N : Numeric K) (c : List K) (s : Over.State K) : Over.Stage K :=
  let lvl := rms c
  let s₁ := emit (.syncLevel lvl.dB (N.dbGe lvl s.param.d.thresholdHigh)) s
  match s.rx.state with
  | .accumulating =>
    if !spacesSound s then
      .raised (takeException .range { s₁ with rx := { s.rx with full := true, state := .done } })
    else if s.param.d.accumulationBufferSize < s.rx.cursor + c.length then finish N s₁
    else
      .done
        { s₁ with
          rx :=
            { s.rx with
              buf := writeSlice s.rx.buf s.rx.cursor c
              cursor := s.rx.cursor + c.length } }
  | .done => .done s₁
  | .none => .done s₁

/-- The end of a chunk command: its response, or the exception a stage has taken. -/
def endStage (frames : List (Over.OutFrame K)) : Over.Stage K → Over.Result K
  | .done s => respond frames s
  | .raised s => .next s

/-- RX.CHUNK over a numeric domain (R173). -/
def rxChunk (N : Numeric K) (s : Over.State K) : Over.Result K :=
  unlessHalted s <|
    match oneChunk s.io.din with
    | none => raise .operand s
    | some c =>
      if s.rx.state = .none then raise .state s
      else if c.length ≠ s.rx.chunk then raise .operand s
      else if s.rx.stop then respond [] s
      else endStage [] (chunkStage N c s)

/-- RX.CHUNK (R173). -/
def execRxChunk (s : State) : Result := rxChunk rationals s

/-- PRB.LEVEL (R175). -/
def execPrbLevel (sel : StreamSel) (s : Over.State K) : Over.Result K :=
  unlessHalted s <|
    match oneChunk s.io.din with
    | none => raise .operand s
    | some c =>
      let lvl := (rms c).dB
      let e :=
        match sel with
        | .raw => Over.Event.levelRaw lvl
        | .filt => Over.Event.levelFilt lvl
      respond [[.num (.level lvl)]] (emit e s)

/-- The first three stages of RX.PUSH (R176): raw probe, streaming filter, filtered probe. -/
def pushStages (c : List K) (s : Over.State K) : Over.State K :=
  let s₁ := emit (.levelRaw (rms c).dB) s
  let s₂ := { s₁ with sf := (sfProcess s.cfg s.sf c).1 }
  emit (.levelFilt (rms (sfProcess s.cfg s.sf c).2).dB) s₂

/-- RX.PUSH over a numeric domain (R176). -/
def rxPush (N : Numeric K) (s : Over.State K) : Over.Result K :=
  unlessHalted s <|
    match oneChunk s.io.din with
    | none => raise .operand s
    | some c =>
      if s.rx.state = .none then raise .state s
      else if c.length ≠ s.rx.chunk then raise .operand s
      else if s.rx.stop then respond [[]] s
      else
        let f := (sfProcess s.cfg s.sf c).2
        endStage [numItems f] (chunkStage N f (pushStages c s))

/-- RX.PUSH (R176). -/
def execRxPush (s : State) : Result := rxPush rationals s

end Sys2Proof.Machine
end

