-- ==== Sys2Proof/Machine/Flags.lean ====
section
/-! DEFINITION. The status flags and the read-only register map: STATUS (R30) and SYS.RDREG's numbers
(R31). There is no arithmetic condition code (10_state.md section 7). -/

namespace Sys2Proof.Machine

open Sys2Proof

/-- `txState` as a bit of STATUS (R30). -/
def TxState.code : TxState → Nat
  | .idle => 0
  | .running => 1

/-- `rxState` as a field of STATUS (R30). -/
def RxState.code : RxState → Nat
  | .none => 0
  | .accumulating => 1
  | .done => 2

/-- `sf.preset` as a field of STATUS (R30) and as the operand of SF.INIT (R62). -/
def presetCode : Preset → Nat
  | .order6 => 0
  | .order10 => 1
  | .order20 => 2

variable {K : Type}

/-- STATUS, RDREG 0x20 (R30). -/
def statusWord (s : Over.State K) : BitVec 32 :=
  BitVec.ofNat 32
    (bitNat s.param.valid + 2 ^ 1 * s.tx.state.code + 2 ^ 2 * bitNat s.tx.stop
      + 2 ^ 3 * s.rx.state.code + 2 ^ 5 * bitNat s.rx.full + 2 ^ 6 * bitNat s.rx.stop
      + 2 ^ 7 * bitNat s.slc.valid + 2 ^ 8 * presetCode s.sf.preset + 2 ^ 10 * bitNat s.halted
      + 2 ^ 11 * bitNat s.rx.synValid)

/-- A register that is read when `ok` holds and refused with E_STATE otherwise (column "needs" of R31). -/
def needs (ok : Bool) (v : Over.OutItem K) : Except Exc (Over.OutItem K) := if ok then .ok v else .error .state

/-- A NUM register. -/
def numReg (q : K) : Over.OutItem K := .num (.val q)

/-- A nat register, returned as INT. -/
def natReg (n : Nat) : Over.OutItem K := .int n

/-- The complete register map (R31); a number not listed is E_OPERAND. -/
def readReg (s : Over.State K) (reg : Nat) : Except Exc (Over.OutItem K) :=
  match reg with
  | 0x00 => needs s.param.valid (numReg s.param.p.sampleRate)
  | 0x01 => needs s.param.valid (numReg s.param.p.slotDuration)
  | 0x02 => needs s.param.valid (numReg s.param.p.bandLow)
  | 0x03 => needs s.param.valid (numReg s.param.p.bandHigh)
  | 0x04 => needs s.param.valid (numReg s.param.p.noiseFloorPower)
  | 0x05 => needs s.param.valid (numReg s.param.p.snr)
  | 0x06 => needs s.param.valid (natReg s.param.p.symbolCount)
  | 0x10 => needs s.param.valid (natReg s.param.d.samplesPerSlot)
  | 0x11 => needs s.param.valid (natReg s.param.d.samplesPerSymbol)
  | 0x12 => needs s.param.valid (natReg s.param.d.samplesPerDelimiter)
  | 0x13 => needs s.param.valid (natReg s.param.d.samplesPerFrame)
  | 0x14 => needs s.param.valid (numReg s.param.d.thresholdHigh)
  | 0x15 => needs s.param.valid (numReg s.param.d.thresholdLow)
  | 0x16 => needs s.param.valid (natReg s.param.d.accumulationBufferSize)
  | 0x20 => .ok (natReg (statusWord s).toNat)
  | 0x21 => .ok (natReg s.faultCode.toNat)
  | 0x22 => needs (decide (s.rx.state ≠ .none)) (natReg s.rx.cursor)
  | 0x23 => needs (decide (s.rx.state ≠ .none)) (natReg s.rx.chunk)
  | 0x24 => .ok (natReg s.tx.chunk)
  | 0x30 => needs s.rx.synValid (natReg s.rx.syn.argmax)
  | 0x31 => needs s.rx.synValid (.int s.rx.syn.currentMax)
  | 0x32 => needs s.rx.synValid (natReg s.rx.syn.delimiterEnd)
  | 0x33 => needs s.rx.synValid (natReg s.rx.syn.delay)
  | 0x34 => needs s.rx.synValid (natReg s.rx.syn.fineMax)
  | _ => .error .operand

end Sys2Proof.Machine
end

