-- ==== Sys2Proof/Machine/System.lean ====
section
/-! DEFINITION. The system commands SYS.RESET and SYS.RDREG (46_system.md). -/

namespace Sys2Proof.Machine

open Sys2Proof

variable {K : Type}

/-- Every register and space at its reset value (R250, R300). The configuration is not changed, events and
frames already given out stay, and the environment's side is no state of the block (log 14). -/
def afterReset [Zero K] (s : Over.State K) : Over.State K :=
  { State.poweredOn s.cfg with io := s.io, env := s.env }

/-- SYS.RESET (R250): it has no refusal, so it resets in every state, halted ones too, whatever stands on `din`
(log 9). -/
def execSysReset [Zero K] (s : Over.State K) : Over.Result K := respond [] (afterReset s)

/-- SYS.RDREG (R251). A payload is a wrong number of frames (R63, R68; log 9). -/
def execSysRdreg (reg : Nat) (s : Over.State K) : Over.Result K :=
  unlessHalted s <| unlessPayload s <|
    match readReg s reg with
    | .error x => raise x s
    | .ok v => respond [[v]] s

end Sys2Proof.Machine
end

