-- ==== Sys2Proof/Machine/Dispatch.lean ====
section
/-! DEFINITION. One arm for each command: exec calls its meaning. -/

namespace Sys2Proof.Machine

open Sys2Proof

def exec (i : Instr) (s : State) : Host.Outcome State Fault Refusal :=
  match i with
  | .sysReset => Sys2Proof.Machine.execSysReset s
  | .sysRdreg reg => Sys2Proof.Machine.execSysRdreg reg s
  | .paramLoad n => Sys2Proof.Machine.execParamLoad n s
  | .bcApplyS => Sys2Proof.Machine.execBcApplyS s
  | .bcApplyD => Sys2Proof.Machine.execBcApplyD s
  | .sfInit preset => Sys2Proof.Machine.execSfInit preset s
  | .sfProc => Sys2Proof.Machine.execSfProc s
  | .txStart n => Sys2Proof.Machine.execTxStart n s
  | .txStop => Sys2Proof.Machine.execTxStop s
  | .rxStart n => Sys2Proof.Machine.execRxStart n s
  | .rxStop => Sys2Proof.Machine.execRxStop s
  | .rxPush => Sys2Proof.Machine.execRxPush s
  | .rxChunk => Sys2Proof.Machine.execRxChunk s
  | .prbLevel sel => Sys2Proof.Machine.execPrbLevel sel s
  | .slcDecide => Sys2Proof.Machine.execSlcDecide s
  | .statOnavg => Sys2Proof.Machine.execStatOnavg s
  | .statOnmin => Sys2Proof.Machine.execStatOnmin s
  | .statOnmax => Sys2Proof.Machine.execStatOnmax s
  | .statOffavg => Sys2Proof.Machine.execStatOffavg s
  | .statOffmin => Sys2Proof.Machine.execStatOffmin s
  | .statOffmax => Sys2Proof.Machine.execStatOffmax s
  | .statTotal => Sys2Proof.Machine.execStatTotal s
  | .cmpDiff => Sys2Proof.Machine.execCmpDiff s

end Sys2Proof.Machine
end

