-- ==== Sys2Proof/Machine/Step.lean ====
section
/-! DEFINITION. One step: the next turn of the environment is taken (R9, R277, log 5). -/

namespace Sys2Proof.Machine

open Sys2Proof

variable {K : Type} [Field K] [LinearOrder K] [FloorRing K] [Inhabited K]

/-- One atomic step (R9) of the machine whose commands are run by `run`. A command word is decoded and run on its payload; a word that selects no row is
refused with its status code (R67, R261); a turn of TXLOOP makes one TX.REP step where it is enabled
(R150). With no turn to come no agent moves, and the block keeps its state. -/
def stepWith (run : Instr → Over.State K → Over.Result K) (s : Over.State K) : Over.Result K :=
  match s.env.agenda with
  | [] => .next s
  | .rep sinkReady :: rest => .next (txRep sinkReady (popTurn rest s))
  | .cmd w din :: rest =>
    match decode w with
    | .ok i => run i (present din rest s)
    | .error _ => refuseIllegal (present din rest s)

/-- One step of the machine at hand (R9). -/
def step (s : State) : Host.Outcome State Fault Refusal := stepWith exec s

/-- `s` with the word presented as the HOST's next command, its payload being what stands on `din`
(log 5). -/
def State.withFetchWord (s : State) (nbits w : Nat) : State :=
  { s with env := { s.env with agenda := .cmd (tableWord nbits w) s.io.din :: s.env.agenda } }

end Sys2Proof.Machine
end

