-- ==== Sys2Proof/Machine/Reference.lean ====
section
/-! DEFINITION. The block over any numeric domain (R3): the commands and the step with NUM as an argument. Over
`rationals` it is the machine at hand; over `reals` (Safety.lean) it is the reference instance. -/

namespace Sys2Proof.Machine

open Sys2Proof

variable {K : Type} [Field K] [LinearOrder K] [FloorRing K] [Inhabited K]

/-- The meaning of a command over a numeric domain (R3, R64). -/
def execOver (N : Numeric K) (i : Instr) (s : Over.State K) : Over.Result K :=
  match i with
  | .sysReset => execSysReset s
  | .sysRdreg reg => execSysRdreg reg s
  | .paramLoad n => execParamLoad n s
  | .bcApplyS => execBcApplyS s
  | .bcApplyD => execBcApplyD s
  | .sfInit preset => execSfInit preset s
  | .sfProc => execSfProc s
  | .txStart n => execTxStart n s
  | .txStop => execTxStop s
  | .rxStart n => execRxStart n s
  | .rxStop => execRxStop s
  | .rxPush => rxPush N s
  | .rxChunk => rxChunk N s
  | .prbLevel sel => execPrbLevel sel s
  | .slcDecide => slcDecide N s
  | .statOnavg => statOnavg N s
  | .statOnmin => execStatOnmin s
  | .statOnmax => execStatOnmax s
  | .statOffavg => statOffavg N s
  | .statOffmin => execStatOffmin s
  | .statOffmax => execStatOffmax s
  | .statTotal => statTotal N s
  | .cmpDiff => execCmpDiff s

/-- One atomic step over a numeric domain (R3, R9). -/
def stepOver (N : Numeric K) (s : Over.State K) : Over.Result K := stepWith (execOver N) s

end Sys2Proof.Machine
end

