-- ==== Sys2Proof/Safety.lean ====
section
/-! DEFINITION. What counts as a sound state, how amplitudes and levels read as real numbers (R3 to R5), and
the few words the statements are written in. -/

namespace Sys2Proof.Machine

open Sys2Proof

/-! ## The invariant -/

/-- A valid Parameters instance: the derived registers are those of R91 to R94 and the inputs pass R96 and
R97. -/
abbrev Over.State.ParamsOk (s : Over.State Sample) : Prop :=
  s.param.valid = true →
    s.param.d = deriveFrom s.param.p ∧ paramsValid s.param.p s.param.d = true

/-- A session: `rxFull` iff DONE (R23); a session needs Parameters, its buffer has `L` elements, the cursor
is at most `L` (R22, R23), its chunk size is at least 1 (R171). -/
abbrev Over.State.SessionOk (s : Over.State Sample) : Prop :=
  (s.rx.full = true ↔ s.rx.state = .done) ∧
  (s.rx.state ≠ .none →
    s.param.valid = true ∧ s.rx.buf.length = s.param.d.accumulationBufferSize ∧
    s.rx.cursor ≤ s.param.d.accumulationBufferSize ∧ 1 ≤ s.rx.chunk)

/-- Decode results: the two result flags go together and need DONE (R174, R26, R28); the stores have one
entry per symbol, the strings hold the characters of R8, and `onPower >= offPower >= 0` (R215). -/
abbrev Over.State.ResultsOk (s : Over.State Sample) : Prop :=
  s.rx.synValid = s.slc.valid ∧
  (s.slc.valid = true →
    s.rx.state = .done ∧
    s.slc.onPowers.length = s.param.p.symbolCount ∧ s.slc.offPowers.length = s.param.p.symbolCount ∧
    s.slc.mlStr.length = s.param.p.symbolCount ∧ s.slc.secStr.length = s.param.p.symbolCount ∧
    (∀ b ∈ s.slc.mlStr, b = 0x30 ∨ b = 0x31) ∧
    (∀ b ∈ s.slc.secStr, b = 0x30 ∨ b = 0x31 ∨ b = 0x32) ∧
    (∀ p ∈ s.slc.onPowers.zip s.slc.offPowers, 0 ≤ p.2.ms ∧ p.2.ms ≤ p.1.ms))

/-- A running modulator has Parameters and one bit per symbol (R17, R140). -/
abbrev Over.State.TransmitOk (s : Over.State Sample) : Prop :=
  s.tx.state = .running → s.param.valid = true ∧ s.tx.bits.length = s.param.p.symbolCount

/-- Sections beyond the preset's keep 0 (R16). -/
abbrev Over.State.SectionsOk (s : Over.State Sample) : Prop :=
  ∀ k : Fin 10, s.sf.preset.sections ≤ k.val → s.sf.st[k] = SecState.cleared

/-- `halted` goes with the fault code of E_FATAL_CMPLEN, and no other codes are recorded (R29, R268). -/
abbrev Over.State.FaultsOk (s : Over.State Sample) : Prop :=
  (s.halted = true → s.faultCode = 0x30) ∧
  (s.faultCode = 0 ∨ s.faultCode = 0x20 ∨ s.faultCode = 0x30)

/-- The invariant of the block. -/
structure Over.State.Inv (s : Over.State Sample) : Prop where
  params : s.ParamsOk
  session : s.SessionOk
  results : s.ResultsOk
  transmit : s.TransmitOk
  sections : s.SectionsOk
  faults : s.FaultsOk

/-- The bounds of the decode result registers (R97, R181, R186). -/
abbrev Over.State.SynBounded (s : Over.State Sample) : Prop :=
  s.rx.synValid = true →
    let d := s.param.d
    s.rx.syn.argmax < d.samplesPerDelimiter + d.samplesPerFrame ∧
    s.rx.syn.delimiterEnd = s.rx.syn.argmax + d.samplesPerDelimiter ∧
    |s.rx.syn.currentMax| ≤ d.samplesPerDelimiter ∧
    s.rx.syn.delay + d.samplesPerFrame ≤ d.accumulationBufferSize ∧
    s.rx.syn.fineMax ≤ s.param.p.symbolCount * d.samplesPerSymbol

/-! ## Amplitudes and levels as real numbers -/

/-- `dB(r)` on the reals, `dB(0) = -inf` (R4). -/
noncomputable def dBReal (r : ℝ) : WithBot ℝ :=
  if r = 0 then ⊥ else ((20 * Real.logb 10 r : ℝ) : WithBot ℝ)

/-- The root mean square of a sequence on the reals (R5). -/
noncomputable def rmsReal (xs : List Sample) : ℝ :=
  Real.sqrt ((xs.map fun x : Sample => (x : ℝ) ^ 2).sum / xs.length)

/-- The real number an amplitude is. -/
noncomputable def Over.Amp.real (a : Over.Amp Sample) : ℝ := Real.sqrt (a.ms : ℝ)

/-- The sum of the roots of rationals, on the reals. -/
noncomputable def rootSum (rs : List Sample) : ℝ := (rs.map fun q : Sample => Real.sqrt (q : ℝ)).sum

/-- The extended real number a level is. -/
noncomputable def Over.Level.real : Over.Level Sample → WithBot ℝ
  | .negInf => ⊥
  | .ofMs ms => dBReal (Real.sqrt (ms : ℝ))
  | .ofRoots rs => dBReal (rootSum rs)

/-- The mean of amplitudes on the reals (R230). -/
noncomputable def meanReal (as : List Amp) : ℝ := (as.map Over.Amp.real).sum / as.length

/-! ## The reference instance of NUM -/

/-- The level over the reals as the extended real number it is (R3, R4). -/
noncomputable def Over.Level.value : Over.Level ℝ → WithBot ℝ
  | .negInf => ⊥
  | .ofMs ms => dBReal (Real.sqrt ms)
  | .ofRoots rs => dBReal (rs.map Real.sqrt).sum

open Classical in
/-- The reference instance of NUM (R3): the real numbers, whose levels are those of R4. -/
noncomputable def reals : Numeric ℝ where
  dbGe a t := decide ((t : WithBot ℝ) ≤ dBReal (Real.sqrt a.ms))
  dbLe a t := decide (dBReal (Real.sqrt a.ms) ≤ (t : WithBot ℝ))
  root q := if h : ∃ r : ℚ, (r : ℝ) = q then (ratRoot h.choose).map (fun r : ℚ => (r : ℝ)) else none

/-! ## Words of the statements -/

section
variable {K : Type}


/-- A frame of NUM items (R63). -/
def nums (xs : List K) : Over.Frame K := xs.map Over.Item.num

/-- A frame of BYTE items (R63). -/
def bytes (bs : List Byte) : Over.Frame K := bs.map Over.Item.byte

/-- `s` with a payload on `din`. -/
def Over.State.withDin (s : Over.State K) (din : List (Over.Frame K)) : Over.State K :=
  { s with io := { s.io with din := din } }

/-- `s` after a command has answered with a status byte and response frames (R260, R63). -/
def Over.State.answered (s : Over.State K) (code : Byte) (frames : List (Over.OutFrame K)) : Over.State K :=
  { s with io := { s.io with status := code, dout := frames } }

/-- `s` after events have been emitted, in order (R270). -/
def Over.State.emitted (s : Over.State K) (es : List (Over.Event K)) : Over.State K :=
  { s with io := { s.io with evt := s.io.evt ++ es } }

end

/-- The commands whose payload is none (R63). -/
def takesNoPayload : Instr → Bool
  | .sysReset | .sysRdreg _ | .sfInit _ | .txStop | .rxStart _ | .rxStop | .statOnavg | .statOnmin
  | .statOnmax | .statOffavg | .statOffmin | .statOffmax | .statTotal => true
  | .paramLoad _ | .bcApplyS | .bcApplyD | .sfProc | .txStart _ | .rxPush | .rxChunk | .prbLevel _
  | .slcDecide | .cmpDiff => false

/-- The commands of the capture context (R47). -/
def captureCommand : Instr → Bool
  | .rxStart _ | .rxStop | .rxPush | .rxChunk | .sfInit _ | .sfProc => true
  | .sysReset | .sysRdreg _ | .paramLoad _ | .bcApplyS | .bcApplyD | .txStart _ | .txStop | .prbLevel _
  | .slcDecide | .statOnavg | .statOnmin | .statOnmax | .statOffavg | .statOffmin | .statOffmax
  | .statTotal | .cmpDiff => false

end Sys2Proof.Machine
end

