-- ==== Sys2Proof/Certificates/Slice0/Obligations.lean ====
section
/-! DEFINITION. The statements for the provers: what the rules of spec/ say of the machine. -/

open Sys2Proof Sys2Proof.Machine

/-! ## Encoding (30_encoding.md) -/

/-- R60 to R62: the word of a well-formed command decodes to it, with every operand at every value its field
admits. -/
def Obligations.DecodeInvertsEncode : Prop :=
  ∀ i : Instr, i.wf = true → decode (encode i) = .ok i

/-- R60 to R62: a word that decodes is the word of the command it decodes to, and that command is well
formed. -/
def Obligations.DecodedCommandReencodes : Prop :=
  ∀ (w : Word) (i : Instr), decode w = .ok i → i.wf = true ∧ encode i = w

/-- R64: the map has 23 rows, no word selects two of them, a word that decodes selects the row of its
command, and a word that does not decode selects none. -/
def Obligations.DecodeFollowsOpcodeTable : Prop :=
  opcodeTable.length = 23 ∧
  (∀ (w : Word) (r r' : OpRow), r ∈ opcodeTable → r' ∈ opcodeTable →
    r.selects w = true → r'.selects w = true → r = r') ∧
  (∀ (w : Word) (i : Instr), decode w = .ok i →
    ∃ r ∈ opcodeTable, r.selects w = true ∧ r.mnemonic = i.mnemonic) ∧
  (∀ (w : Word) (e : DecodeError), decode w = .error e → ∀ r ∈ opcodeTable, r.selects w = false)

/-- R67: a word that selects no row is refused with E_ILLEGAL_CMD and nothing else happens; the unassigned
operation codes, and a word of format Z, R, P or B with a bit set that must be 0, select no row. -/
def Obligations.ReservedWordIsRefused : Prop :=
  (∀ (s : State) (w : Word) (din : List Frame) (rest : List Turn),
    s.env.agenda = .cmd w din :: rest → s.halted = false →
    (∀ r ∈ opcodeTable, r.selects w = false) →
    step s = .next ((present din rest s).answered 0x01 [])) ∧
  (∀ w : Word,
    (opField w = 0x00 ∨ (0x03 ≤ opField w ∧ opField w ≤ 0x0F) ∨
      (0x11 ≤ opField w ∧ opField w ≤ 0x1F) ∨ (0x24 ≤ opField w ∧ opField w ≤ 0x2F) ∨
      (0x32 ≤ opField w ∧ opField w ≤ 0x3F) ∨ (0x46 ≤ opField w ∧ opField w ≤ 0x4F) ∨
      opField w = 0x57 ∨ 0x59 ≤ opField w) →
    ∀ r ∈ opcodeTable, r.selects w = false) ∧
  (∀ w : Word,
    (opField w ∉ [0x02, 0x10, 0x22, 0x30, 0x40, 0x44] ∧ immField w ≠ 0) ∨
      (opField w = 0x02 ∧ 2 ^ 8 ≤ immField w) ∨ (opField w = 0x22 ∧ 2 ^ 2 ≤ immField w) ∨
      (opField w = 0x44 ∧ 2 ≤ immField w) →
    ∀ r ∈ opcodeTable, r.selects w = false)

/-- R70: the encoding examples of the spec, legal, illegal, and legal with a bad operand. -/
def Obligations.EncodingExamplesDecode : Prop :=
  decode 0x01000000 = .ok .sysReset ∧ decode 0x02000031 = .ok (.sysRdreg 0x31) ∧
  decode 0x1000000C = .ok (.paramLoad 12) ∧ decode 0x21000000 = .ok .bcApplyD ∧
  decode 0x22000001 = .ok (.sfInit 1) ∧ decode 0x40000010 = .ok (.rxStart 16) ∧
  decode 0x44000001 = .ok (.prbLevel .filt) ∧ decode 0x56000000 = .ok .statTotal ∧
  decode 0x58000000 = .ok .cmpDiff ∧
  decode 0x00000000 = .error .unassignedOp ∧ decode 0x20000001 = .error .reservedBitsSet ∧
  decode 0x22000004 = .error .reservedBitsSet ∧
  decode 0x22000003 = .ok (.sfInit 3) ∧ decode 0x02000007 = .ok (.sysRdreg 0x07) ∧
  (∀ s : State, s.halted = false →
    exec (.sfInit 3) s = .next (s.answered 0x02 []) ∧
    exec (.sysRdreg 0x07) s = .next (s.answered 0x02 []))

/-! ## The step (00_scope.md R9, 60_exceptions.md) -/

/-- R9: when the HOST's turn comes and its word decodes, the step is the command run on its payload; so is
the step after a word has been placed by withFetchWord (the model's way of presenting one, log 5). -/
def Obligations.StepRunsDecodedCommand : Prop :=
  (∀ (s : State) (w : Word) (din : List Frame) (rest : List Turn) (i : Instr),
    s.env.agenda = .cmd w din :: rest → decode w = .ok i → step s = exec i (present din rest s)) ∧
  (∀ (s : State) (w : Nat) (i : Instr),
    decode (tableWord 32 w) = .ok i → step (s.withFetchWord 32 w) = exec i s)

/-- A turn of TXLOOP is a TX.REP step; with no turn to come the block keeps its state (the model's choice,
log 5). -/
def Obligations.StepTakesTxloopTurn : Prop :=
  (∀ (s : State) (ready : Bool) (rest : List Turn),
    s.env.agenda = .rep ready :: rest → step s = .next (txRep ready (popTurn rest s))) ∧
  (∀ s : State, s.env.agenda = [] → step s = .next s)

/-- R261: once halted every word but SYS.RESET's, illegal words among them, is answered with E_HALTED and
nothing else happens, and TX.REP is not enabled. -/
def Obligations.HaltedBlockRefuses : Prop :=
  (∀ (s : State) (w : Word) (din : List Frame) (rest : List Turn),
    s.halted = true → s.env.agenda = .cmd w din :: rest → w ≠ 0x01000000 →
    step s = .next ((present din rest s).answered 0x3F [])) ∧
  (∀ (s : State) (ready : Bool), s.halted = true → txRep ready s = s)

/-- R277 with R67 and R68: every word with every payload, and every turn, is defined: a step always answers
a next state. So does each command (`exec`) in every state, and the command keeps the configuration, the
environment's side, the frames of the sink and the payload (R51, R277); that SYS.RESET is among the commands
that keep them is the model's choice (log 14). Of a step that is no command only the answer is said here. -/
def Obligations.EveryStepAnswers : Prop :=
  (∀ s : State, ∃ t : State, step s = .next t) ∧
  (∀ (i : Instr) (s : State), ∃ t : State, exec i s = .next t ∧
    t.cfg = s.cfg ∧ t.env = s.env ∧ t.io.sink = s.io.sink ∧ t.io.din = s.io.din)

/-! ## PARAM (40_parameters.md) -/

/-- R90: PARAM.LOAD, its four refusals in order and its effect. -/
def Obligations.ParamLoadFollowsItsRule : Prop :=
  ∀ (s : State) (n : Nat),
    (s.halted = true → exec (.paramLoad n) s = .next (s.answered 0x3F [])) ∧
    (s.halted = false → (∀ xs : List Sample, xs.length = 6 → s.io.din ≠ [nums xs]) →
      exec (.paramLoad n) s = .next (s.answered 0x02 [])) ∧
    (∀ sampleRate slotDuration bandLow bandHigh noiseFloorPower snr : Sample,
      s.halted = false →
      s.io.din = [nums [sampleRate, slotDuration, bandLow, bandHigh, noiseFloorPower, snr]] →
      let sps := ⌊slotDuration * sampleRate + 1 / 2⌋.toNat
      let L := 2 * (6 * sps) + 2 * (2 * sps * n)
      let ok := 0 < sampleRate ∧ 0 < slotDuration ∧ 1 ≤ n ∧ 2 ≤ sps ∧ L ≤ 2 ^ 31 - 1
      (s.param.valid = true → exec (.paramLoad n) s = .next (s.answered 0x03 [])) ∧
      (s.param.valid = false → ¬ ok → exec (.paramLoad n) s = .next (s.answered 0x13 [])) ∧
      (s.param.valid = false → ok →
        exec (.paramLoad n) s =
          .next (Over.State.answered
            { s with
              param :=
                { valid := true
                  p := ⟨sampleRate, slotDuration, bandLow, bandHigh, noiseFloorPower, snr, n⟩
                  d := ⟨sps, 2 * sps, 6 * sps, 2 * sps * n, noiseFloorPower + 11,
                        noiseFloorPower + 11, L⟩ } }
            0 [])))

/-- R6: rounding to a sample count is `floor(q + 1/2)`; R95: the three further counts in exact rational
arithmetic; R96: the measurement window is never empty. -/
def Obligations.SampleCountsAreExact : Prop :=
  (∀ q : Rat, 0 ≤ q → (roundHalfUp q : ℤ) = ⌊q + 1 / 2⌋) ∧
  (∀ sps : Nat, (skipBefore sps : ℤ) = ⌈(3 * sps / 20 : ℚ)⌉ ∧
    (skipAfter sps : ℤ) = ⌊(sps / 20 : ℚ)⌋ ∧ (winLen sps : ℤ) = ⌊(sps / 10 : ℚ)⌋) ∧
  (∀ sps : Nat, 2 ≤ sps → skipBefore sps + skipAfter sps + 1 ≤ sps)

/-- R98: while `paramValid` holds, the relations between the sample counts hold and no step changes a
register of PARAM; only SYS.RESET ends the instance. -/
def Obligations.ParametersNeverMutate : Prop :=
  (∀ s : State, s.ParamsOk → s.param.valid = true →
    s.param.d.samplesPerSymbol = 2 * s.param.d.samplesPerSlot ∧
    s.param.d.samplesPerFrame = s.param.d.samplesPerSymbol * s.param.p.symbolCount ∧
    s.param.d.accumulationBufferSize =
      2 * s.param.d.samplesPerDelimiter + 2 * s.param.d.samplesPerFrame ∧
    s.param.d.thresholdHigh = s.param.d.thresholdLow) ∧
  (∀ s t : State, step s = .next t → s.param.valid = true →
    t.param = s.param ∨
    (t.param.valid = false ∧ ∃ din rest, s.env.agenda = .cmd 0x01000000 din :: rest))

/-! ## FB (41_filterbank.md) -/

/-- R110, R111: one section over a buffer. With the histories written before the buffers (`x2, x1, x[0], ...`
and `y2, y1, y[0], ...`), every output is the difference equation of its neighbours, and the section ends
with the last two inputs and outputs. -/
def Obligations.BiquadFollowsDifferenceEquation : Prop :=
  ∀ (c : Biquad) (st : SecState) (buf : List Sample),
    let out := (cascadeRun [c] [st] buf).2
    let xs := st.x2 :: st.x1 :: buf
    let ys := st.y2 :: st.y1 :: out
    let n := buf.length
    out.length = n ∧
    (∀ k, k < n →
      ys.getD (k + 2) 0 =
        c.b0 * xs.getD (k + 2) 0 + c.b1 * xs.getD (k + 1) 0 + c.b2 * xs.getD k 0
          - c.a1 * ys.getD (k + 1) 0 - c.a2 * ys.getD k 0) ∧
    (cascadeRun [c] [st] buf).1 =
      [⟨xs.getD (n + 1) 0, xs.getD n 0, ys.getD (n + 1) 0, ys.getD n 0⟩]

/-- R112: no section passes the buffer on; otherwise sample by sample through the cascade gives the same
values and the same section states as the first section over the whole buffer and the other sections over
its result. -/
def Obligations.CascadeNestingsAgree : Prop :=
  (∀ buf : List Sample, cascadeRun [] [] buf = ([], buf)) ∧
  ∀ (c : Biquad) (cs : List Biquad) (st : SecState) (sts : List SecState) (buf : List Sample),
    let first := cascadeRun [c] [st] buf
    let others := cascadeRun cs sts first.2
    cascadeRun (c :: cs) (st :: sts) buf = (first.1 ++ others.1, others.2)

/-- R116: the batch cascade has no memory between calls (BC.APPLY.S and BC.APPLY.D, each by itself), is not
idempotent, answers silence with silence, is linear, and is causal. -/
def Obligations.BatchCascadeLaws : Prop :=
  (∀ (s s' : State) (xs : List Sample) (i : Instr), (i = .bcApplyS ∨ i = .bcApplyD) →
    s.cfg = s'.cfg → s.halted = false → s'.halted = false →
    ∃ t t' : State, exec i (s.withDin [nums xs]) = .next t ∧
      exec i (s'.withDin [nums xs]) = .next t' ∧ t.io.dout = t'.io.dout) ∧
  (∃ (cfg : Config) (xs : List Sample),
    (bcApply cfg (bcApply cfg xs).2).2 ≠ (bcApply cfg xs).2) ∧
  (∀ (cfg : Config) (n : Nat), (bcApply cfg (List.replicate n 0)).2 = List.replicate n 0) ∧
  (∀ (cfg : Config) (a b : Sample) (xs ys : List Sample), xs.length = ys.length →
    (bcApply cfg (List.zipWith (fun x y => a * x + b * y) xs ys)).2 =
      List.zipWith (fun x y => a * x + b * y) (bcApply cfg xs).2 (bcApply cfg ys).2) ∧
  (∀ (cfg : Config) (xs : List Sample) (k : Nat),
    (bcApply cfg (xs.take k)).2 = (bcApply cfg xs).2.take k)

/-- R114, R115: BC.APPLY.S and BC.APPLY.D, their two refusals and their effect: the frame through the eight
sections from cleared states, the sections' last states kept in `bc.st`, nothing else changed. -/
def Obligations.BatchApplyFollowsItsRule : Prop :=
  ∀ (i : Instr) (s : State), (i = .bcApplyS ∨ i = .bcApplyD) →
    (s.halted = true → exec i s = .next (s.answered 0x3F [])) ∧
    (s.halted = false → (∀ xs, s.io.din ≠ [nums xs]) → exec i s = .next (s.answered 0x02 [])) ∧
    (∀ xs, s.halted = false → s.io.din = [nums xs] →
      ∃ (bc : Vector SecState 8) (ys : List Sample),
        exec i s = .next (Over.State.answered { s with bcSt := bc } 0 [numItems ys]) ∧
        ys.length = xs.length ∧
        (bc.toList, ys) =
          cascadeRun s.cfg.bcCoef.toList (List.replicate 8 ⟨0, 0, 0, 0⟩) xs)

/-- R118: SF.PROC, its two refusals and its effect: the frame through the `K` sections of the preset from
their live states; the later sections and everything else keep their values. -/
def Obligations.StreamProcessFollowsItsRule : Prop :=
  ∀ s : State,
    (s.halted = true → exec .sfProc s = .next (s.answered 0x3F [])) ∧
    (s.halted = false → (∀ xs, s.io.din ≠ [nums xs]) →
      exec .sfProc s = .next (s.answered 0x02 [])) ∧
    (∀ xs, s.halted = false → s.io.din = [nums xs] →
      let K := s.sf.preset.sections
      ∃ (st : Vector SecState 10) (ys : List Sample),
        exec .sfProc s =
          .next (Over.State.answered { s with sf := { s.sf with st := st } } 0 [numItems ys]) ∧
        ys.length = xs.length ∧
        (st.toList.take K, ys) =
          cascadeRun (s.cfg.sfCoef s.sf.preset) (s.sf.st.toList.take K) xs ∧
        (s.cfg.sfCoef s.sf.preset).length = K ∧
        st.toList.drop K = s.sf.st.toList.drop K)

/-- R119: filtering `A` and then `B` gives the output and the filter state of filtering `A ‖ B` in one
call. -/
def Obligations.StreamFilterContinuity : Prop :=
  ∀ (s : State) (A B : List Sample), s.halted = false →
    ∃ (f₁ f₂ : StreamFilter) (ya yb : List Sample),
      exec .sfProc (s.withDin [nums A]) =
        .next (Over.State.answered { s.withDin [nums A] with sf := f₁ } 0 [numItems ya]) ∧
      exec .sfProc (Over.State.withDin { s with sf := f₁ } [nums B]) =
        .next (Over.State.answered (Over.State.withDin { s with sf := f₂ } [nums B]) 0 [numItems yb]) ∧
      exec .sfProc (s.withDin [nums (A ++ B)]) =
        .next (Over.State.answered { s.withDin [nums (A ++ B)] with sf := f₂ } 0 [numItems (ya ++ yb)])

/-- R117: SF.INIT selects a preset and clears all ten sections; preset 3 is refused with E_OPERAND; after
reset the instance is as after SF.INIT ORDER6. -/
def Obligations.StreamInitFollowsItsRule : Prop :=
  (∀ (s : State) (preset : Nat),
    (s.halted = true → exec (.sfInit preset) s = .next (s.answered 0x3F [])) ∧
    (s.halted = false → preset = 3 → exec (.sfInit preset) s = .next (s.answered 0x02 [])) ∧
    (∀ p : Preset, s.halted = false → s.io.din = [] →
      (preset = 0 ∧ p = .order6 ∨ preset = 1 ∧ p = .order10 ∨ preset = 2 ∧ p = .order20) →
      exec (.sfInit preset) s =
        .next (Over.State.answered
          { s with sf := { preset := p, st := Vector.replicate 10 ⟨0, 0, 0, 0⟩ } } 0 []))) ∧
  State.reset.sf = { preset := .order6, st := Vector.replicate 10 ⟨0, 0, 0, 0⟩ }

/-! ## MOD (42_modulator.md) -/

/-- R140: TX.START, its refusals in order and its effect. -/
def Obligations.TransmitStartFollowsItsRule : Prop :=
  ∀ (s : State) (n : Nat),
    (s.halted = true → exec (.txStart n) s = .next (s.answered 0x3F [])) ∧
    (s.halted = false → (∀ data, s.io.din ≠ [bytes data]) →
      exec (.txStart n) s = .next (s.answered 0x02 [])) ∧
    (∀ data : List Byte, s.halted = false → s.io.din = [bytes data] →
      let blocked := s.param.valid = false ∨ s.tx.state = .running
      let binary := ∀ b ∈ data, b = 0x30 ∨ b = 0x31
      (blocked → exec (.txStart n) s = .next (s.answered 0x03 [])) ∧
      (¬ blocked → n < s.cfg.devMinOut → exec (.txStart n) s = .next (s.answered 0x10 [])) ∧
      (¬ blocked → s.cfg.devMinOut ≤ n → data.length ≠ s.param.p.symbolCount →
        exec (.txStart n) s = .next (s.answered 0x11 [])) ∧
      (¬ blocked → s.cfg.devMinOut ≤ n → data.length = s.param.p.symbolCount → ¬ binary →
        exec (.txStart n) s = .next (s.answered 0x12 [])) ∧
      (¬ blocked → s.cfg.devMinOut ≤ n → data.length = s.param.p.symbolCount → binary →
        exec (.txStart n) s =
          .next (Over.State.answered
            { s with
              tx := ⟨data.map (fun b => decide (b = 0x31)), false, n, .running, s.tx.buf⟩ } 0 [])))

/-- R141, R172: TX.STOP and RX.STOP raise their flag in every state that is not halted and change nothing
else. R63, R68: a command whose payload is none, other than SYS.RESET (R250: no refusal), refuses a payload with
E_OPERAND, and changes nothing; that R68 reaches TX.STOP, RX.STOP and STAT.*, whose own rules list no such
refusal, is the model's reading (log 9). -/
def Obligations.StopCommandsRaiseFlags : Prop :=
  ∀ s : State,
    (s.halted = true → exec .txStop s = .next (s.answered 0x3F []) ∧
      exec .rxStop s = .next (s.answered 0x3F [])) ∧
    (s.halted = false → s.io.din = [] →
      exec .txStop s = .next (Over.State.answered { s with tx := { s.tx with stop := true } } 0 []) ∧
      exec .rxStop s = .next (Over.State.answered { s with rx := { s.rx with stop := true } } 0 [])) ∧
    (∀ i : Instr, takesNoPayload i = true → i ≠ .sysReset → s.io.din ≠ [] → s.halted = false →
      exec i s = .next (s.answered 0x02 []))

/-- R142: the slot sequence: the six delimiter slots, then (on, off) for a 1 and (off, on) for a 0; `6 + 2N`
slots of which `3 + N` are on. -/
def Obligations.SlotSequenceEncodesBits : Prop :=
  ∀ bits : List Bool,
    (slots bits).length = 6 + 2 * bits.length ∧
    (slots bits).take 6 = [true, true, true, false, false, false] ∧
    (∀ (i : Nat) (b : Bool), bits[i]? = some b →
      (slots bits)[6 + 2 * i]? = some b ∧ (slots bits)[6 + 2 * i + 1]? = some (!b)) ∧
    (slots bits).count true = 3 + bits.length

/-- R143, R144: the buffer has `sps` elements per slot, the elements of an off slot are 0, and the elements of
the on slots, slot by slot and sample by sample, are the scaled draws in order. R145: step 3 zeroes the two
edges and changes nothing between them. -/
def Obligations.NoiseFillsOnSlots : Prop :=
  (∀ (gain : Sample) (sps : Nat) (ss : List Bool) (np : NoisePort),
    let filled := fillSlots gain sps ss np
    filled.1.length = ss.length * sps ∧
    (∀ j k, ss[j]? = some false → k < sps → filled.1[j * sps + k]? = some 0) ∧
    ((List.range ss.length).flatMap fun j =>
      if ss[j]? = some true then slice filled.1 (j * sps) ((j + 1) * sps) else []) =
      (noiseBurst gain (ss.count true * sps) np).1 ∧
    filled.2 = (noiseBurst gain (ss.count true * sps) np).2) ∧
  (∀ (gain : Sample) (draws rest : List Sample) (k : Nat),
    noiseBurst gain draws.length ⟨draws ++ rest, k⟩ =
      (draws.map (gain * ·), ⟨rest, k + draws.length⟩)) ∧
  (∀ (w : Nat) (buf : List Sample), (zeroEdges w buf).length = buf.length ∧
    ∀ k, k < buf.length →
      (zeroEdges w buf)[k]? =
        if k < w ∨ buf.length - w ≤ k then some 0 else buf[k]?)

/-- R147: the two passes give the values of one pass, from cleared state, through sixteen sections, the eight
of `BC_COEF` listed twice. -/
def Obligations.TwoPassesAreSixteenSections : Prop :=
  ∀ (cfg : Config) (buf : List Sample),
    (bandpassTwice cfg buf).2 =
      (cascadeRun (cfg.bcCoef.toList ++ cfg.bcCoef.toList)
        (List.replicate 16 SecState.cleared) buf).2

/-- R148: PCM conversion. The fraction is dropped toward zero; below 2^31 the result is the integer wrapped
to `PCM_BITS` bits; at or above it the result is some value of the PCM range. The frame has the buffer's length,
and its element `k` is the conversion of element `k` of the buffer, the conversions outside 2^31 before it
numbering the free value (log 8). -/
def Obligations.PcmWrapsNotClamps : Prop :=
  (∀ (cfg : Config) (buf : List Sample) (escapes : Nat),
    let outside := fun v : Sample => decide (2 ^ 31 ≤ |truncate (v * cfg.pcmScale)|)
    let frame := pcmFrame cfg buf escapes
    frame.1.length = buf.length ∧
    (∀ (k : Nat) (v : Sample), buf[k]? = some v →
      frame.1[k]? = some (toPcm cfg v (escapes + (buf.take k).countP outside)).1) ∧
    frame.2 = escapes + buf.countP outside) ∧
  ∀ (cfg : Config) (v : Sample) (k : Nat), 1 ≤ cfg.pcmBits →
    let x := v * cfg.pcmScale
    let t := truncate x
    let out := (toPcm cfg v k).1
    (0 ≤ x → (t : ℚ) ≤ x ∧ x < t + 1) ∧ (x < 0 → x ≤ t ∧ (t : ℚ) - 1 < x) ∧
    -(2 ^ (cfg.pcmBits - 1)) ≤ out ∧ out ≤ 2 ^ (cfg.pcmBits - 1) - 1 ∧
    (|t| < 2 ^ 31 → (2 ^ cfg.pcmBits : ℤ) ∣ out - t ∧ (toPcm cfg v k).2 = k) ∧
    (2 ^ 31 ≤ |t| → (toPcm cfg v k).2 = k + 1)

/-- R150: when TX.REP is enabled and what it does: nothing where it is not enabled, the step to IDLE where
`txStop` is set, otherwise one repetition of steps 1 to 5 and the write. -/
def Obligations.TxloopStepOutcomes : Prop :=
  ∀ (s : State) (ready : Bool),
    (s.halted = true ∨ s.tx.state = .idle ∨ (s.tx.stop = false ∧ ready = false) →
      txRep ready s = s) ∧
    (s.halted = false → s.tx.state = .running → s.tx.stop = true →
      txRep ready s = { s with tx := { s.tx with state := .idle } }) ∧
    (s.halted = false → s.tx.state = .running → s.tx.stop = false →
      let sps := s.param.d.samplesPerSlot
      let filled := fillSlots s.cfg.txGain sps (slots s.tx.bits) s.env.noise
      let pass₁ := bcApply s.cfg (zeroEdges (winLen sps) filled.1)
      let pass₂ := bcApply s.cfg pass₁.2
      let pcm := pcmFrame s.cfg pass₂.2 s.env.escapes
      txRep true s =
        { s with
          tx := { s.tx with buf := pass₂.2 }
          bcSt := pass₂.1
          io := { s.io with sink := s.io.sink ++ [pcm.1] }
          env := { s.env with noise := filled.2, escapes := pcm.2 } })

/-- R151 (e), R149, R144: a repetition writes one frame of `(6 + 2N)·sps` PCM values, half of
`accumulationBufferSize`, and takes `(3 + N)·sps` draws. -/
def Obligations.RepetitionFrameSize : Prop :=
  ∀ s : State, s.Inv → s.halted = false → s.tx.state = .running → s.tx.stop = false →
    1 ≤ s.cfg.pcmBits →
    ∃ pcm : List Int, (txRep true s).io.sink = s.io.sink ++ [pcm] ∧
      pcm.length = (6 + 2 * s.param.p.symbolCount) * s.param.d.samplesPerSlot ∧
      2 * pcm.length = s.param.d.accumulationBufferSize ∧
      (∀ v ∈ pcm, -(2 ^ (s.cfg.pcmBits - 1)) ≤ v ∧ v ≤ 2 ^ (s.cfg.pcmBits - 1) - 1) ∧
      (txRep true s).env.noise.taken =
        s.env.noise.taken + (3 + s.param.p.symbolCount) * s.param.d.samplesPerSlot

/-- R151 (b): with all draws 0 the frame is all 0. R151 (d): whatever the draws, the first `winLen` elements
of the filtered buffer are 0. -/
def Obligations.RepetitionSilence : Prop :=
  (∀ (s : State) (rest : List Sample), s.Inv → s.halted = false → s.tx.state = .running →
    s.tx.stop = false →
    s.env.noise.pending =
      List.replicate ((3 + s.param.p.symbolCount) * s.param.d.samplesPerSlot) 0 ++ rest →
    (txRep true s).io.sink =
      s.io.sink ++
        [List.replicate ((6 + 2 * s.param.p.symbolCount) * s.param.d.samplesPerSlot) 0]) ∧
  (∀ s : State, s.halted = false → s.tx.state = .running → s.tx.stop = false →
    ∀ k, k < winLen s.param.d.samplesPerSlot → (txRep true s).tx.buf[k]? = some 0)

/-! ## SYN (43_synchronizer.md) -/

/-- R171: RX.START, its refusals in order and its effect: a zero-filled buffer of `L` elements, the flags and
results of the old session cleared, the streaming filter untouched. -/
def Obligations.ReceiveStartFollowsItsRule : Prop :=
  ∀ (s : State) (n : Nat),
    (s.halted = true → exec (.rxStart n) s = .next (s.answered 0x3F [])) ∧
    (s.halted = false → n = 0 → exec (.rxStart n) s = .next (s.answered 0x02 [])) ∧
    (s.halted = false → s.io.din = [] → n ≠ 0 → s.param.valid = false →
      exec (.rxStart n) s = .next (s.answered 0x03 [])) ∧
    (s.halted = false → s.io.din = [] → n ≠ 0 → s.param.valid = true → n < s.cfg.devMinIn →
      exec (.rxStart n) s = .next (s.answered 0x10 [])) ∧
    (s.halted = false → s.io.din = [] → n ≠ 0 → s.param.valid = true → s.cfg.devMinIn ≤ n →
      exec (.rxStart n) s =
        .next (Over.State.answered
          { s with
            rx :=
              { s.rx with
                buf := List.replicate s.param.d.accumulationBufferSize 0
                cursor := 0
                full := false
                stop := false
                chunk := n
                synValid := false
                state := .accumulating }
            slc := { s.slc with valid := false } } 0 []))

/-- R173, R176: the refusals of RX.CHUNK and RX.PUSH in order, and that a stopped session discards the chunk
whole. -/
def Obligations.ChunkRefusalsAndStop : Prop :=
  ∀ (s : State) (i : Instr), (i = .rxChunk ∨ i = .rxPush) →
    (s.halted = true → exec i s = .next (s.answered 0x3F [])) ∧
    (s.halted = false → (∀ c, c ≠ [] → s.io.din ≠ [nums c]) →
      exec i s = .next (s.answered 0x02 [])) ∧
    (∀ c : List Sample, s.halted = false → c ≠ [] → s.io.din = [nums c] →
      (s.rx.state = .none → exec i s = .next (s.answered 0x03 [])) ∧
      (s.rx.state ≠ .none → c.length ≠ s.rx.chunk → exec i s = .next (s.answered 0x02 [])) ∧
      (s.rx.state ≠ .none → c.length = s.rx.chunk → s.rx.stop = true →
        exec i s = .next (s.answered 0 (if i = .rxPush then [[]] else []))))

/-- R173: while ACCUMULATING, a chunk that fits is copied at the cursor, the cursor advances, SYNC_LEVEL is
emitted, and nothing else changes; every other element of RXBUF reads as before. -/
def Obligations.ChunkIsAccumulated : Prop :=
  ∀ (s : State) (chunk : List Sample), s.Inv → s.halted = false → s.io.din = [nums chunk] →
    s.rx.state = .accumulating → chunk.length = s.rx.chunk → s.rx.stop = false →
    s.rx.cursor + chunk.length ≤ s.param.d.accumulationBufferSize →
    ∃ buf : List Sample,
      exec .rxChunk s =
        .next ((Over.State.emitted
          { s with rx := { s.rx with buf := buf, cursor := s.rx.cursor + chunk.length } }
          [.syncLevel (rms chunk).dB ((rms chunk).dbGe s.param.d.thresholdHigh)]).answered 0 []) ∧
      buf.length = s.rx.buf.length ∧
      (∀ k, k < chunk.length → buf[s.rx.cursor + k]? = chunk[k]?) ∧
      (∀ k, k < s.rx.cursor ∨ s.rx.cursor + chunk.length ≤ k → buf[k]? = s.rx.buf[k]?)

/-- R176: RX.PUSH while ACCUMULATING, for a chunk that fits: raw probe, streaming filter, filtered probe, then
the chunk stage on the filtered chunk, which is also the response. -/
def Obligations.PushIsAccumulated : Prop :=
  ∀ (s : State) (c : List Sample), s.Inv → s.halted = false → s.io.din = [nums c] →
    s.rx.state = .accumulating → c.length = s.rx.chunk → s.rx.stop = false →
    s.rx.cursor + c.length ≤ s.param.d.accumulationBufferSize →
    let f := (sfProcess s.cfg s.sf c).2
    exec .rxPush s =
      .next ((Over.State.emitted
        { s with
          sf := (sfProcess s.cfg s.sf c).1
          rx :=
            { s.rx with
              buf := writeSlice s.rx.buf s.rx.cursor f
              cursor := s.rx.cursor + c.length } }
        [.levelRaw (rms c).dB, .levelFilt (rms f).dB,
          .syncLevel (rms f).dB ((rms f).dbGe s.param.d.thresholdHigh)]).answered 0 [numItems f])

/-- R173, R176: in DONE a chunk produces its level events (and is filtered, for RX.PUSH) and nothing else. -/
def Obligations.ChunkAfterDoneOnlyReports : Prop :=
  ∀ (s : State) (c : List Sample), s.halted = false → c ≠ [] → s.io.din = [nums c] →
    s.rx.state = .done → c.length = s.rx.chunk → s.rx.stop = false →
    let f := (sfProcess s.cfg s.sf c).2
    exec .rxChunk s =
      .next ((s.emitted
        [.syncLevel (rms c).dB ((rms c).dbGe s.param.d.thresholdHigh)]).answered 0 []) ∧
    exec .rxPush s =
      .next ((Over.State.emitted { s with sf := (sfProcess s.cfg s.sf c).1 }
        [.levelRaw (rms c).dB, .levelFilt (rms f).dB,
          .syncLevel (rms f).dB ((rms f).dbGe s.param.d.thresholdHigh)]).answered 0 [numItems f])

/-- R174, R188, R216, R217: the chunk that would overflow the buffer ends the session: the old content is
decoded, the results are stored, `DECODED` and `STOPREQ` follow `SYNC_LEVEL`, and the chunk is dropped. -/
def Obligations.OverflowingChunkEndsSession : Prop :=
  ∀ (s : State) (chunk : List Sample), s.Inv → s.halted = false → s.io.din = [nums chunk] →
    s.rx.state = .accumulating → chunk.length = s.rx.chunk → s.rx.stop = false →
    s.param.d.accumulationBufferSize < s.rx.cursor + chunk.length →
    let d := s.param.d
    let c := coarseSync s.cfg d s.rx.buf
    let f := fineSync s.cfg d s.param.p.symbolCount c
    let syms := demodulate rationals d s.param.p.symbolCount s.rx.buf f.delay
    c.hi d + d.samplesPerFrame ≤ d.accumulationBufferSize →
    exec .rxChunk s =
      .next ((Over.State.emitted
        { s with
          rx :=
            { s.rx with
              full := true
              state := .done
              tseq := c.tseq
              refd := c.refd
              refs := refSymbol d.samplesPerSlot
              prof := f.prof
              syn := ⟨c.argmax, c.currentMax, c.argmax + d.samplesPerDelimiter, f.delay, f.fineMax⟩
              synValid := true }
          slc :=
            { onPowers := syms.map (·.on)
              offPowers := syms.map (·.off)
              valid := true
              mlStr := syms.map (·.ml)
              secStr := syms.map (·.sec) } }
        [.syncLevel (rms chunk).dB ((rms chunk).dbGe d.thresholdHigh),
          .decoded (syms.map (·.ml)) (syms.map (·.sec)) (syms.map (·.on)) (syms.map (·.off)),
          .stopReq]).answered 0 [])

/-- R269: the range fault: the session is DONE without a result, the first three `syn` registers and
`faultCode` are written, FAULT(0x20) follows the level events, the status is 0x20, no frame is answered, and
the block is not halted. That the other two `syn` registers and PROF keep their values is the model's choice
(log 13). -/
def Obligations.RangeFaultOutcome : Prop :=
  ∀ (s : State) (chunk : List Sample), s.Inv → s.halted = false → s.io.din = [nums chunk] →
    s.rx.state = .accumulating → chunk.length = s.rx.chunk → s.rx.stop = false →
    s.param.d.accumulationBufferSize < s.rx.cursor + chunk.length →
    let d := s.param.d
    let c := coarseSync s.cfg d s.rx.buf
    let f := (sfProcess s.cfg s.sf chunk).2
    let rx :=
      { s.rx with
        full := true
        state := .done
        tseq := c.tseq
        refd := c.refd
        refs := refSymbol d.samplesPerSlot
        syn :=
          { s.rx.syn with
            argmax := c.argmax
            currentMax := c.currentMax
            delimiterEnd := c.argmax + d.samplesPerDelimiter } }
    d.accumulationBufferSize < c.hi d + d.samplesPerFrame →
    exec .rxChunk s =
      .next ((Over.State.emitted { s with rx := rx, faultCode := 0x20 }
        [.syncLevel (rms chunk).dB ((rms chunk).dbGe d.thresholdHigh),
          .fault 0x20]).answered 0x20 []) ∧
    exec .rxPush s =
      .next ((Over.State.emitted
        { s with sf := (sfProcess s.cfg s.sf chunk).1, rx := rx, faultCode := 0x20 }
        [.levelRaw (rms chunk).dB, .levelFilt (rms f).dB,
          .syncLevel (rms f).dB ((rms f).dbGe d.thresholdHigh), .fault 0x20]).answered 0x20 []) ∧
    s.rx.synValid = false ∧ s.slc.valid = false

/-- R277: SF.PROC and RX.CHUNK in place of RX.PUSH give the same values: RX.PUSH leaves what SF.PROC on the
raw chunk and then RX.CHUNK on the filtered chunk leave, but for the two probe events and the ports. -/
def Obligations.PushIsFilterThenChunk : Prop :=
  ∀ (s : State) (c : List Sample), s.halted = false → c ≠ [] → s.rx.state ≠ .none →
    c.length = s.rx.chunk → s.rx.stop = false →
    ∃ (t u v : State) (ys : List Sample) (es : List Event),
      exec .sfProc (s.withDin [nums c]) = .next t ∧ t.io.dout = [numItems ys] ∧
      exec .rxChunk (t.withDin [nums ys]) = .next u ∧ u.io.evt = s.io.evt ++ es ∧
      exec .rxPush (s.withDin [nums c]) = .next v ∧
      v.io.evt = s.io.evt ++ [.levelRaw (rms c).dB, .levelFilt (rms ys).dB] ++ es ∧
      v.io.status = u.io.status ∧ { v with io := u.io } = u

/-- R175: PRB.LEVEL, its refusals and its effect: the level of the chunk, as a response and as the event of
the selected stream. -/
def Obligations.ProbeFollowsItsRule : Prop :=
  ∀ (s : State) (sel : StreamSel),
    (s.halted = true → exec (.prbLevel sel) s = .next (s.answered 0x3F [])) ∧
    (s.halted = false → (∀ c, c ≠ [] → s.io.din ≠ [nums c]) →
      exec (.prbLevel sel) s = .next (s.answered 0x02 [])) ∧
    (∀ c : List Sample, s.halted = false → c ≠ [] → s.io.din = [nums c] →
      ∃ lvl : Level, lvl.real = dBReal (rmsReal c) ∧
        exec (.prbLevel sel) s =
          .next ((s.emitted [if sel = .raw then .levelRaw lvl else .levelFilt lvl]).answered 0
            [[.num (.level lvl)]]))

/-- R7: the scan, over any numbers, finds the greatest value and, among equal ones, the lowest index; started from
ZERO with no value above 0 it gives (0, 0). -/
def Obligations.ScanFindsLowestMaximum : Prop :=
  ∀ (R : Type) [LinearOrder R] [Zero R] (f : Nat → R) (is : List Nat), is ≠ [] → is.Pairwise (· < ·) →
    let isMax := fun r : R × Nat =>
      r.2 ∈ is ∧ r.1 = f r.2 ∧ (∀ i ∈ is, f i ≤ r.1) ∧ (∀ i ∈ is, i < r.2 → f i < r.1)
    isMax (scan .first is f) ∧
    ((∃ i ∈ is, 0 < f i) → isMax (scan .zero is f)) ∧
    ((∀ i ∈ is, f i ≤ 0) → scan .zero is f = (0, 0))

/-- R189: over the numbers of any ordered ring (the integers, the rationals, the reals), scaling a correlator's
sequence by a positive number scales every correlation and the scan's best value and keeps its offset; in the
datapath, scaling the recording changes nothing of the coarse search as long as no sample crosses
`SAMPLE_THRESHOLD`. -/
def Obligations.CorrelatorScalingLaw : Prop :=
  (∀ (R : Type) [CommRing R] [LinearOrder R] [IsStrictOrderedRing R] (g : R) (r t : List R), 0 < g →
    (∀ i : Nat, corr r (t.map (g * ·)) i = g * corr r t i) ∧
    ∀ (init : ScanInit) (is : List Nat),
      scan init is (corr r (t.map (g * ·))) =
        (g * (scan init is (corr r t)).1, (scan init is (corr r t)).2)) ∧
  (∀ (g : Sample) (cfg : Config) (d : DerivedRegs) (buf : List Sample), 0 < g →
    (∀ x ∈ buf, cfg.sampleThreshold < |g * x| ↔ cfg.sampleThreshold < |x|) →
    coarseSync cfg d (buf.map (g * ·)) = coarseSync cfg d buf)

/-- R177, R178, R183, R184: the thresholded sequence, the two templates and the profile, each with its length and
element by element: at every offset where the symbol template fits, the profile holds the magnitude of its
correlation there, an even number between 0 and `sym`. -/
def Obligations.TemplatesAndProfile : Prop :=
  (∀ (thr : Sample) (buf : List Sample), (thresholded thr buf).length = buf.length) ∧
  (∀ (thr : Sample) (buf : List Sample) (k : Nat) (x : Sample), buf[k]? = some x →
    (thresholded thr buf)[k]? = some (if thr < |x| then 1 else -1)) ∧
  (∀ (hole : Option Nat) (sps j o : Nat) (bit : Bool),
    [true, true, true, false, false, false][j]? = some bit → o < sps →
    (refDelimiter hole sps)[j * sps + o]? =
      some (if hole = some o then 0 else if bit then 1 else -1)) ∧
  (∀ hole sps, (refDelimiter hole sps).length = 6 * sps) ∧
  (∀ sps, (refSymbol sps).length = 2 * sps) ∧
  (∀ sps k : Nat, k < 2 * sps → (refSymbol sps)[k]? = some (if k < sps then 1 else -1)) ∧
  (∀ (cfg : Config) (d : DerivedRegs) (n : Nat) (buf : List Sample), d.sound n = true →
    buf.length = d.accumulationBufferSize →
    let tseq := thresholded cfg.sampleThreshold buf
    let prof := profile d tseq
    prof.length = d.accumulationBufferSize - d.samplesPerSymbol + 1 ∧
    (∀ o, o ≤ d.accumulationBufferSize - d.samplesPerSymbol →
      prof[o]? = some (corr (refSymbol d.samplesPerSlot) tseq o).natAbs) ∧
    ∀ p ∈ prof, p % 2 = 0 ∧ p ≤ d.samplesPerSymbol)

/-- R179: the correlator is the sum of the products. R180: the coarse search is the scan of the delimiter's
correlation over `[0, spd + spf)`. R182, R186: the fine search is the scan, over the delays from `lo` to `hi`, both
included, of the sum of the `N` profile values one symbol apart. R185, R186: the range check fails exactly for a
late coarse peak, which needs `sps >= 4`; once it has passed, every index of the fine search lies inside the
profile, the chosen delay keeps the frame inside the buffer, and the fine maximum is at most `N·sym`. -/
def Obligations.FineSearchStaysInRange : Prop :=
  (∀ (R : Type) [CommRing R] (r t : List R) (i : Nat), i + r.length ≤ t.length →
    corr r t i = ((List.range r.length).map fun k => r.getD k 0 * t.getD (i + k) 0).sum) ∧
  ∀ (cfg : Config) (d : DerivedRegs) (n : Nat) (buf : List Sample), d.sound n = true →
    buf.length = d.accumulationBufferSize →
    let c := coarseSync cfg d buf
    let f := fineSync cfg d n c
    let tseq := thresholded cfg.sampleThreshold buf
    let refd := refDelimiter cfg.delimHole d.samplesPerSlot
    let delimiterEnd := c.argmax + d.samplesPerDelimiter
    let h := d.samplesPerSlot / 2
    c.tseq = tseq ∧ c.refd = refd ∧
    (c.currentMax, c.argmax) =
      scan cfg.coarseInit (List.range (d.samplesPerDelimiter + d.samplesPerFrame))
        (fun i => corr refd tseq i) ∧
    c.lo d = delimiterEnd - h ∧ c.hi d = delimiterEnd + h ∧
    f.prof = profile d tseq ∧
    (c.outOfRange d = false →
      ((f.fineMax : Int), f.delay) =
        scan cfg.fineInit (List.range' (delimiterEnd - h) (2 * h + 1))
          (fun delay =>
            ((((List.range n).map fun j => f.prof.getD (delay + j * d.samplesPerSymbol) 0).sum : Nat) : Int))) ∧
    c.argmax < d.samplesPerDelimiter + d.samplesPerFrame ∧
    (c.outOfRange d = true ↔
      d.samplesPerDelimiter + d.samplesPerFrame - d.samplesPerSlot / 2 < c.argmax) ∧
    (c.outOfRange d = true → 4 ≤ d.samplesPerSlot) ∧
    (c.outOfRange d = false →
      (∀ delay j, c.lo d ≤ delay → delay ≤ c.hi d → j < n →
        delay + j * d.samplesPerSymbol < f.prof.length) ∧
      f.delay + d.samplesPerFrame ≤ d.accumulationBufferSize ∧
      f.fineMax ≤ n * d.samplesPerSymbol)

/-- R190, R320: a silent buffer still decodes: the session ends with an all-'0' ML string, an all-'2' secure
string and zero powers, whatever the start values of the scans. -/
def Obligations.SilentBufferDecodes : Prop :=
  ∀ (s : State) (chunk : List Sample), s.Inv → s.halted = false → s.io.din = [nums chunk] →
    s.rx.state = .accumulating → chunk.length = s.rx.chunk → s.rx.stop = false →
    s.param.d.accumulationBufferSize < s.rx.cursor + chunk.length →
    0 ≤ s.cfg.sampleThreshold →
    s.rx.buf = List.replicate s.param.d.accumulationBufferSize 0 →
    let N := s.param.p.symbolCount
    let d := s.param.d
    ∃ t : State, exec .rxChunk s = .next t ∧ t.io.status = 0 ∧
      t.io.evt = s.io.evt ++
        [.syncLevel (rms chunk).dB ((rms chunk).dbGe d.thresholdHigh),
          .decoded (List.replicate N 0x30) (List.replicate N 0x32)
            (List.replicate N ⟨0⟩) (List.replicate N ⟨0⟩),
          .stopReq] ∧
      t.rx.syn =
        ⟨0, 0, d.samplesPerDelimiter,
          if s.cfg.fineInit = .zero then 0 else d.samplesPerDelimiter - d.samplesPerSlot / 2, 0⟩

/-! ## SLC (44_slicer.md) -/

/-- R4, R5, R212, R213: amplitudes and levels read as the real numbers of the rules: the mean square held is
that of the RMS, `dB` is `20·log10`, and the ML bit compares the two levels strictly. -/
def Obligations.MlBitComparesRealLevels : Prop :=
  (∀ xs : List Sample, xs ≠ [] → 0 ≤ (rms xs).ms ∧ (rms xs).real = rmsReal xs) ∧
  (∀ a : Amp, 0 ≤ a.ms → a.dB.real = dBReal a.real) ∧
  (∀ x : Sample, 0 ≤ x → (Amp.ofLinear x).real = x) ∧
  (∀ first second : Amp, 0 ≤ first.ms → 0 ≤ second.ms →
    (mlBit first second = true ↔ dBReal second.real < dBReal first.real))

/-- R214: the secure bit on real levels, the 1-clause tried first, all comparisons non-strict; and its
three-way split when the two thresholds are equal. -/
def Obligations.SecureBitSplitsAtThreshold : Prop :=
  ∀ (d : DerivedRegs) (first second : Amp), 0 ≤ first.ms → 0 ≤ second.ms →
    let fd := dBReal first.real
    let sd := dBReal second.real
    let th : WithBot ℝ := ((d.thresholdHigh : ℝ) : WithBot ℝ)
    let tl : WithBot ℝ := ((d.thresholdLow : ℝ) : WithBot ℝ)
    (secureBit rationals d first second = .one ↔ th ≤ fd ∧ sd ≤ tl) ∧
    (secureBit rationals d first second = .zero ↔ ¬ (th ≤ fd ∧ sd ≤ tl) ∧ fd ≤ tl ∧ th ≤ sd) ∧
    (d.thresholdHigh = d.thresholdLow →
      (secureBit rationals d first second = .one ↔ th ≤ fd ∧ sd ≤ th) ∧
      (secureBit rationals d first second = .zero ↔ (fd = th ∧ th < sd) ∨ (fd < th ∧ th ≤ sd)) ∧
      (secureBit rationals d first second = .unclear ↔ (th < fd ∧ th < sd) ∨ (fd < th ∧ sd < th)))

/-- R218: SLC.DECIDE, its refusals in order and its response, with the two levels as real numbers. -/
def Obligations.SlicerCommandFollowsItsRule : Prop :=
  ∀ s : State,
    (s.halted = true → exec .slcDecide s = .next (s.answered 0x3F [])) ∧
    (s.halted = false → (∀ x y, s.io.din ≠ [nums [x, y]]) →
      exec .slcDecide s = .next (s.answered 0x02 [])) ∧
    (∀ x y : Sample, s.halted = false → s.io.din = [nums [x, y]] →
      (x < 0 ∨ y < 0 → exec .slcDecide s = .next (s.answered 0x02 [])) ∧
      (0 ≤ x → 0 ≤ y → s.param.valid = false →
        exec .slcDecide s = .next (s.answered 0x03 [])) ∧
      (0 ≤ x → 0 ≤ y → s.param.valid = true →
        ∃ fd sd : Level, fd.real = dBReal x ∧ sd.real = dBReal y ∧
          exec .slcDecide s =
            .next (s.answered 0
              [[.int (if y < x then 1 else 0),
                .int (secureBit rationals s.param.d (Amp.ofLinear x) (Amp.ofLinear y)).toNat,
                .num (.val (max x y)), .num (.val (min x y)),
                .num (.level fd), .num (.level sd)]])))

/-- R210, R211, R215, R216: of any buffer that holds the whole frame, symbol `i` is measured by the RMS of its two
windows, `[start + skipBefore, start + sps - skipAfter)` and `[start + sps + skipBefore, start + sym - skipAfter)`
with `start = delay + i·sym`, each of `sps - skipBefore - skipAfter >= 1` samples; its record is the two decisions
on these powers (R213, R214), their maximum and their minimum. R219: the round trip. A frame whose on slots have
samples of magnitude `A` and whose off slots have samples of magnitude `a`, with `dB(A) >= T >= dB(a)` and `A > a`,
demodulates to its bits, ML and secure, with those powers, for every delay at most `skipAfter` late or
`skipBefore` early. -/
def Obligations.NoiselessFrameRoundTrips : Prop :=
  (∀ (d : DerivedRegs) (n : Nat) (buf : List Sample) (delay : Nat),
    d.sound n = true → delay + d.samplesPerFrame ≤ buf.length →
    (demodulate rationals d n buf delay).length = n ∧
    ∀ i : Nat, i < n →
      let sps := d.samplesPerSlot
      let start := delay + i * d.samplesPerSymbol
      let w := sps - skipBefore sps - skipAfter sps
      let first := rms ((List.range w).map fun k => buf.getD (start + skipBefore sps + k) 0)
      let second := rms ((List.range w).map fun k => buf.getD (start + sps + skipBefore sps + k) 0)
      1 ≤ w ∧ start + sps + skipBefore sps + w + skipAfter sps = start + d.samplesPerSymbol ∧
      start + d.samplesPerSymbol ≤ buf.length ∧
      (demodulate rationals d n buf delay)[i]? =
        some
          { ml := if mlBit first second then 0x31 else 0x30
            sec :=
              match secureBit rationals d first second with
              | .zero => 0x30
              | .one => 0x31
              | .unclear => 0x32
            on := ⟨max first.ms second.ms⟩
            off := ⟨min first.ms second.ms⟩ }) ∧
  ∀ (d : DerivedRegs) (bits : List Bool) (buf : List Sample) (start delay : Nat) (A a : Sample),
    d.sound bits.length = true → d.thresholdHigh = d.thresholdLow → 0 ≤ a → a < A →
    ((d.thresholdHigh : ℝ) : WithBot ℝ) ≤ dBReal A → dBReal a ≤ ((d.thresholdLow : ℝ) : WithBot ℝ) →
    start + d.samplesPerFrame ≤ buf.length →
    (∀ (i k : Nat) (b : Bool), bits[i]? = some b → k < d.samplesPerSymbol →
      ∃ x, buf[start + i * d.samplesPerSymbol + k]? = some x ∧
        |x| = if (decide (k < d.samplesPerSlot)) = b then A else a) →
    delay ≤ start + skipAfter d.samplesPerSlot → start ≤ delay + skipBefore d.samplesPerSlot →
    demodulate rationals d bits.length buf delay =
      bits.map fun b =>
        { ml := if b then 0x31 else 0x30
          sec := if b then 0x31 else 0x30
          on := ⟨A * A⟩
          off := ⟨a * a⟩ }

/-! ## STAT (45_slotstats.md) -/

/-- R230, R231, R234, R237: the averages are taken over the linear amplitudes and converted to dB once; the
commands, which take no payload, change nothing. -/
def Obligations.AverageStatistics : Prop :=
  ∀ s : State, s.halted = false → s.io.din = [] → s.slc.valid = true →
    s.slc.onPowers ≠ [] → s.slc.offPowers ≠ [] →
    (∀ a ∈ s.slc.onPowers ++ s.slc.offPowers, 0 ≤ a.ms) →
    ∃ onAvg offAvg total : Level,
      exec .statOnavg s = .next (s.answered 0 [[.num (.level onAvg)]]) ∧
      exec .statOffavg s = .next (s.answered 0 [[.num (.level offAvg)]]) ∧
      exec .statTotal s = .next (s.answered 0 [[.num (.level total)]]) ∧
      onAvg.real = dBReal (meanReal s.slc.onPowers) ∧
      offAvg.real = dBReal (meanReal s.slc.offPowers) ∧
      total.real = dBReal ((meanReal s.slc.onPowers + meanReal s.slc.offPowers) / 2)

/-- R230, R232, R233, R235, R236: the extremes are the least and the greatest element, converted to dB; the
commands, which take no payload, change nothing. -/
def Obligations.ExtremeStatistics : Prop :=
  ∀ s : State, s.halted = false → s.io.din = [] → s.slc.valid = true →
    s.slc.onPowers ≠ [] → s.slc.offPowers ≠ [] →
    (∀ a ∈ s.slc.onPowers ++ s.slc.offPowers, 0 ≤ a.ms) →
    let least := fun (as : List Amp) (l : Level) =>
      ∃ a ∈ as, (∀ b ∈ as, a.real ≤ b.real) ∧ l.real = dBReal a.real
    let greatest := fun (as : List Amp) (l : Level) =>
      ∃ a ∈ as, (∀ b ∈ as, b.real ≤ a.real) ∧ l.real = dBReal a.real
    ∃ onMin onMax offMin offMax : Level,
      exec .statOnmin s = .next (s.answered 0 [[.num (.level onMin)]]) ∧
      exec .statOnmax s = .next (s.answered 0 [[.num (.level onMax)]]) ∧
      exec .statOffmin s = .next (s.answered 0 [[.num (.level offMin)]]) ∧
      exec .statOffmax s = .next (s.answered 0 [[.num (.level offMax)]]) ∧
      least s.slc.onPowers onMin ∧ greatest s.slc.onPowers onMax ∧
      least s.slc.offPowers offMin ∧ greatest s.slc.offPowers offMax

/-- R230: the prologue of the seven statistics, which take no payload: E_HALTED, then E_STATE where there is no
SlotInformation; in every state of the invariant with one they answer, and the answer has one item. -/
def Obligations.StatisticsNeedSlotInformation : Prop :=
  ∀ (i : Instr) (s : State),
    i ∈ [Instr.statOnavg, .statOnmin, .statOnmax, .statOffavg, .statOffmin, .statOffmax,
      .statTotal] →
    (s.halted = true → exec i s = .next (s.answered 0x3F [])) ∧
    (s.halted = false → s.io.din = [] → s.slc.valid = false →
      exec i s = .next (s.answered 0x03 [])) ∧
    (s.Inv → s.halted = false → s.io.din = [] → s.slc.valid = true →
      ∃ l : Level, exec i s = .next (s.answered 0 [[.num (.level l)]]))

/-- R238, R268: CMP.DIFF, its refusals, the count of differing positions, and the fatal outcome on unequal
lengths. -/
def Obligations.CompareFollowsItsRule : Prop :=
  ∀ s : State,
    (s.halted = true → exec .cmpDiff s = .next (s.answered 0x3F [])) ∧
    (s.halted = false → (∀ a b, s.io.din ≠ [bytes a, bytes b]) →
      exec .cmpDiff s = .next (s.answered 0x02 [])) ∧
    (∀ a b : List Byte, s.halted = false → s.io.din = [bytes a, bytes b] →
      (a.length ≠ b.length →
        exec .cmpDiff s =
          .next ((Over.State.emitted { s with halted := true, faultCode := 0x30 }
            [.fault 0x30]).answered 0x30 [])) ∧
      (a.length = b.length →
        exec .cmpDiff s =
          .next (s.answered 0
            [[.int ((List.range a.length).filter fun k => a[k]? ≠ b[k]?).length]])))

/-! ## System (46_system.md, 10_state.md) -/

/-- R250, R34: SYS.RESET has no refusal and answers in every state, halted ones too: every register and space to
which R34 gives a value holds it, and the events stay. That it does so with a payload on `din` too, where R68 alone
would refuse, is the model's reading (log 9); that the configuration, the sink's frames and the environment's side
stay is its choice (log 14). -/
def Obligations.ResetFollowsItsRule : Prop :=
  ∀ s : State, ∃ t : State, exec .sysReset s = .next t ∧
    t.param.valid = false ∧
    t.bcSt = Vector.replicate 8 ⟨0, 0, 0, 0⟩ ∧
    t.sf = ⟨.order6, Vector.replicate 10 ⟨0, 0, 0, 0⟩⟩ ∧
    t.tx = ⟨[], false, 0, .idle, []⟩ ∧
    t.rx.buf = [] ∧ t.rx.cursor = 0 ∧ t.rx.full = false ∧ t.rx.chunk = 0 ∧ t.rx.state = .none ∧
    t.rx.stop = false ∧ t.rx.synValid = false ∧ t.rx.tseq = [] ∧ t.rx.refd = [] ∧
    t.rx.refs = [] ∧ t.rx.prof = [] ∧
    t.slc = ⟨[], [], false, [], []⟩ ∧ t.halted = false ∧ t.faultCode = 0 ∧
    t.io.status = 0 ∧ t.io.dout = [] ∧
    t.io.evt = s.io.evt ∧ t.io.sink = s.io.sink ∧ t.cfg = s.cfg ∧ t.env = s.env

/-- R251, R31: SYS.RDREG over the complete register map: E_HALTED, E_OPERAND for a number that is not listed,
E_STATE where the "needs" condition fails, else the register's value; nothing changes. -/
def Obligations.RegisterReadsFollowTheMap : Prop :=
  ∀ s : State, s.io.din = [] →
    let reads := fun (reg : Nat) (v : OutItem) =>
      exec (.sysRdreg reg) s = .next (s.answered 0 [[v]])
    let refuses := fun (reg : Nat) (code : Byte) =>
      exec (.sysRdreg reg) s = .next (s.answered code [])
    let paramRegs := [0x00, 0x01, 0x02, 0x03, 0x04, 0x05, 0x06, 0x10, 0x11, 0x12, 0x13, 0x14, 0x15,
      0x16]
    let synRegs := [0x30, 0x31, 0x32, 0x33, 0x34]
    (s.halted = true → ∀ reg, refuses reg 0x3F) ∧
    (s.halted = false →
      (∀ reg, reg ∉ paramRegs ++ [0x20, 0x21, 0x22, 0x23, 0x24] ++ synRegs → refuses reg 0x02) ∧
      (s.param.valid = false → ∀ reg ∈ paramRegs, refuses reg 0x03) ∧
      (s.rx.state = .none → refuses 0x22 0x03 ∧ refuses 0x23 0x03) ∧
      (s.rx.synValid = false → ∀ reg ∈ synRegs, refuses reg 0x03) ∧
      (s.param.valid = true →
        reads 0x00 (.num (.val s.param.p.sampleRate)) ∧
        reads 0x01 (.num (.val s.param.p.slotDuration)) ∧
        reads 0x02 (.num (.val s.param.p.bandLow)) ∧
        reads 0x03 (.num (.val s.param.p.bandHigh)) ∧
        reads 0x04 (.num (.val s.param.p.noiseFloorPower)) ∧
        reads 0x05 (.num (.val s.param.p.snr)) ∧
        reads 0x06 (.int s.param.p.symbolCount) ∧
        reads 0x10 (.int s.param.d.samplesPerSlot) ∧
        reads 0x11 (.int s.param.d.samplesPerSymbol) ∧
        reads 0x12 (.int s.param.d.samplesPerDelimiter) ∧
        reads 0x13 (.int s.param.d.samplesPerFrame) ∧
        reads 0x14 (.num (.val s.param.d.thresholdHigh)) ∧
        reads 0x15 (.num (.val s.param.d.thresholdLow)) ∧
        reads 0x16 (.int s.param.d.accumulationBufferSize)) ∧
      reads 0x20 (.int (statusWord s).toNat) ∧ reads 0x21 (.int s.faultCode.toNat) ∧
      reads 0x24 (.int s.tx.chunk) ∧
      (s.rx.state ≠ .none → reads 0x22 (.int s.rx.cursor) ∧ reads 0x23 (.int s.rx.chunk)) ∧
      (s.rx.synValid = true →
        reads 0x30 (.int s.rx.syn.argmax) ∧ reads 0x31 (.int s.rx.syn.currentMax) ∧
        reads 0x32 (.int s.rx.syn.delimiterEnd) ∧ reads 0x33 (.int s.rx.syn.delay) ∧
        reads 0x34 (.int s.rx.syn.fineMax)))

/-- R30: the fields of STATUS; bits 31:12 read as 0. -/
def Obligations.StatusWordFields : Prop :=
  ∀ s : State,
    let w := statusWord s
    w.getLsbD 0 = s.param.valid ∧ w.getLsbD 1 = decide (s.tx.state = .running) ∧
    w.getLsbD 2 = s.tx.stop ∧
    w.toNat / 2 ^ 3 % 4 =
      (match s.rx.state with
        | .none => 0
        | .accumulating => 1
        | .done => 2) ∧
    w.getLsbD 5 = s.rx.full ∧ w.getLsbD 6 = s.rx.stop ∧ w.getLsbD 7 = s.slc.valid ∧
    w.toNat / 2 ^ 8 % 4 =
      (match s.sf.preset with
        | .order6 => 0
        | .order10 => 1
        | .order20 => 2) ∧
    w.getLsbD 10 = s.halted ∧ w.getLsbD 11 = s.rx.synValid ∧ w.toNat / 2 ^ 12 = 0

/-! ## The whole machine -/

/-- The invariant holds after reset (R34, R300). -/
def Obligations.SoundAtReset : Prop :=
  State.reset.Inv ∧ State.reset.SynBounded ∧ State.reset.io.evt = []

/-- Every step, from every state that meets the invariant, keeps it: Parameters, sessions, results, the
modulator, the unused sections (R16) and the fault code stay as the rules say. -/
def Obligations.StepKeepsSoundness : Prop :=
  ∀ s t : State, s.Inv → step s = .next t → t.Inv

/-- R97, R181, R186: every step keeps the bounds of the decode result registers. -/
def Obligations.StepKeepsSynBounds : Prop :=
  ∀ s t : State, s.Inv → s.SynBounded → step s = .next t → t.SynBounded

/-- R20, R24, R29: the only transitions of `rxState`, `txState` and `halted`. -/
def Obligations.StateMachineTransitions : Prop :=
  (∀ (i : Instr) (s t : State), exec i s = .next t →
    (t.rx.state ≠ s.rx.state →
      ((∃ n, i = .rxStart n) ∧ t.rx.state = .accumulating) ∨
      ((i = .rxChunk ∨ i = .rxPush) ∧ s.rx.state = .accumulating ∧ t.rx.state = .done) ∨
      (i = .sysReset ∧ t.rx.state = .none)) ∧
    (t.tx.state ≠ s.tx.state →
      ((∃ n, i = .txStart n) ∧ s.tx.state = .idle ∧ t.tx.state = .running) ∨
      (i = .sysReset ∧ t.tx.state = .idle)) ∧
    (t.halted ≠ s.halted →
      (i = .cmpDiff ∧ t.halted = true ∧ t.faultCode = 0x30) ∨
      (i = .sysReset ∧ t.halted = false))) ∧
  (∀ (ready : Bool) (s : State),
    (txRep ready s).rx.state = s.rx.state ∧ (txRep ready s).halted = s.halted ∧
    ((txRep ready s).tx.state ≠ s.tx.state →
      s.tx.state = .running ∧ s.tx.stop = true ∧ (txRep ready s).tx.state = .idle))

/-- R270, R250, R277: a step recalls no event and no frame handed to the sink, writes at most one frame, and
never changes the configuration. That a SYS.RESET step keeps the frames already handed to the sink, and the
configuration, is the model's choice (log 14). -/
def Obligations.OutputsOnlyGrow : Prop :=
  ∀ s t : State, step s = .next t →
    t.cfg = s.cfg ∧ (∃ es, t.io.evt = s.io.evt ++ es) ∧
    ∃ fs, t.io.sink = s.io.sink ++ fs ∧ fs.length ≤ 1

/-- R45: which command writes which unit, in states of the invariant: a unit outside a command's row keeps
its value, and so do those outside TX.REP's row. -/
def Obligations.StepsWriteOnlyTheirRow : Prop :=
  (∀ (i : Instr) (s t : State), s.Inv → exec i s = .next t → i ≠ .sysReset →
    ((∀ n, i ≠ .paramLoad n) → t.param = s.param) ∧
    (i ≠ .bcApplyS → i ≠ .bcApplyD → t.bcSt = s.bcSt) ∧
    ((∀ p, i ≠ .sfInit p) → i ≠ .sfProc → i ≠ .rxPush → t.sf = s.sf) ∧
    ((∀ n, i ≠ .txStart n) → i ≠ .txStop → t.tx = s.tx) ∧
    ((∀ n, i ≠ .rxStart n) → i ≠ .rxStop → i ≠ .rxChunk → i ≠ .rxPush → t.rx = s.rx) ∧
    ((∀ n, i ≠ .rxStart n) → i ≠ .rxChunk → i ≠ .rxPush → t.slc = s.slc) ∧
    (i ≠ .cmpDiff → t.halted = s.halted) ∧
    (i ≠ .cmpDiff → i ≠ .rxChunk → i ≠ .rxPush → t.faultCode = s.faultCode)) ∧
  (∀ (ready : Bool) (s : State),
    let t := txRep ready s
    t.param = s.param ∧ t.sf = s.sf ∧ t.rx = s.rx ∧ t.slc = s.slc ∧ t.halted = s.halted ∧
    t.faultCode = s.faultCode ∧ t.tx.bits = s.tx.bits ∧ t.tx.stop = s.tx.stop ∧
    t.tx.chunk = s.tx.chunk ∧ t.io.evt = s.io.evt ∧ t.io.status = s.io.status ∧
    t.io.dout = s.io.dout)

/-- R48 (c), R47: steps of different contexts commute: a capture command and a TX.REP step in either order
lead to one state, and so do a capture command and TX.START or TX.STOP, but for the ports that hold the last
command's payload and response. -/
def Obligations.ContextsCommute : Prop :=
  (∀ (i : Instr) (ready : Bool) (s t : State), captureCommand i = true → exec i s = .next t →
    exec i (txRep ready s) = .next (txRep ready t)) ∧
  (∀ (i j : Instr) (a b : List Frame) (s t₁ t₂ u₁ u₂ : State),
    captureCommand i = true → ((∃ n, j = .txStart n) ∨ j = .txStop) →
    exec i (s.withDin a) = .next t₁ → exec j (t₁.withDin b) = .next t₂ →
    exec j (s.withDin b) = .next u₁ → exec i (u₁.withDin a) = .next u₂ →
    (t₂.withDin []).answered 0 [] = (u₂.withDin []).answered 0 [])
end

