-- ==== Sys2Proof/Laws/State.lean ====
section
/-! SUPPORT. What each shared update does to each field of State. -/

namespace Sys2Proof.Machine

open Sys2Proof

/-! ## emit -/

section
variable (e : Event) (s : State)

@[simp] theorem emit_cfg : (emit e s).cfg = s.cfg := rfl
@[simp] theorem emit_param : (emit e s).param = s.param := rfl
@[simp] theorem emit_bcSt : (emit e s).bcSt = s.bcSt := rfl
@[simp] theorem emit_sf : (emit e s).sf = s.sf := rfl
@[simp] theorem emit_tx : (emit e s).tx = s.tx := rfl
@[simp] theorem emit_rx : (emit e s).rx = s.rx := rfl
@[simp] theorem emit_slc : (emit e s).slc = s.slc := rfl
@[simp] theorem emit_halted : (emit e s).halted = s.halted := rfl
@[simp] theorem emit_faultCode : (emit e s).faultCode = s.faultCode := rfl
@[simp] theorem emit_env : (emit e s).env = s.env := rfl
@[simp] theorem emit_evt : (emit e s).io.evt = s.io.evt ++ [e] := rfl
@[simp] theorem emit_din : (emit e s).io.din = s.io.din := rfl
@[simp] theorem emit_status : (emit e s).io.status = s.io.status := rfl
@[simp] theorem emit_dout : (emit e s).io.dout = s.io.dout := rfl
@[simp] theorem emit_sink : (emit e s).io.sink = s.io.sink := rfl

theorem emit_eq_emitted : emit e s = s.emitted [e] := rfl

end

/-! ## takeException -/

section
variable (x : Exc) (s : State)

@[simp] theorem takeException_cfg : (takeException x s).cfg = s.cfg := by cases x <;> rfl
@[simp] theorem takeException_param : (takeException x s).param = s.param := by cases x <;> rfl
@[simp] theorem takeException_bcSt : (takeException x s).bcSt = s.bcSt := by cases x <;> rfl
@[simp] theorem takeException_sf : (takeException x s).sf = s.sf := by cases x <;> rfl
@[simp] theorem takeException_tx : (takeException x s).tx = s.tx := by cases x <;> rfl
@[simp] theorem takeException_rx : (takeException x s).rx = s.rx := by cases x <;> rfl
@[simp] theorem takeException_slc : (takeException x s).slc = s.slc := by cases x <;> rfl
@[simp] theorem takeException_env : (takeException x s).env = s.env := by cases x <;> rfl
@[simp] theorem takeException_din : (takeException x s).io.din = s.io.din := by cases x <;> rfl
@[simp] theorem takeException_status : (takeException x s).io.status = x.code := by cases x <;> rfl
@[simp] theorem takeException_dout : (takeException x s).io.dout = [] := by cases x <;> rfl
@[simp] theorem takeException_sink : (takeException x s).io.sink = s.io.sink := by cases x <;> rfl

/-- The exceptions that record nothing (R260, R262). -/
def Exc.isRefusal : Exc → Bool
  | .range | .fatalCmplen => false
  | .illegalCmd | .operand | .state | .cfgChunk | .cfgLen | .cfgData | .cfgParam | .halted => true

/-- A refusal changes the response and nothing else (R262). -/
theorem takeException_refusal (h : x.isRefusal = true) :
    takeException x s = s.answered x.code [] := by
  cases x <;> first | rfl | cases h

theorem takeException_range :
    takeException .range s = (({ s with faultCode := 0x20 }).emitted [.fault 0x20]).answered 0x20 [] :=
  rfl

theorem takeException_fatal :
    takeException .fatalCmplen s =
      (({ s with faultCode := 0x30, halted := true }).emitted [.fault 0x30]).answered 0x30 [] :=
  rfl

end

/-! ## answered, emitted, withDin -/

section
variable (s : State) (code : Byte) (frames : List OutFrame) (es : List Event) (din : List Frame)

@[simp] theorem answered_cfg : (s.answered code frames).cfg = s.cfg := rfl
@[simp] theorem answered_param : (s.answered code frames).param = s.param := rfl
@[simp] theorem answered_bcSt : (s.answered code frames).bcSt = s.bcSt := rfl
@[simp] theorem answered_sf : (s.answered code frames).sf = s.sf := rfl
@[simp] theorem answered_tx : (s.answered code frames).tx = s.tx := rfl
@[simp] theorem answered_rx : (s.answered code frames).rx = s.rx := rfl
@[simp] theorem answered_slc : (s.answered code frames).slc = s.slc := rfl
@[simp] theorem answered_halted : (s.answered code frames).halted = s.halted := rfl
@[simp] theorem answered_faultCode : (s.answered code frames).faultCode = s.faultCode := rfl
@[simp] theorem answered_env : (s.answered code frames).env = s.env := rfl
@[simp] theorem answered_status : (s.answered code frames).io.status = code := rfl
@[simp] theorem answered_dout : (s.answered code frames).io.dout = frames := rfl
@[simp] theorem answered_evt : (s.answered code frames).io.evt = s.io.evt := rfl
@[simp] theorem answered_sink : (s.answered code frames).io.sink = s.io.sink := rfl
@[simp] theorem answered_din : (s.answered code frames).io.din = s.io.din := rfl

theorem respond_eq : respond frames s = .next (s.answered 0 frames) := rfl

@[simp] theorem withDin_din : (s.withDin din).io.din = din := rfl
@[simp] theorem withDin_cfg : (s.withDin din).cfg = s.cfg := rfl
@[simp] theorem withDin_param : (s.withDin din).param = s.param := rfl
@[simp] theorem withDin_sf : (s.withDin din).sf = s.sf := rfl
@[simp] theorem withDin_tx : (s.withDin din).tx = s.tx := rfl
@[simp] theorem withDin_rx : (s.withDin din).rx = s.rx := rfl
@[simp] theorem withDin_slc : (s.withDin din).slc = s.slc := rfl
@[simp] theorem withDin_halted : (s.withDin din).halted = s.halted := rfl

end

/-! ## present, popTurn -/

section
variable (din : List Frame) (rest : List Turn) (s : State)

@[simp] theorem present_cfg : (present din rest s).cfg = s.cfg := rfl
@[simp] theorem present_param : (present din rest s).param = s.param := rfl
@[simp] theorem present_bcSt : (present din rest s).bcSt = s.bcSt := rfl
@[simp] theorem present_sf : (present din rest s).sf = s.sf := rfl
@[simp] theorem present_tx : (present din rest s).tx = s.tx := rfl
@[simp] theorem present_rx : (present din rest s).rx = s.rx := rfl
@[simp] theorem present_slc : (present din rest s).slc = s.slc := rfl
@[simp] theorem present_halted : (present din rest s).halted = s.halted := rfl
@[simp] theorem present_faultCode : (present din rest s).faultCode = s.faultCode := rfl
@[simp] theorem present_din : (present din rest s).io.din = din := rfl
@[simp] theorem present_evt : (present din rest s).io.evt = s.io.evt := rfl
@[simp] theorem present_sink : (present din rest s).io.sink = s.io.sink := rfl
@[simp] theorem present_noise : (present din rest s).env.noise = s.env.noise := rfl

@[simp] theorem popTurn_cfg : (popTurn rest s).cfg = s.cfg := rfl
@[simp] theorem popTurn_param : (popTurn rest s).param = s.param := rfl
@[simp] theorem popTurn_bcSt : (popTurn rest s).bcSt = s.bcSt := rfl
@[simp] theorem popTurn_sf : (popTurn rest s).sf = s.sf := rfl
@[simp] theorem popTurn_tx : (popTurn rest s).tx = s.tx := rfl
@[simp] theorem popTurn_rx : (popTurn rest s).rx = s.rx := rfl
@[simp] theorem popTurn_slc : (popTurn rest s).slc = s.slc := rfl
@[simp] theorem popTurn_halted : (popTurn rest s).halted = s.halted := rfl
@[simp] theorem popTurn_faultCode : (popTurn rest s).faultCode = s.faultCode := rfl
@[simp] theorem popTurn_io : (popTurn rest s).io = s.io := rfl

end

end Sys2Proof.Machine
end

