-- ==== Sys2Proof/Laws/Ops.lean ====
section
/-! SUPPORT. One lemma for each shared operation that says what it can do. -/

namespace Sys2Proof.Machine

open Sys2Proof

/-! ## The halted check and refusals (R261, R262) -/

theorem unlessHalted_of_running {s : State} (h : s.halted = false) (body : Result) :
    unlessHalted s body = body := by simp [unlessHalted, h]

theorem unlessHalted_of_halted {s : State} (h : s.halted = true) (body : Result) :
    unlessHalted s body = .next (s.answered 0x3F []) := by
  rw [unlessHalted, if_pos h]; rfl

/-- What a command under the halted check can answer: the refusal E_HALTED, or what its body answers. -/
theorem unlessHalted_cases {s t : State} {body : Result} (h : unlessHalted s body = .next t) :
    (s.halted = true ∧ t = s.answered 0x3F []) ∨ (s.halted = false ∧ body = .next t) := by
  cases hs : s.halted
  · rw [unlessHalted_of_running hs] at h
    exact .inr ⟨rfl, h⟩
  · rw [unlessHalted_of_halted hs] at h
    cases h
    exact .inl ⟨rfl, rfl⟩

theorem raise_refusal {x : Exc} (s : State) (h : x.isRefusal = true) :
    raise x s = .next (s.answered x.code []) := by rw [raise, takeException_refusal x s h]

/-! ## The payload of a command that takes none (R63, R68) -/

theorem unlessPayload_of_none {s : State} (h : s.io.din = []) (body : Result) :
    unlessPayload s body = body := by rw [unlessPayload, h]

theorem unlessPayload_of_some {s : State} (h : s.io.din ≠ []) (body : Result) :
    unlessPayload s body = .next (s.answered 0x02 []) := by
  unfold unlessPayload
  split
  · rename_i hd; exact absurd hd h
  · rfl

/-- What a command that takes no payload can answer: the refusal E_OPERAND, or what its body answers. -/
theorem unlessPayload_cases {s t : State} {body : Result} (h : unlessPayload s body = .next t) :
    (s.io.din ≠ [] ∧ t = s.answered 0x02 []) ∨ (s.io.din = [] ∧ body = .next t) := by
  by_cases hd : s.io.din = []
  · rw [unlessPayload_of_none hd] at h
    exact .inr ⟨hd, h⟩
  · rw [unlessPayload_of_some hd] at h
    cases h
    exact .inl ⟨hd, rfl⟩

/-! ## Payload forms (R63, R68) -/

@[simp] theorem numFrame_nums (xs : List Sample) : numFrame (nums xs) = some xs := by
  induction xs with
  | nil => rfl
  | cons x xs ih =>
    have : numFrame (nums (x :: xs)) = (numFrame (nums xs)).map (x :: ·) := rfl
    rw [this, ih]; rfl

@[simp] theorem byteFrame_bytes (bs : List Byte) : byteFrame (bytes bs : Frame) = some bs := by
  induction bs with
  | nil => rfl
  | cons b bs ih =>
    have : byteFrame (bytes (b :: bs) : Frame) = (byteFrame (bytes bs : Frame)).map (b :: ·) := rfl
    rw [this, ih]; rfl

/-- A frame reads as samples exactly when it is their frame. -/
theorem numFrame_eq_some {f : Frame} {xs : List Sample} : numFrame f = some xs ↔ f = nums xs := by
  constructor
  · intro h
    induction f generalizing xs with
    | nil => cases h; rfl
    | cons a f ih =>
      cases a with
      | byte b => cases h
      | num q =>
        simp only [numFrame, Option.map_eq_some_iff] at h
        obtain ⟨ys, hy, rfl⟩ := h
        rw [ih hy]; rfl
  · rintro rfl; simp

/-- A frame reads as bytes exactly when it is their frame. -/
theorem byteFrame_eq_some {f : Frame} {bs : List Byte} : byteFrame f = some bs ↔ f = bytes bs := by
  constructor
  · intro h
    induction f generalizing bs with
    | nil => cases h; rfl
    | cons a f ih =>
      cases a with
      | num q => cases h
      | byte b =>
        simp only [byteFrame, Option.map_eq_some_iff] at h
        obtain ⟨ys, hy, rfl⟩ := h
        rw [ih hy]; rfl
  · rintro rfl; simp

theorem oneNumFrame_eq_some {din : List Frame} {xs : List Sample} :
    oneNumFrame din = some xs ↔ din = [nums xs] := by
  match din with
  | [] => simp [oneNumFrame]
  | [f] => simp [oneNumFrame, numFrame_eq_some]
  | _ :: _ :: _ => simp [oneNumFrame]

theorem oneByteFrame_eq_some {din : List Frame} {bs : List Byte} :
    oneByteFrame din = some bs ↔ din = [bytes bs] := by
  match din with
  | [] => simp [oneByteFrame]
  | [f] => simp [oneByteFrame, byteFrame_eq_some]
  | _ :: _ :: _ => simp [oneByteFrame]

theorem oneChunk_eq_some {din : List Frame} {xs : List Sample} :
    oneChunk din = some xs ↔ din = [nums xs] ∧ xs ≠ [] := by
  unfold oneChunk
  split
  · rename_i h
    rw [oneNumFrame_eq_some] at h
    subst h
    constructor
    · intro h; cases h
    · rintro ⟨h, hne⟩
      have : numFrame (nums []) = numFrame (nums xs) := by
        simpa using congrArg numFrame (List.head_eq_of_cons_eq h)
      simp only [numFrame_nums, Option.some.injEq] at this
      exact absurd this.symm hne
  · rename_i h
    rw [oneNumFrame_eq_some]
    constructor
    · rintro rfl
      exact ⟨rfl, fun he => h (by rw [he, oneNumFrame_eq_some])⟩
    · exact fun h => h.1

theorem twoByteFrames_eq_some {din : List Frame} {a b : List Byte} :
    twoByteFrames din = some (a, b) ↔ din = [bytes a, bytes b] := by
  match din with
  | [] => simp [twoByteFrames]
  | [_] => simp [twoByteFrames]
  | [f, g] =>
    have hf : ∀ {a : List Byte}, f = bytes a ↔ byteFrame f = some a := byteFrame_eq_some.symm
    have hg : ∀ {b : List Byte}, g = bytes b ↔ byteFrame g = some b := byteFrame_eq_some.symm
    simp only [twoByteFrames, List.cons.injEq, and_true, hf, hg]
    cases byteFrame f <;> cases byteFrame g <;> simp
  | _ :: _ :: _ :: _ => simp [twoByteFrames]

/-! ## Buffer slices (R40) -/

theorem slice_length {α : Type} (a : List α) (lo hi : Nat) (h : hi ≤ a.length) :
    (slice a lo hi).length = hi - lo := by
  simp only [slice, List.length_take, List.length_drop]; omega

theorem writeSlice_length {α : Type} (a : List α) (pos : Nat) (new : List α)
    (h : pos + new.length ≤ a.length) : (writeSlice a pos new).length = a.length := by
  simp only [writeSlice, List.length_append, List.length_take, List.length_drop]; omega

/-- A write leaves every element outside the written range as it was. -/
theorem writeSlice_outside {α : Type} (a : List α) (pos : Nat) (new : List α)
    (h : pos + new.length ≤ a.length) (k : Nat) (hk : k < pos ∨ pos + new.length ≤ k) :
    (writeSlice a pos new)[k]? = a[k]? := by
  have hp : (a.take pos).length = pos := by simp; omega
  unfold writeSlice
  rcases hk with hk | hk
  · rw [List.append_assoc, List.getElem?_append_left (by omega), List.getElem?_take_of_lt hk]
  · rw [List.getElem?_append_right (by simp; omega), List.getElem?_drop]
    congr 1
    simp; omega

/-- A read inside the written range gives what was written. -/
theorem writeSlice_inside {α : Type} (a : List α) (pos : Nat) (new : List α)
    (h : pos + new.length ≤ a.length) (k : Nat) (hk : k < new.length) :
    (writeSlice a pos new)[pos + k]? = new[k]? := by
  have hp : (a.take pos).length = pos := by simp; omega
  unfold writeSlice
  rw [List.getElem?_append_left (by simp; omega), List.getElem?_append_right (by omega)]
  congr 1; omega

end Sys2Proof.Machine
end

