-- ==== Sys2Proof/Laws/Commands.lean ====
section
/-! SUPPORT. For each command, everything it can do: if it answers a next state, that state is one of those
listed. -/

namespace Sys2Proof.Machine

open Sys2Proof

/-- The step was refused: it changed the response and nothing else (R262). -/
abbrev Refused (s t : State) : Prop := ∃ code, t = s.answered code []

theorem refused_of_raise {x : Exc} {s t : State} (hx : x.isRefusal = true) (h : raise x s = .next t) :
    Refused s t := by
  rw [raise_refusal s hx] at h
  cases h
  exact ⟨_, rfl⟩

theorem next_of_respond {frames : List OutFrame} {s t : State} (h : respond frames s = .next t) :
    t = s.answered 0 frames := by cases h; rfl

/-- The halted check peeled off, its refusal set apart. -/
theorem unlessHalted_or {s t : State} {body : Result} {P : Prop} (h : unlessHalted s body = .next t)
    (hb : s.halted = false → body = .next t → Refused s t ∨ P) : Refused s t ∨ P := by
  rcases unlessHalted_cases h with ⟨-, h⟩ | ⟨hs, h⟩
  · exact .inl ⟨_, h⟩
  · exact hb hs h

/-- The payload check peeled off, its refusal set apart. -/
theorem unlessPayload_or {s t : State} {body : Result} {P : Prop} (h : unlessPayload s body = .next t)
    (hb : s.io.din = [] → body = .next t → Refused s t ∨ P) : Refused s t ∨ P := by
  rcases unlessPayload_cases h with ⟨-, h⟩ | ⟨hd, h⟩
  · exact .inl ⟨_, h⟩
  · exact hb hd h

/-! ## Commands outside the receiver -/

theorem execSysReset_cases {s t : State} (h : execSysReset s = .next t) :
    t = (afterReset s).answered 0 [] :=
  next_of_respond h

theorem execSysRdreg_cases {reg : Nat} {s t : State} (h : execSysRdreg reg s = .next t) :
    Refused s t ∨ ∃ v, s.io.din = [] ∧ readReg s reg = .ok v ∧ t = s.answered 0 [[v]] := by
  refine unlessHalted_or h fun _ h => unlessPayload_or h fun hd h => ?_
  split at h
  · rename_i x hx
    refine .inl (refused_of_raise ?_ h)
    have key : ∀ {b : Bool} {v : OutItem}, needs b v = .error x → x.isRefusal = true := by
      intro b v hb
      unfold needs at hb
      split at hb
      · cases hb
      · cases hb; rfl
    unfold readReg at hx
    split at hx <;> first | exact key hx | cases hx <;> rfl
  · rename_i v hv
    exact .inr ⟨v, hd, hv, next_of_respond h⟩

theorem execParamLoad_cases {n : Nat} {s t : State} (h : execParamLoad n s = .next t) :
    Refused s t ∨
      ∃ p : ParamRegs, s.halted = false ∧ s.param.valid = false ∧ p.symbolCount = n ∧
        paramsValid p (deriveFrom p) = true ∧
        t = Over.State.answered { s with param := ⟨true, p, deriveFrom p⟩ } 0 [] := by
  refine unlessHalted_or h fun hs h => ?_
  split at h
  · exact .inl (refused_of_raise rfl h)
  · rename_i p hp
    split at h
    · exact .inl (refused_of_raise rfl h)
    · rename_i hv
      split at h
      · rename_i hok
        refine .inr ⟨p, hs, by simpa using hv, ?_, hok, next_of_respond h⟩
        unfold paramPayload at hp
        split at hp <;> cases hp
        rfl
      · exact .inl (refused_of_raise rfl h)

theorem batchApply_cases {s t : State} (h : batchApply s = .next t) :
    Refused s t ∨
      ∃ buf, s.halted = false ∧ s.io.din = [nums buf] ∧
        t = Over.State.answered { s with bcSt := (bcApply s.cfg buf).1 } 0
          [numItems (bcApply s.cfg buf).2] := by
  refine unlessHalted_or h fun hs h => ?_
  split at h
  · exact .inl (refused_of_raise rfl h)
  · rename_i buf hb
    exact .inr ⟨buf, hs, oneNumFrame_eq_some.mp hb, next_of_respond h⟩

theorem execSfInit_cases {preset : Nat} {s t : State} (h : execSfInit preset s = .next t) :
    Refused s t ∨
      ∃ p, s.halted = false ∧ presetOf preset = some p ∧ s.io.din = [] ∧
        t = Over.State.answered { s with sf := ⟨p, Vector.replicate 10 SecState.cleared⟩ } 0 [] := by
  refine unlessHalted_or h fun hs h => ?_
  split at h
  · exact .inl (refused_of_raise rfl h)
  · rename_i p hp
    exact unlessPayload_or h fun hd h => .inr ⟨p, hs, hp, hd, next_of_respond h⟩

theorem execSfProc_cases {s t : State} (h : execSfProc s = .next t) :
    Refused s t ∨
      ∃ buf, s.halted = false ∧ s.io.din = [nums buf] ∧
        t = Over.State.answered { s with sf := (sfProcess s.cfg s.sf buf).1 } 0
          [numItems (sfProcess s.cfg s.sf buf).2] := by
  refine unlessHalted_or h fun hs h => ?_
  split at h
  · exact .inl (refused_of_raise rfl h)
  · rename_i buf hb
    exact .inr ⟨buf, hs, oneNumFrame_eq_some.mp hb, next_of_respond h⟩

theorem execTxStart_cases {n : Nat} {s t : State} (h : execTxStart n s = .next t) :
    Refused s t ∨
      ∃ data : List Byte, s.halted = false ∧ s.io.din = [bytes data] ∧ s.param.valid = true ∧
        s.tx.state = .idle ∧ s.cfg.devMinOut ≤ n ∧ data.length = s.param.p.symbolCount ∧
        data.all isBinary = true ∧
        t = Over.State.answered
          { s with tx := ⟨data.map (· == 0x31), false, n, .running, s.tx.buf⟩ } 0 [] := by
  refine unlessHalted_or h fun hs h => ?_
  split at h
  · exact .inl (refused_of_raise rfl h)
  · rename_i data hd
    repeat' (split at h; exact .inl (refused_of_raise rfl h))
    rename_i hv hr hn hl hb
    refine .inr ⟨data, hs, oneByteFrame_eq_some.mp hd, by simpa using hv, ?_, by omega,
      by simpa using hl, by simpa using hb, next_of_respond h⟩
    cases hx : s.tx.state
    · rfl
    · exact absurd hx hr

theorem execTxStop_cases {s t : State} (h : execTxStop s = .next t) :
    Refused s t ∨
      s.halted = false ∧ s.io.din = [] ∧
        t = Over.State.answered { s with tx := { s.tx with stop := true } } 0 [] :=
  unlessHalted_or h fun hs h => unlessPayload_or h fun hd h => .inr ⟨hs, hd, next_of_respond h⟩

theorem execSlcDecide_cases {s t : State} (h : execSlcDecide s = .next t) :
    Refused s t ∨
      ∃ first second : Sample, s.halted = false ∧ s.io.din = [nums [first, second]] ∧ 0 ≤ first ∧
        0 ≤ second ∧ s.param.valid = true ∧
        t = s.answered 0 [slicerFrame rationals s.param.d first second] := by
  refine unlessHalted_or h fun hs h => ?_
  split at h
  · rename_i first second hd
    split at h
    · exact .inl (refused_of_raise rfl h)
    · rename_i hneg
      split at h
      · exact .inl (refused_of_raise rfl h)
      · rename_i hv
        simp only [not_or, not_lt] at hneg
        exact .inr ⟨first, second, hs, oneNumFrame_eq_some.mp hd, hneg.1, hneg.2, by simpa using hv,
          next_of_respond h⟩
  · exact .inl (refused_of_raise rfl h)

theorem statistic_cases {f : List Amp → List Amp → Level} {s t : State}
    (h : statistic f s = .next t) :
    Refused s t ∨
      s.halted = false ∧ s.io.din = [] ∧ s.slc.valid = true ∧
        ((s.slc.onPowers = [] ∨ s.slc.offPowers = []) ∧ t = takeException .range s ∨
          s.slc.onPowers ≠ [] ∧ s.slc.offPowers ≠ [] ∧
            t = s.answered 0 [[.num (.level (f s.slc.onPowers s.slc.offPowers))]]) := by
  refine unlessHalted_or h fun hs h => unlessPayload_or h fun hd h => ?_
  split at h
  · exact .inl (refused_of_raise rfl h)
  · rename_i hv
    refine .inr ⟨hs, hd, by simpa using hv, ?_⟩
    split at h
    · rename_i he
      exact .inl ⟨he, by cases h; rfl⟩
    · rename_i he
      exact .inr ⟨fun h => he (.inl h), fun h => he (.inr h), next_of_respond h⟩

theorem execCmpDiff_cases {s t : State} (h : execCmpDiff s = .next t) :
    Refused s t ∨
      ∃ a b, s.halted = false ∧ s.io.din = [bytes a, bytes b] ∧
        (a.length ≠ b.length ∧ t = takeException .fatalCmplen s ∨
          a.length = b.length ∧ t = s.answered 0 [[.int (countDifferences a b)]]) := by
  refine unlessHalted_or h fun hs h => ?_
  split at h
  · exact .inl (refused_of_raise rfl h)
  · rename_i a b hd
    refine .inr ⟨a, b, hs, twoByteFrames_eq_some.mp hd, ?_⟩
    split at h
    · rename_i hl
      exact .inl ⟨hl, by cases h; rfl⟩
    · rename_i hl
      exact .inr ⟨not_not.mp hl, next_of_respond h⟩

/-! ## The receiver -/

theorem execRxStart_cases {n : Nat} {s t : State} (h : execRxStart n s = .next t) :
    Refused s t ∨
      s.halted = false ∧ n ≠ 0 ∧ s.io.din = [] ∧ s.param.valid = true ∧ s.cfg.devMinIn ≤ n ∧
        t = Over.State.answered
          { s with
            rx :=
              { s.rx with
                buf := List.replicate s.param.d.accumulationBufferSize 0
                cursor := 0
                full := false
                stop := false
                chunk := n
                synValid := false
                state := .accumulating }
            slc := { s.slc with valid := false } } 0 [] := by
  refine unlessHalted_or h fun hs h => unlessPayload_or h fun hd h => ?_
  split at h
  · exact .inl (refused_of_raise rfl h)
  · rename_i hn
    repeat' (split at h; exact .inl (refused_of_raise rfl h))
    rename_i hv hm
    exact .inr ⟨hs, hn, hd, by simpa using hv, by omega, next_of_respond h⟩

theorem execRxStop_cases {s t : State} (h : execRxStop s = .next t) :
    Refused s t ∨
      s.halted = false ∧ s.io.din = [] ∧
        t = Over.State.answered { s with rx := { s.rx with stop := true } } 0 [] :=
  unlessHalted_or h fun hs h => unlessPayload_or h fun hd h => .inr ⟨hs, hd, next_of_respond h⟩

theorem execPrbLevel_cases {sel : StreamSel} {s t : State} (h : execPrbLevel sel s = .next t) :
    Refused s t ∨
      ∃ c e, s.halted = false ∧ c ≠ [] ∧ s.io.din = [nums c] ∧
        e = (if sel = .raw then Over.Event.levelRaw (rms c).dB else Over.Event.levelFilt (rms c).dB) ∧
        t = (s.emitted [e]).answered 0 [[.num (.level (rms c).dB)]] := by
  refine unlessHalted_or h fun hs h => ?_
  split at h
  · exact .inl (refused_of_raise rfl h)
  · rename_i c hc
    obtain ⟨hd, hne⟩ := oneChunk_eq_some.mp hc
    refine .inr ⟨c, _, hs, hne, hd, rfl, ?_⟩
    cases sel <;> exact next_of_respond h

/-- The two ways a session ends (R174, R269). -/
theorem finish_cases (s : State) :
    let d := s.param.d
    let c := coarseSync s.cfg d s.rx.buf
    let f := fineSync s.cfg d s.param.p.symbolCount c
    let syms := demodulate rationals d s.param.p.symbolCount s.rx.buf f.delay
    let u := afterFine f syms (afterCoarse c s)
    c.outOfRange d = true ∧ finish rationals s = .raised (takeException .range (afterCoarse c s)) ∨
      c.outOfRange d = false ∧ finish rationals s = .done (u.emitted [decodedEvent u.slc, .stopReq]) := by
  intro d c f syms u
  unfold finish
  cases hc : c.outOfRange d
  · refine .inr ⟨rfl, ?_⟩
    simp only [d, c] at hc
    rw [if_neg (by rw [hc]; decide)]
    simp only [emit_eq_emitted, Over.State.emitted, List.append_assoc]
    rfl
  · refine .inl ⟨rfl, ?_⟩
    simp only [d, c] at hc
    rw [if_pos hc]

/-- The event the chunk stage begins with (R173). -/
def levelEvent (c : List Sample) (s : State) : Event :=
  .syncLevel (rms c).dB ((rms c).dbGe s.param.d.thresholdHigh)

theorem chunkStage_accumulates {c : List Sample} {s : State} (hs : s.rx.state = .accumulating)
    (hw : spacesSound s = true) (hc : s.rx.cursor + c.length ≤ s.param.d.accumulationBufferSize) :
    chunkStage rationals c s =
      .done (Over.State.emitted
        { s with
          rx :=
            { s.rx with
              buf := writeSlice s.rx.buf s.rx.cursor c
              cursor := s.rx.cursor + c.length } } [levelEvent c s]) := by
  unfold chunkStage
  rw [hs]
  simp only [hw, Bool.not_true, Bool.false_eq_true, if_false]
  rw [if_neg (by omega)]
  rfl

theorem chunkStage_overflows {c : List Sample} {s : State} (hs : s.rx.state = .accumulating)
    (hw : spacesSound s = true) (hc : s.param.d.accumulationBufferSize < s.rx.cursor + c.length) :
    chunkStage rationals c s = finish rationals (s.emitted [levelEvent c s]) := by
  unfold chunkStage
  rw [hs]
  simp only [hw, Bool.not_true, Bool.false_eq_true, if_false]
  rw [if_pos hc]
  rfl

theorem chunkStage_reports {c : List Sample} {s : State} (hs : s.rx.state ≠ .accumulating) :
    chunkStage rationals c s = .done (s.emitted [levelEvent c s]) := by
  unfold chunkStage
  cases h : s.rx.state
  · rfl
  · exact absurd h hs
  · rfl

/-- Everything a chunk stage can do. -/
theorem chunkStage_cases (c : List Sample) (s : State) :
    (s.rx.state ≠ .accumulating ∧ chunkStage rationals c s = .done (s.emitted [levelEvent c s])) ∨
    (s.rx.state = .accumulating ∧ spacesSound s = true ∧
      s.rx.cursor + c.length ≤ s.param.d.accumulationBufferSize ∧
      chunkStage rationals c s =
        .done (Over.State.emitted
          { s with
            rx :=
              { s.rx with
                buf := writeSlice s.rx.buf s.rx.cursor c
                cursor := s.rx.cursor + c.length } } [levelEvent c s])) ∨
    (s.rx.state = .accumulating ∧ spacesSound s = true ∧
      s.param.d.accumulationBufferSize < s.rx.cursor + c.length ∧
      chunkStage rationals c s = finish rationals (s.emitted [levelEvent c s])) ∨
    (s.rx.state = .accumulating ∧ spacesSound s = false ∧
      chunkStage rationals c s =
        .raised (takeException .range (Over.State.emitted
          { s with rx := { s.rx with full := true, state := .done } } [levelEvent c s]))) := by
  by_cases hs : s.rx.state = .accumulating
  · cases hw : spacesSound s
    · refine .inr (.inr (.inr ⟨hs, rfl, ?_⟩))
      unfold chunkStage
      rw [hs]
      simp only [hw, Bool.not_false, if_true]
      rfl
    · rcases Nat.lt_or_ge s.param.d.accumulationBufferSize (s.rx.cursor + c.length) with hc | hc
      · exact .inr (.inr (.inl ⟨hs, rfl, hc, chunkStage_overflows hs hw hc⟩))
      · exact .inr (.inl ⟨hs, rfl, hc, chunkStage_accumulates hs hw hc⟩)
  · exact .inl ⟨hs, chunkStage_reports hs⟩

/-- The state a stage leaves. -/
def Over.Stage.state : Over.Stage Sample → Over.State Sample
  | .done s => s
  | .raised s => s

/-- The end of a chunk command leaves the stage's state, but for the response. -/
theorem endStage_cases {frames : List OutFrame} {g : Stage} {t : State}
    (h : endStage frames g = .next t) :
    ∃ code fs, t = g.state.answered code fs := by
  cases g with
  | done s => exact ⟨0, frames, next_of_respond h⟩
  | raised s => cases h; exact ⟨t.io.status, t.io.dout, rfl⟩

theorem execRxChunk_cases {s t : State} (h : execRxChunk s = .next t) :
    Refused s t ∨
      ∃ c, s.halted = false ∧ c ≠ [] ∧ s.io.din = [nums c] ∧ s.rx.state ≠ .none ∧
        c.length = s.rx.chunk ∧
        (s.rx.stop = true ∧ t = s.answered 0 [] ∨
          s.rx.stop = false ∧ endStage [] (chunkStage rationals c s) = .next t) := by
  refine unlessHalted_or h fun hs h => ?_
  split at h
  · exact .inl (refused_of_raise rfl h)
  · rename_i c hc
    obtain ⟨hd, hne⟩ := oneChunk_eq_some.mp hc
    split at h
    · exact .inl (refused_of_raise rfl h)
    · rename_i hst
      split at h
      · exact .inl (refused_of_raise rfl h)
      · rename_i hl
        refine .inr ⟨c, hs, hne, hd, hst, not_not.mp hl, ?_⟩
        split at h
        · rename_i hp
          exact .inl ⟨hp, next_of_respond h⟩
        · rename_i hp
          exact .inr ⟨by simpa using hp, h⟩

theorem pushStages_eq (c : List Sample) (s : State) :
    pushStages c s =
      Over.State.emitted { s with sf := (sfProcess s.cfg s.sf c).1 }
        [.levelRaw (rms c).dB, .levelFilt (rms (sfProcess s.cfg s.sf c).2).dB] := by
  simp only [pushStages, emit, Over.State.emitted, List.append_assoc]
  rfl

theorem execRxPush_cases {s t : State} (h : execRxPush s = .next t) :
    Refused s t ∨
      ∃ c, s.halted = false ∧ c ≠ [] ∧ s.io.din = [nums c] ∧ s.rx.state ≠ .none ∧
        c.length = s.rx.chunk ∧
        (s.rx.stop = true ∧ t = s.answered 0 [[]] ∨
          s.rx.stop = false ∧
            endStage [numItems (sfProcess s.cfg s.sf c).2]
              (chunkStage rationals (sfProcess s.cfg s.sf c).2 (pushStages c s)) = .next t) := by
  refine unlessHalted_or h fun hs h => ?_
  split at h
  · exact .inl (refused_of_raise rfl h)
  · rename_i c hc
    obtain ⟨hd, hne⟩ := oneChunk_eq_some.mp hc
    split at h
    · exact .inl (refused_of_raise rfl h)
    · rename_i hst
      split at h
      · exact .inl (refused_of_raise rfl h)
      · rename_i hl
        refine .inr ⟨c, hs, hne, hd, hst, not_not.mp hl, ?_⟩
        split at h
        · rename_i hp
          exact .inl ⟨hp, next_of_respond h⟩
        · rename_i hp
          exact .inr ⟨by simpa using hp, h⟩

/-! ## TX.REP -/

/-- Everything a turn of TXLOOP can do (R150). -/
theorem txRep_cases (ready : Bool) (s : State) :
    (repEnabled ready s = false ∧ txRep ready s = s) ∨
    (repEnabled ready s = true ∧ s.tx.stop = true ∧
      txRep ready s = { s with tx := { s.tx with state := .idle } }) ∨
    (repEnabled ready s = true ∧ s.tx.stop = false ∧ txRep ready s = repetition s) := by
  unfold txRep
  cases he : repEnabled ready s
  · exact .inl ⟨rfl, rfl⟩
  · cases ht : s.tx.stop
    · exact .inr (.inr ⟨rfl, rfl, by simp⟩)
    · exact .inr (.inl ⟨rfl, rfl, by simp⟩)

end Sys2Proof.Machine
end

