-- ==== Sys2Proof/Laws/Levels.lean ====
section
/-! SUPPORT. The two comparisons of a level with a threshold decide what they say over the real numbers (R4,
R5). -/

namespace Sys2Proof.Machine

open Sys2Proof

theorem dBReal_of_pos {r : ℝ} (h : 0 < r) : dBReal r = ((20 * Real.logb 10 r : ℝ) : WithBot ℝ) := by
  simp [dBReal, h.ne']

theorem dBReal_zero : dBReal 0 = ⊥ := by simp [dBReal]

theorem powers_snd_pos (a : Amp) (t : Sample) : 0 < (a.powers t).2 :=
  Nat.mul_pos (Nat.pow_pos a.ms.den_pos) (Nat.pow_pos (by decide))

/-- An amplitude with no positive mean square is silent. -/
theorem powers_fst_of_nonpos {a : Amp} (h : a.ms ≤ 0) (t : Sample) : (a.powers t).1 = 0 := by
  have hn : a.ms.num.toNat = 0 := Int.toNat_of_nonpos (Rat.num_nonpos.mpr h)
  simp [Over.Amp.powers, hn]

/-- The two powers compare as the level compares with the threshold: the logarithms differ by a positive multiple
of the distance. -/
theorem logb_powers {a : Amp} (h : 0 < a.ms) (t : Sample) :
    0 < (a.powers t).1 ∧
    Real.logb 10 (a.powers t).1 - Real.logb 10 (a.powers t).2 = (20 * Real.logb 10 a.real - t) * t.den := by
  have hr : (0 : ℝ) < a.ms := by exact_mod_cast h
  have hn : 0 < a.ms.num.toNat := by have := Rat.num_pos.mpr h; omega
  have hnr : (0 : ℝ) < (a.ms.num.toNat : ℝ) := by exact_mod_cast hn
  have hd : (0 : ℝ) < a.ms.den := by exact_mod_cast a.ms.den_pos
  have hms : (a.ms : ℝ) = (a.ms.num.toNat : ℝ) / a.ms.den := by
    have h1 : (a.ms : ℝ) = (a.ms.num : ℝ) / a.ms.den := by
      exact_mod_cast congrArg (Rat.cast (K := ℝ)) (Rat.num_div_den a.ms).symm
    have h2 : ((a.ms.num.toNat : ℤ) : ℝ) = (a.ms.num : ℝ) := by
      rw [Int.toNat_of_nonneg (Rat.num_nonneg.mpr h.le)]
    rw [h1, ← h2, Int.cast_natCast]
  have ht : (t : ℝ) * t.den = (t.num.toNat : ℝ) - ((-t.num).toNat : ℝ) := by
    have h1 : (t : ℝ) * t.den = (t.num : ℝ) := by
      exact_mod_cast congrArg (Rat.cast (K := ℝ)) (Rat.mul_den_eq_num t)
    have h2 : t.num = (t.num.toNat : ℤ) - ((-t.num).toNat : ℤ) := by omega
    rw [h1]
    exact_mod_cast congrArg (Int.cast (R := ℝ)) h2
  refine ⟨Nat.mul_pos (Nat.pow_pos hn) (Nat.pow_pos (by decide)), ?_⟩
  simp only [Over.Amp.powers, Over.Amp.real]
  push_cast
  rw [Real.logb_mul (by positivity) (by positivity), Real.logb_mul (by positivity) (by positivity)]
  simp only [Real.logb_pow, Real.logb_self_eq_one (by norm_num : (1 : ℝ) < 10)]
  rw [Real.sqrt_eq_rpow, Real.logb_rpow_eq_mul_logb_of_pos hr, hms, Real.logb_div hnr.ne' hd.ne', sub_mul, ht]
  push_cast
  ring

/-- `dB(a) >= t` is decided as the real numbers compare. -/
theorem Over.Amp.dbGe_iff (a : Over.Amp Sample) (t : Sample) :
    a.dbGe t = true ↔ ((t : ℝ) : WithBot ℝ) ≤ dBReal a.real := by
  rw [Over.Amp.dbGe, decide_eq_true_iff]
  rcases le_or_gt a.ms 0 with h | h
  · have : a.real = 0 := Real.sqrt_eq_zero_of_nonpos (by exact_mod_cast h)
    rw [powers_fst_of_nonpos h, this, dBReal_zero]
    have := powers_snd_pos a t
    simp; omega
  · obtain ⟨hp, hl⟩ := logb_powers h t
    have hd : (0 : ℝ) < t.den := by exact_mod_cast t.den_pos
    have hq := powers_snd_pos a t
    have ha : 0 < a.real := Real.sqrt_pos.mpr (by exact_mod_cast h)
    rw [dBReal_of_pos ha, WithBot.coe_le_coe, ← Nat.cast_le (α := ℝ),
      ← Real.logb_le_logb (b := 10) (by norm_num) (by exact_mod_cast hq) (by exact_mod_cast hp)]
    constructor <;> intro hc <;> nlinarith

/-- `dB(a) <= t` is decided as the real numbers compare. -/
theorem Over.Amp.dbLe_iff (a : Over.Amp Sample) (t : Sample) :
    a.dbLe t = true ↔ dBReal a.real ≤ ((t : ℝ) : WithBot ℝ) := by
  rw [Over.Amp.dbLe, decide_eq_true_iff]
  rcases le_or_gt a.ms 0 with h | h
  · have : a.real = 0 := Real.sqrt_eq_zero_of_nonpos (by exact_mod_cast h)
    rw [powers_fst_of_nonpos h, this, dBReal_zero]
    simp
  · obtain ⟨hp, hl⟩ := logb_powers h t
    have hd : (0 : ℝ) < t.den := by exact_mod_cast t.den_pos
    have hq := powers_snd_pos a t
    have ha : 0 < a.real := Real.sqrt_pos.mpr (by exact_mod_cast h)
    rw [dBReal_of_pos ha, WithBot.coe_le_coe, ← Nat.cast_le (α := ℝ),
      ← Real.logb_le_logb (b := 10) (by norm_num) (by exact_mod_cast hp) (by exact_mod_cast hq)]
    constructor <;> intro hc <;> nlinarith

end Sys2Proof.Machine
end

