-- ==== Sys2Proof/Laws/PerInstr.lean ====
section
/-! SUPPORT. Statements made per instruction. Family OpcodeFields: the operation code fits its byte, and the
immediate of a well-formed command fits its field (R60, R62). -/

namespace Sys2Proof.Laws.OpcodeFields

open Sys2Proof

/-- The fields of R60 hold the command. -/
def Statement (i : Instr) : Prop := i.op < 2 ^ 8 ∧ (i.wf = true → i.imm < 2 ^ 24)

theorem sysReset : Statement .sysReset := ⟨by decide, fun _ => by decide⟩
theorem sysRdreg (reg : Nat) : Statement (.sysRdreg reg) :=
  ⟨by simp [Instr.op], fun h => by have := of_decide_eq_true h; simp only [Instr.imm]; omega⟩
theorem paramLoad (n : Nat) : Statement (.paramLoad n) :=
  ⟨by simp [Instr.op], fun h => of_decide_eq_true h⟩
theorem bcApplyS : Statement .bcApplyS := ⟨by decide, fun _ => by decide⟩
theorem bcApplyD : Statement .bcApplyD := ⟨by decide, fun _ => by decide⟩
theorem sfInit (preset : Nat) : Statement (.sfInit preset) :=
  ⟨by simp [Instr.op], fun h => by have := of_decide_eq_true h; simp only [Instr.imm]; omega⟩
theorem sfProc : Statement .sfProc := ⟨by decide, fun _ => by decide⟩
theorem txStart (n : Nat) : Statement (.txStart n) :=
  ⟨by simp [Instr.op], fun h => of_decide_eq_true h⟩
theorem txStop : Statement .txStop := ⟨by decide, fun _ => by decide⟩
theorem rxStart (n : Nat) : Statement (.rxStart n) :=
  ⟨by simp [Instr.op], fun h => of_decide_eq_true h⟩
theorem rxStop : Statement .rxStop := ⟨by decide, fun _ => by decide⟩
theorem rxPush : Statement .rxPush := ⟨by decide, fun _ => by decide⟩
theorem rxChunk : Statement .rxChunk := ⟨by decide, fun _ => by decide⟩
theorem prbLevel (sel : StreamSel) : Statement (.prbLevel sel) :=
  ⟨by simp [Instr.op], fun _ => by cases sel <;> decide⟩
theorem slcDecide : Statement .slcDecide := ⟨by decide, fun _ => by decide⟩
theorem statOnavg : Statement .statOnavg := ⟨by decide, fun _ => by decide⟩
theorem statOnmin : Statement .statOnmin := ⟨by decide, fun _ => by decide⟩
theorem statOnmax : Statement .statOnmax := ⟨by decide, fun _ => by decide⟩
theorem statOffavg : Statement .statOffavg := ⟨by decide, fun _ => by decide⟩
theorem statOffmin : Statement .statOffmin := ⟨by decide, fun _ => by decide⟩
theorem statOffmax : Statement .statOffmax := ⟨by decide, fun _ => by decide⟩
theorem statTotal : Statement .statTotal := ⟨by decide, fun _ => by decide⟩
theorem cmpDiff : Statement .cmpDiff := ⟨by decide, fun _ => by decide⟩

end Sys2Proof.Laws.OpcodeFields
end

