-- ==== Sys2Proof/Laws/Reference.lean ====
section
/-! SUPPORT. The machine at hand is the reference instance of NUM (R3) on rational data: reading every number of
a state as a real number and running a command commute. -/

namespace Sys2Proof

section
variable {K L : Type} (f : K → L)

@[simps] def Over.Biquad.map (c : Over.Biquad K) : Over.Biquad L := ⟨f c.b0, f c.b1, f c.b2, f c.a1, f c.a2⟩

@[simps] def Over.Config.map (c : Over.Config K) : Over.Config L where
  bcCoef := c.bcCoef.map (Over.Biquad.map f)
  sfCoef6 := c.sfCoef6.map (Over.Biquad.map f)
  sfCoef10 := c.sfCoef10.map (Over.Biquad.map f)
  sfCoef20 := c.sfCoef20.map (Over.Biquad.map f)
  txGain := f c.txGain
  pcmBits := c.pcmBits
  pcmScale := f c.pcmScale
  sampleThreshold := f c.sampleThreshold
  delimHole := c.delimHole
  coarseInit := c.coarseInit
  fineInit := c.fineInit
  devMinIn := c.devMinIn
  devMinOut := c.devMinOut

end

namespace Machine

set_option linter.unusedSectionVars false

/-! ## Reading the numbers of a state in another domain -/

section maps
variable {K L : Type} (f : K → L)

@[simps] def Over.Amp.map (a : Over.Amp K) : Over.Amp L := ⟨f a.ms⟩

def Over.Level.map : Over.Level K → Over.Level L
  | .negInf => .negInf
  | .ofMs ms => .ofMs (f ms)
  | .ofRoots rs => .ofRoots (rs.map f)

def Over.Num.map : Over.Num K → Over.Num L
  | .val q => .val (f q)
  | .level l => .level (l.map f)

def Over.Item.map : Over.Item K → Over.Item L
  | .num q => .num (f q)
  | .byte b => .byte b

abbrev Over.Frame.map (g : Over.Frame K) : Over.Frame L := List.map (Over.Item.map f) g

def Over.OutItem.map : Over.OutItem K → Over.OutItem L
  | .num v => .num (v.map f)
  | .int v => .int v
  | .byte b => .byte b

abbrev Over.OutFrame.map (g : Over.OutFrame K) : Over.OutFrame L := List.map (Over.OutItem.map f) g

def Over.Event.map : Over.Event K → Over.Event L
  | .levelRaw l => .levelRaw (l.map f)
  | .levelFilt l => .levelFilt (l.map f)
  | .syncLevel l b => .syncLevel (l.map f) b
  | .decoded ml sec on off => .decoded ml sec (on.map (Over.Amp.map f)) (off.map (Over.Amp.map f))
  | .stopReq => .stopReq
  | .fault c => .fault c

@[simps] def Over.ParamRegs.map (p : Over.ParamRegs K) : Over.ParamRegs L :=
  ⟨f p.sampleRate, f p.slotDuration, f p.bandLow, f p.bandHigh, f p.noiseFloorPower, f p.snr, p.symbolCount⟩

@[simps] def Over.DerivedRegs.map (d : Over.DerivedRegs K) : Over.DerivedRegs L where
  samplesPerSlot := d.samplesPerSlot
  samplesPerSymbol := d.samplesPerSymbol
  samplesPerDelimiter := d.samplesPerDelimiter
  samplesPerFrame := d.samplesPerFrame
  thresholdHigh := f d.thresholdHigh
  thresholdLow := f d.thresholdLow
  accumulationBufferSize := d.accumulationBufferSize

@[simps] def Over.ParamUnit.map (p : Over.ParamUnit K) : Over.ParamUnit L := ⟨p.valid, p.p.map f, p.d.map f⟩

@[simps] def Over.SecState.map (st : Over.SecState K) : Over.SecState L := ⟨f st.x1, f st.x2, f st.y1, f st.y2⟩

@[simps] def Over.StreamFilter.map (g : Over.StreamFilter K) : Over.StreamFilter L :=
  ⟨g.preset, g.st.map (Over.SecState.map f)⟩

@[simps] def Over.TxUnit.map (t : Over.TxUnit K) : Over.TxUnit L := ⟨t.bits, t.stop, t.chunk, t.state, t.buf.map f⟩

@[simps] def Over.RxUnit.map (r : Over.RxUnit K) : Over.RxUnit L where
  buf := r.buf.map f
  cursor := r.cursor
  full := r.full
  chunk := r.chunk
  state := r.state
  stop := r.stop
  syn := r.syn
  synValid := r.synValid
  tseq := r.tseq
  refd := r.refd
  refs := r.refs
  prof := r.prof

@[simps] def Over.SlotInfo.map (i : Over.SlotInfo K) : Over.SlotInfo L :=
  ⟨i.onPowers.map (Over.Amp.map f), i.offPowers.map (Over.Amp.map f), i.valid, i.mlStr, i.secStr⟩

@[simps] def Over.Ports.map (p : Over.Ports K) : Over.Ports L :=
  ⟨p.din.map (Over.Frame.map f), p.status, p.dout.map (Over.OutFrame.map f), p.evt.map (Over.Event.map f), p.sink⟩

def Over.Turn.map : Over.Turn K → Over.Turn L
  | .cmd w din => .cmd w (din.map (Over.Frame.map f))
  | .rep r => .rep r

@[simps] def Over.NoisePort.map (n : Over.NoisePort K) : Over.NoisePort L := ⟨n.pending.map f, n.taken⟩

@[simps] def Over.Env.map (e : Over.Env K) : Over.Env L := ⟨e.agenda.map (Over.Turn.map f), e.noise.map f, e.escapes⟩

/-- A state with every number read in another domain. -/
@[simps] def Over.State.map (s : Over.State K) : Over.State L where
  cfg := s.cfg.map f
  param := s.param.map f
  bcSt := s.bcSt.map (Over.SecState.map f)
  sf := s.sf.map f
  tx := s.tx.map f
  rx := s.rx.map f
  slc := s.slc.map f
  halted := s.halted
  faultCode := s.faultCode
  io := s.io.map f
  env := s.env.map f

def Over.Stage.map : Over.Stage K → Over.Stage L
  | .done s => .done (s.map f)
  | .raised s => .raised (s.map f)

@[simps] def Over.SymbolResult.map (r : Over.SymbolResult K) : Over.SymbolResult L := ⟨r.ml, r.sec, r.on.map f, r.off.map f⟩

def mapResult : Over.Result K → Over.Result L
  | .next s => .next (s.map f)
  | .fault x => .fault x
  | .refused x => .refused x

end maps

/-! ## Embeddings of numeric domains -/

variable {K L : Type} [Field K] [LinearOrder K] [FloorRing K] [Inhabited K]
  [Field L] [LinearOrder L] [FloorRing L] [Inhabited L]

/-- `f` carries one numeric domain into another: the field, the order, `floor`, and what a Numeric decides. -/
structure Embeds (f : K →+* L) (N : Numeric K) (N' : Numeric L) : Prop where
  lt : ∀ x y, f x < f y ↔ x < y
  abs : ∀ x, |f x| = f |x|
  floor : ∀ x, ⌊f x⌋ = ⌊x⌋
  ceil : ∀ x, ⌈f x⌉ = ⌈x⌉
  dbGe : ∀ a t, N'.dbGe (a.map f) (f t) = N.dbGe a t
  dbLe : ∀ a t, N'.dbLe (a.map f) (f t) = N.dbLe a t
  root : ∀ q, N'.root (f q) = (N.root q).map f

variable {f : K →+* L} {N : Numeric K} {N' : Numeric L}

namespace Embeds

theorem le (h : Embeds f N N') (x y : K) : f x ≤ f y ↔ x ≤ y := by
  rw [← not_lt, ← not_lt, h.lt]

end Embeds

/-! ## Responses, events, exceptions -/

theorem respond_map (frames : List (Over.OutFrame K)) (s : Over.State K) :
    respond (frames.map (Over.OutFrame.map f)) (s.map f) = mapResult f (respond frames s) := rfl

theorem emit_map (e : Over.Event K) (s : Over.State K) :
    emit (e.map f) (s.map f) = (emit e s).map f := by
  simp [emit, Over.State.map, Over.Ports.map]

theorem takeException_map (x : Exc) (s : Over.State K) :
    takeException x (s.map f) = (takeException x s).map f := by
  cases x <;> simp [takeException, Exc.record, emit, Over.State.map, Over.Ports.map, Over.Event.map]

theorem raise_map (x : Exc) (s : Over.State K) : raise x (s.map f) = mapResult f (raise x s) := by
  simp [raise, mapResult, takeException_map]

theorem unlessHalted_map (s : Over.State K) (body : Over.Result K) :
    unlessHalted (s.map f) (mapResult f body) = mapResult f (unlessHalted s body) := by
  unfold unlessHalted
  simp only [Over.State.map_halted, raise_map]
  split <;> rfl

theorem unlessPayload_map (s : Over.State K) (body : Over.Result K) :
    unlessPayload (s.map f) (mapResult f body) = mapResult f (unlessPayload s body) := by
  unfold unlessPayload
  cases h : s.io.din with
  | nil => simp [h]
  | cons a as => simp [h, raise_map]

/-! ## Payloads -/

theorem numFrame_map (g : Over.Frame K) : numFrame (Over.Frame.map f g) = (numFrame g).map (List.map f) := by
  induction g with
  | nil => rfl
  | cons a g ih =>
    cases a with
    | num q =>
      have : numFrame (Over.Frame.map f (.num q :: g)) = (numFrame (Over.Frame.map f g)).map (f q :: ·) := rfl
      rw [this, ih]
      simp only [numFrame, Option.map_map]
      rfl
    | byte b => rfl

theorem byteFrame_map (g : Over.Frame K) : byteFrame (Over.Frame.map f g) = byteFrame g := by
  induction g with
  | nil => rfl
  | cons a g ih =>
    cases a with
    | num q => rfl
    | byte b =>
      have : byteFrame (Over.Frame.map f (.byte b :: g)) = (byteFrame (Over.Frame.map f g)).map (b :: ·) := rfl
      rw [this, ih]
      rfl

theorem oneNumFrame_map (din : List (Over.Frame K)) :
    oneNumFrame (din.map (Over.Frame.map f)) = (oneNumFrame din).map (List.map f) := by
  match din with
  | [] => rfl
  | [g] => exact numFrame_map g
  | _ :: _ :: _ => rfl

theorem oneChunk_map (din : List (Over.Frame K)) :
    oneChunk (din.map (Over.Frame.map f)) = (oneChunk din).map (List.map f) := by
  unfold oneChunk
  rw [oneNumFrame_map]
  cases oneNumFrame din with
  | none => rfl
  | some xs => cases xs <;> rfl

theorem oneByteFrame_map (din : List (Over.Frame K)) :
    oneByteFrame (din.map (Over.Frame.map f)) = oneByteFrame din := by
  match din with
  | [] => rfl
  | [g] => exact byteFrame_map g
  | _ :: _ :: _ => rfl

theorem twoByteFrames_map (din : List (Over.Frame K)) :
    twoByteFrames (din.map (Over.Frame.map f)) = twoByteFrames din := by
  match din with
  | [] => rfl
  | [_] => rfl
  | [g, g'] => simp [twoByteFrames, byteFrame_map]
  | _ :: _ :: _ :: _ => rfl

theorem numItems_map (xs : List K) : numItems (xs.map f) = Over.OutFrame.map f (numItems xs) := by
  simp [numItems, Over.OutFrame.map, Over.OutItem.map, Over.Num.map]

/-! ## Amplitudes and levels -/

theorem rms_map (xs : List K) : rms (xs.map f) = (rms xs).map f := by
  simp only [rms, Over.Amp.map, List.length_map, List.map_map, map_div₀, map_natCast, map_list_sum]
  congr 3
  simp [Function.comp_def]

theorem Over.Amp.dB_map (a : Over.Amp K) : (a.map f).dB = a.dB.map f := by
  simp only [Over.Amp.dB, Over.Amp.map_ms, map_eq_zero]
  split <;> rfl

theorem ofLinear_map (x : K) : Amp.ofLinear (f x) = (Amp.ofLinear x).map f := by
  simp [Amp.ofLinear, Over.Amp.map]

theorem Over.Amp.dbGt_map (h : Embeds f N N') (a b : Over.Amp K) : (a.map f).dbGt (b.map f) = a.dbGt b := by
  simp [Over.Amp.dbGt, h.lt]

theorem Over.Amp.max_map (h : Embeds f N N') (a b : Over.Amp K) : (a.map f).max (b.map f) = (a.max b).map f := by
  simp only [Over.Amp.max, Over.Amp.map_ms, h.lt]
  split <;> rfl

theorem Over.Amp.min_map (h : Embeds f N N') (a b : Over.Amp K) : (a.map f).min (b.map f) = (a.min b).map f := by
  simp only [Over.Amp.min, Over.Amp.map_ms, h.lt]
  split <;> rfl

theorem foldl_map_comm {α β : Type} (g : α → β) (op : α → α → α) (op' : β → β → β)
    (hop : ∀ a b, op' (g a) (g b) = g (op a b)) (a : α) (as : List α) :
    (as.map g).foldl op' (g a) = g (as.foldl op a) := by
  induction as generalizing a with
  | nil => rfl
  | cons b bs ih => simp only [List.map_cons, List.foldl_cons, hop, ih]

theorem maxAmp_map (h : Embeds f N N') (as : List (Over.Amp K)) :
    maxAmp (as.map (Over.Amp.map f)) = (maxAmp as).map f := by
  cases as with
  | nil => simp [maxAmp, Over.Amp.map]
  | cons a as => exact foldl_map_comm _ _ _ (Over.Amp.max_map h) a as

theorem minAmp_map (h : Embeds f N N') (as : List (Over.Amp K)) :
    minAmp (as.map (Over.Amp.map f)) = (minAmp as).map f := by
  cases as with
  | nil => simp [minAmp, Over.Amp.map]
  | cons a as => exact foldl_map_comm _ _ _ (Over.Amp.min_map h) a as

theorem sameClass_map (h : Embeds f N N') (q r : K) : sameClass N' (f q) (f r) = sameClass N q r := by
  simp only [sameClass, ← map_div₀, h.root, Option.isSome_map]

theorem mergeRoots_map (h : Embeds f N N') (q r : K) : mergeRoots N' (f q) (f r) = f (mergeRoots N q r) := by
  simp only [mergeRoots, ← map_div₀, h.root]
  cases N.root (r / q) <;> simp

theorem orderedInsert_map (h : Embeds f N N') (q : K) (rs : List K) :
    (rs.map f).orderedInsert (· ≤ ·) (f q) = (rs.orderedInsert (· ≤ ·) q).map f := by
  induction rs with
  | nil => rfl
  | cons r rs ih =>
    simp only [List.map_cons, List.orderedInsert, h.le, ih]
    split <;> rfl

theorem addRoot_map (h : Embeds f N N') (q : K) (rs : List K) :
    addRoot N' (f q) (rs.map f) = (addRoot N q rs).map f := by
  have hf : (rs.map f).find? (sameClass N' (f q)) = (rs.find? (sameClass N q)).map f := by
    rw [List.find?_map]
    congr 1
    congr 1
    funext r
    exact sameClass_map h q r
  unfold addRoot
  rw [hf]
  simp only [map_eq_zero]
  split
  · rfl
  · cases rs.find? (sameClass N q) with
    | none => exact orderedInsert_map h q rs
    | some r =>
      simp only [Option.map_some]
      rw [mergeRoots_map h, ← List.map_erase f.injective, orderedInsert_map h]

theorem sumRoots_map (h : Embeds f N N') (qs : List K) : sumRoots N' (qs.map f) = (sumRoots N qs).map f := by
  have key : ∀ acc : List K, (qs.map f).foldl (fun acc q => addRoot N' q acc) (acc.map f) =
      (qs.foldl (fun acc q => addRoot N q acc) acc).map f := by
    induction qs with
    | nil => exact fun _ => rfl
    | cons q qs ih => intro acc; simp only [List.map_cons, List.foldl_cons, addRoot_map h, ih]
  exact key []

theorem dbOfRoots_map (rs : List K) : dbOfRoots (rs.map f) = (dbOfRoots rs).map f := by
  match rs with
  | [] => rfl
  | [_] => rfl
  | _ :: _ :: _ => rfl

theorem avgTerms_map (as : List (Over.Amp K)) :
    avgTerms (as.map (Over.Amp.map f)) = (avgTerms as).map f := by
  simp [avgTerms]

theorem dbAvg_map (h : Embeds f N N') (as : List (Over.Amp K)) :
    dbAvg N' (as.map (Over.Amp.map f)) = (dbAvg N as).map f := by
  rw [dbAvg, avgTerms_map, sumRoots_map h, dbOfRoots_map]; rfl

theorem dbTotal_map (h : Embeds f N N') (on off : List (Over.Amp K)) :
    dbTotal N' (on.map (Over.Amp.map f)) (off.map (Over.Amp.map f)) = (dbTotal N on off).map f := by
  have : ((avgTerms on).map f ++ (avgTerms off).map f).map (fun q => q / 4) =
      ((avgTerms on ++ avgTerms off).map fun q => q / 4).map f := by
    simp [Function.comp_def, map_div₀, map_ofNat f 4]
  rw [dbTotal, avgTerms_map, avgTerms_map, this, sumRoots_map h, dbOfRoots_map]; rfl

/-! ## Filters -/

theorem bqStep_map (c : Over.Biquad K) (st : Over.SecState K) (x : K) :
    bqStep (c.map f) (st.map f) (f x) = ((bqStep c st x).1.map f, f (bqStep c st x).2) := by
  simp [bqStep, Over.Biquad.map, Over.SecState.map]

theorem cascadeStep_map (cs : List (Over.Biquad K)) (sts : List (Over.SecState K)) (x : K) :
    cascadeStep (cs.map (Over.Biquad.map f)) (sts.map (Over.SecState.map f)) (f x) =
      ((cascadeStep cs sts x).1.map (Over.SecState.map f), f (cascadeStep cs sts x).2) := by
  induction cs generalizing sts x with
  | nil => cases sts <;> rfl
  | cons c cs ih => cases sts with
    | nil => rfl
    | cons st sts => simp only [List.map_cons, cascadeStep, bqStep_map, ih]

theorem cascadeRun_map (cs : List (Over.Biquad K)) (sts : List (Over.SecState K)) (xs : List K) :
    cascadeRun (cs.map (Over.Biquad.map f)) (sts.map (Over.SecState.map f)) (xs.map f) =
      ((cascadeRun cs sts xs).1.map (Over.SecState.map f), (cascadeRun cs sts xs).2.map f) := by
  induction xs generalizing sts with
  | nil => rfl
  | cons x xs ih => simp only [List.map_cons, cascadeRun, cascadeStep_map, ih]

theorem cleared_map : (SecState.cleared : Over.SecState K).map f = SecState.cleared := by
  simp [SecState.cleared, Over.SecState.map]

theorem sectionsAfter_map {n : Nat} (cs : List (Over.Biquad K)) (st : Vector (Over.SecState K) n)
    (xs : List K) :
    sectionsAfter (cs.map (Over.Biquad.map f)) (st.map (Over.SecState.map f)) (xs.map f) =
      (sectionsAfter cs st xs).map (Over.SecState.map f) := by
  apply Vector.toList_inj.mp
  simp only [sectionsAfter, Vector.toList_map, cascadeRun_map]
  simp [Vector.toList]

theorem bcApply_map (cfg : Over.Config K) (xs : List K) :
    bcApply (cfg.map f) (xs.map f) =
      ((bcApply cfg xs).1.map (Over.SecState.map f), (bcApply cfg xs).2.map f) := by
  have hc : (Vector.replicate 8 SecState.cleared : Vector (Over.SecState L) 8) =
      (Vector.replicate 8 SecState.cleared : Vector (Over.SecState K) 8).map (Over.SecState.map f) := by
    rw [Vector.map_replicate, cleared_map]
  simp only [bcApply, Over.Config.map_bcCoef, hc, Vector.toList_map, sectionsAfter_map, cascadeRun_map]

theorem sfCoef_map (cfg : Over.Config K) (p : Preset) :
    (cfg.map f).sfCoef p = (cfg.sfCoef p).map (Over.Biquad.map f) := by
  cases p <;> exact Vector.toList_map ..

theorem sfProcess_map (cfg : Over.Config K) (sf : Over.StreamFilter K) (xs : List K) :
    sfProcess (cfg.map f) (sf.map f) (xs.map f) =
      ((sfProcess cfg sf xs).1.map f, (sfProcess cfg sf xs).2.map f) := by
  simp only [sfProcess, Over.StreamFilter.map, sfCoef_map, Vector.toList_map, sectionsAfter_map,
    cascadeRun_map]

/-! ## Parameters -/

theorem roundHalfUp_map (h : Embeds f N N') (q : K) : roundHalfUp (f q) = roundHalfUp q := by
  have : f q + 1 / 2 = f (q + 1 / 2) := by simp [map_ofNat f 2]
  rw [roundHalfUp, this, h.floor, roundHalfUp]

theorem deriveFrom_map (h : Embeds f N N') (p : Over.ParamRegs K) :
    deriveFrom (p.map f) = (deriveFrom p).map f := by
  simp only [deriveFrom, derive, Over.ParamRegs.map, Over.DerivedRegs.map, ← map_mul, roundHalfUp_map h,
    Config.threshOffsetDb, map_add, map_ofNat]

theorem paramsValid_map (h : Embeds f N N') (p : Over.ParamRegs K) (d : Over.DerivedRegs K) :
    paramsValid (p.map f) (d.map f) = paramsValid p d := by
  have pos : ∀ x : K, 0 < f x ↔ 0 < x := fun x => by rw [← map_zero f, h.lt]
  rw [Bool.eq_iff_iff]
  simp [paramsValid, pos]

theorem paramPayload_map (n : Nat) (din : List (Over.Frame K)) :
    paramPayload n (din.map (Over.Frame.map f)) = (paramPayload n din).map (Over.ParamRegs.map f) := by
  unfold paramPayload
  rw [oneNumFrame_map]
  match oneNumFrame din with
  | none | some [] | some [_] | some [_, _] | some [_, _, _] | some [_, _, _, _] | some [_, _, _, _, _]
  | some [_, _, _, _, _, _] | some (_ :: _ :: _ :: _ :: _ :: _ :: _ :: _) => rfl

/-! ## Slicer -/

theorem slice_map {α β : Type} (g : α → β) (xs : List α) (lo hi : Nat) :
    slice (xs.map g) lo hi = (slice xs lo hi).map g := by
  simp [slice, List.map_take, List.map_drop]

theorem mlBit_map (h : Embeds f N N') (a b : Over.Amp K) : mlBit (a.map f) (b.map f) = mlBit a b :=
  Over.Amp.dbGt_map h a b

theorem secureBit_map (h : Embeds f N N') (d : Over.DerivedRegs K) (a b : Over.Amp K) :
    secureBit N' (d.map f) (a.map f) (b.map f) = secureBit N d a b := by
  simp only [secureBit, Over.DerivedRegs.map, h.dbGe, h.dbLe]

theorem sliceSymbol_map (h : Embeds f N N') (d : Over.DerivedRegs K) (a b : Over.Amp K) :
    sliceSymbol N' (d.map f) (a.map f) (b.map f) = (sliceSymbol N d a b).map f := by
  simp only [sliceSymbol, Over.SymbolResult.map, mlBit_map h, secureBit_map h, Over.Amp.max_map h,
    Over.Amp.min_map h]

theorem demodSymbol_map (h : Embeds f N N') (d : Over.DerivedRegs K) (buf : List K) (delay i : Nat) :
    demodSymbol N' (d.map f) (buf.map f) delay i = (demodSymbol N d buf delay i).map f := by
  have h1 : ∀ start, firstPower (d.map f) (buf.map f) start = (firstPower d buf start).map f := fun start => by
    simp only [firstPower, slice_map, rms_map, Over.DerivedRegs.map_samplesPerSlot]
  have h2 : ∀ start, secondPower (d.map f) (buf.map f) start = (secondPower d buf start).map f := fun start => by
    simp only [secondPower, slice_map, rms_map, Over.DerivedRegs.map_samplesPerSlot,
      Over.DerivedRegs.map_samplesPerSymbol]
  simp only [demodSymbol, h1, h2, sliceSymbol_map h, Over.DerivedRegs.map_samplesPerSymbol]

theorem demodulate_map (h : Embeds f N N') (d : Over.DerivedRegs K) (n : Nat) (buf : List K) (delay : Nat) :
    demodulate N' (d.map f) n (buf.map f) delay =
      (demodulate N d n buf delay).map (Over.SymbolResult.map f) := by
  simp only [demodulate, List.map_map]
  exact List.map_congr_left fun i _ => demodSymbol_map h d buf delay i

/-! ## Correlator -/

theorem thresholded_map (h : Embeds f N N') (thr : K) (buf : List K) :
    thresholded (f thr) (buf.map f) = thresholded thr buf := by
  simp only [thresholded, List.map_map]
  exact List.map_congr_left fun x _ => by simp only [Function.comp, h.abs, h.lt]

theorem coarseSync_map (h : Embeds f N N') (cfg : Over.Config K) (d : Over.DerivedRegs K) (buf : List K) :
    coarseSync (cfg.map f) (d.map f) (buf.map f) = coarseSync cfg d buf := by
  simp only [coarseSync, Over.Config.map, Over.DerivedRegs.map, thresholded_map h]

theorem fineSync_map (cfg : Over.Config K) (d : Over.DerivedRegs K) (n : Nat) (c : Coarse) :
    fineSync (cfg.map f) (d.map f) n c = fineSync cfg d n c := rfl

theorem outOfRange_map (d : Over.DerivedRegs K) (c : Coarse) : c.outOfRange (d.map f) = c.outOfRange d := rfl

/-! ## The receiver -/

theorem afterCoarse_map (c : Coarse) (s : Over.State K) : afterCoarse c (s.map f) = (afterCoarse c s).map f := rfl

theorem afterFine_map (g : Fine) (syms : List (Over.SymbolResult K)) (s : Over.State K) :
    afterFine g (syms.map (Over.SymbolResult.map f)) (s.map f) = (afterFine g syms s).map f := by
  simp [afterFine, Over.State.map, Over.SlotInfo.map, Over.RxUnit.map, Function.comp_def]

theorem decodedEvent_map (i : Over.SlotInfo K) : decodedEvent (i.map f) = (decodedEvent i).map f := rfl

theorem finish_map (h : Embeds f N N') (s : Over.State K) : finish N' (s.map f) = (finish N s).map f := by
  simp only [finish, Over.State.map_cfg, Over.State.map_param, Over.State.map_rx, Over.ParamUnit.map_d,
    Over.ParamUnit.map_p, Over.ParamRegs.map_symbolCount, Over.RxUnit.map_buf, coarseSync_map h, fineSync_map,
    outOfRange_map, demodulate_map h, afterCoarse_map, afterFine_map]
  split
  · rw [takeException_map]; rfl
  · rw [show (Over.Event.stopReq : Over.Event L) = Over.Event.map f .stopReq from rfl,
      Over.State.map_slc, decodedEvent_map, emit_map, emit_map]; rfl

theorem writeSlice_map {α β : Type} (g : α → β) (xs : List α) (pos : Nat) (c : List α) :
    writeSlice (xs.map g) pos (c.map g) = (writeSlice xs pos c).map g := by
  simp [writeSlice, List.map_take, List.map_drop]

theorem chunkStage_map (h : Embeds f N N') (c : List K) (s : Over.State K) :
    chunkStage N' (c.map f) (s.map f) = (chunkStage N c s).map f := by
  have he : emit (.syncLevel (rms (c.map f)).dB (N'.dbGe (rms (c.map f)) (s.map f).param.d.thresholdHigh))
      (s.map f) =
      (emit (.syncLevel (rms c).dB (N.dbGe (rms c) s.param.d.thresholdHigh)) s).map f := by
    rw [← emit_map, rms_map, Over.Amp.dB_map]
    simp only [Over.State.map_param, Over.ParamUnit.map_d, Over.DerivedRegs.map_thresholdHigh, h.dbGe]
    rfl
  have hw : spacesSound (s.map f) = spacesSound s := by
    simp [spacesSound, Over.DerivedRegs.sound]
  simp only [chunkStage, he]
  simp only [hw, Over.State.map_rx, Over.RxUnit.map_state, Over.State.map_param, Over.ParamUnit.map_d,
    Over.DerivedRegs.map_accumulationBufferSize, Over.RxUnit.map_cursor, List.length_map, finish_map h]
  generalize emit _ s = e
  cases s.rx.state
  · rfl
  · dsimp only
    split
    · exact congrArg _ (takeException_map (f := f) .range { e with rx := { s.rx with full := true, state := .done } })
    · split
      · rfl
      · simp [Over.Stage.map, Over.State.map, Over.RxUnit.map, writeSlice_map]
  · rfl

theorem endStage_map (frames : List (Over.OutFrame K)) (g : Over.Stage K) :
    endStage (frames.map (Over.OutFrame.map f)) (g.map f) = mapResult f (endStage frames g) := by
  cases g <;> rfl

theorem pushStages_map (c : List K) (s : Over.State K) :
    pushStages (c.map f) (s.map f) = (pushStages c s).map f := by
  simp only [pushStages, Over.State.map_cfg, Over.State.map_sf, sfProcess_map, rms_map, Over.Amp.dB_map]
  have h1 : emit (.levelRaw ((rms c).dB.map f)) (s.map f) = (emit (.levelRaw (rms c).dB) s).map f :=
    emit_map (f := f) (.levelRaw (rms c).dB) s
  simp only [h1]
  exact emit_map (f := f) (.levelFilt (rms (sfProcess s.cfg s.sf c).2).dB)
    { emit (.levelRaw (rms c).dB) s with sf := (sfProcess s.cfg s.sf c).1 }

/-! ## The commands -/

theorem afterReset_map (s : Over.State K) : afterReset (s.map f) = (afterReset s).map f := by
  simp [afterReset, State.poweredOn, Over.State.map, Over.ParamUnit.map, Over.ParamRegs.map,
    Over.DerivedRegs.map, Over.StreamFilter.map, Over.TxUnit.map, Over.RxUnit.map, Over.SlotInfo.map,
    cleared_map]

theorem needs_map (ok : Bool) (v : Over.OutItem K) :
    needs ok (v.map f) = (needs ok v).map (Over.OutItem.map f) := by
  unfold needs
  split <;> rfl

theorem readReg_map (s : Over.State K) (reg : Nat) :
    readReg (s.map f) reg = (readReg s reg).map (Over.OutItem.map f) := by
  unfold readReg
  split <;> first
    | rfl
    | exact needs_map (f := f) _ (numReg _)
    | exact needs_map (f := f) _ (natReg _)
    | exact needs_map (f := f) _ (.int _)

theorem execSysRdreg_map (reg : Nat) (s : Over.State K) :
    execSysRdreg reg (s.map f) = mapResult f (execSysRdreg reg s) := by
  rw [execSysRdreg, execSysRdreg, ← unlessHalted_map, ← unlessPayload_map, readReg_map]
  cases readReg s reg with
  | error x => simp only [Except.map, raise_map]
  | ok v => rfl

theorem execSysReset_map (s : Over.State K) : execSysReset (s.map f) = mapResult f (execSysReset s) := by
  rw [execSysReset, execSysReset, ← respond_map, afterReset_map]
  rfl

theorem execParamLoad_map (h : Embeds f N N') (n : Nat) (s : Over.State K) :
    execParamLoad n (s.map f) = mapResult f (execParamLoad n s) := by
  rw [execParamLoad, execParamLoad, ← unlessHalted_map]
  simp only [Over.State.map_io, Over.Ports.map_din, paramPayload_map, Over.State.map_param,
    Over.ParamUnit.map_valid]
  cases paramPayload n s.io.din with
  | none => simp only [Option.map_none, raise_map]
  | some p =>
    simp only [Option.map_some, deriveFrom_map h, paramsValid_map h, raise_map]
    congr 1
    split
    · rfl
    · split <;> rfl

theorem batchApply_map (s : Over.State K) : batchApply (s.map f) = mapResult f (batchApply s) := by
  rw [batchApply, batchApply, ← unlessHalted_map]
  simp only [Over.State.map_io, Over.Ports.map_din, oneNumFrame_map, Over.State.map_cfg]
  cases oneNumFrame s.io.din with
  | none => simp only [Option.map_none, raise_map]
  | some buf => simp only [Option.map_some, bcApply_map, numItems_map]; rfl

theorem execSfInit_map (preset : Nat) (s : Over.State K) :
    execSfInit preset (s.map f) = mapResult f (execSfInit preset s) := by
  rw [execSfInit, execSfInit, ← unlessHalted_map]
  cases presetOf preset with
  | none => simp only [raise_map]
  | some p =>
    simp only [← unlessPayload_map]
    congr 2
    simp [respond, mapResult, Over.State.map, Over.StreamFilter.map, cleared_map, Over.Ports.map]

theorem execSfProc_map (s : Over.State K) : execSfProc (s.map f) = mapResult f (execSfProc s) := by
  rw [execSfProc, execSfProc, ← unlessHalted_map]
  simp only [Over.State.map_io, Over.Ports.map_din, oneNumFrame_map, Over.State.map_cfg, Over.State.map_sf]
  cases oneNumFrame s.io.din with
  | none => simp only [Option.map_none, raise_map]
  | some buf => simp only [Option.map_some, sfProcess_map, numItems_map]; rfl

theorem execTxStart_map (n : Nat) (s : Over.State K) :
    execTxStart n (s.map f) = mapResult f (execTxStart n s) := by
  rw [execTxStart, execTxStart, ← unlessHalted_map]
  simp only [Over.State.map_io, Over.Ports.map_din, oneByteFrame_map, Over.State.map_cfg, Over.State.map_param,
    Over.ParamUnit.map_valid, Over.State.map_tx, Over.TxUnit.map_state, Over.Config.map_devMinOut,
    Over.ParamUnit.map_p, Over.ParamRegs.map_symbolCount, raise_map]
  congr 1
  cases oneByteFrame s.io.din with
  | none => rfl
  | some data => dsimp only; split_ifs <;> rfl

theorem execTxStop_map (s : Over.State K) : execTxStop (s.map f) = mapResult f (execTxStop s) := by
  rw [execTxStop, execTxStop, ← unlessHalted_map, ← unlessPayload_map]; rfl

theorem execRxStart_map (n : Nat) (s : Over.State K) :
    execRxStart n (s.map f) = mapResult f (execRxStart n s) := by
  rw [execRxStart, execRxStart, ← unlessHalted_map, ← unlessPayload_map]
  simp only [Over.State.map_cfg, Over.State.map_param, Over.ParamUnit.map_valid, Over.Config.map_devMinIn,
    raise_map]
  congr 2
  split_ifs
  · rfl
  · rfl
  · rfl
  · simp [respond, mapResult, Over.State.map, Over.RxUnit.map, Over.SlotInfo.map, Over.Ports.map]

theorem execRxStop_map (s : Over.State K) : execRxStop (s.map f) = mapResult f (execRxStop s) := by
  rw [execRxStop, execRxStop, ← unlessHalted_map, ← unlessPayload_map]; rfl

theorem rxChunk_map (h : Embeds f N N') (s : Over.State K) :
    rxChunk N' (s.map f) = mapResult f (rxChunk N s) := by
  rw [rxChunk, rxChunk, ← unlessHalted_map]
  simp only [Over.State.map_io, Over.Ports.map_din, oneChunk_map, Over.State.map_rx, Over.RxUnit.map_state,
    Over.RxUnit.map_chunk, Over.RxUnit.map_stop]
  cases oneChunk s.io.din with
  | none => simp only [Option.map_none, raise_map]
  | some c =>
    simp only [Option.map_some, List.length_map, raise_map, chunkStage_map h]
    congr 1
    split_ifs
    · rfl
    · rfl
    · rfl
    · exact endStage_map [] _

theorem rxPush_map (h : Embeds f N N') (s : Over.State K) :
    rxPush N' (s.map f) = mapResult f (rxPush N s) := by
  rw [rxPush, rxPush, ← unlessHalted_map]
  simp only [Over.State.map_io, Over.Ports.map_din, oneChunk_map, Over.State.map_rx, Over.RxUnit.map_state,
    Over.RxUnit.map_chunk, Over.RxUnit.map_stop, Over.State.map_cfg, Over.State.map_sf]
  cases oneChunk s.io.din with
  | none => simp only [Option.map_none, raise_map]
  | some c =>
    simp only [Option.map_some, List.length_map, raise_map, sfProcess_map, pushStages_map, chunkStage_map h,
      numItems_map]
    congr 1
    split_ifs
    · rfl
    · rfl
    · rfl
    · exact endStage_map [numItems _] _

theorem execPrbLevel_map (sel : StreamSel) (s : Over.State K) :
    execPrbLevel sel (s.map f) = mapResult f (execPrbLevel sel s) := by
  rw [execPrbLevel, execPrbLevel, ← unlessHalted_map]
  simp only [Over.State.map_io, Over.Ports.map_din, oneChunk_map]
  cases oneChunk s.io.din with
  | none => simp only [Option.map_none, raise_map]
  | some c =>
    simp only [Option.map_some, rms_map, Over.Amp.dB_map]
    congr 1
    cases sel
    · exact congrArg (respond _) (emit_map (f := f) (.levelRaw (rms c).dB) s)
    · exact congrArg (respond _) (emit_map (f := f) (.levelFilt (rms c).dB) s)

theorem slicerFrame_map (h : Embeds f N N') (d : Over.DerivedRegs K) (x y : K) :
    slicerFrame N' (d.map f) (f x) (f y) = Over.OutFrame.map f (slicerFrame N d x y) := by
  have hmax : max (f x) (f y) = f (max x y) := by
    simp only [max_def, h.le]; split <;> rfl
  have hmin : min (f x) (f y) = f (min x y) := by
    simp only [min_def, h.le]; split <;> rfl
  simp only [slicerFrame, ofLinear_map, mlBit_map h, secureBit_map h, Over.Amp.dB_map, hmax, hmin]
  rfl

theorem slcDecide_map (h : Embeds f N N') (s : Over.State K) :
    slcDecide N' (s.map f) = mapResult f (slcDecide N s) := by
  have neg : ∀ x : K, f x < 0 ↔ x < 0 := fun x => by rw [← map_zero f, h.lt]
  rw [slcDecide, slcDecide, ← unlessHalted_map]
  simp only [Over.State.map_io, Over.Ports.map_din, oneNumFrame_map, Over.State.map_param,
    Over.ParamUnit.map_valid, Over.ParamUnit.map_d, raise_map]
  congr 1
  match oneNumFrame s.io.din with
  | none | some [] | some [_] | some (_ :: _ :: _ :: _) => rfl
  | some [x, y] =>
    simp only [Option.map_some, List.map_cons, List.map_nil, neg, slicerFrame_map h]
    split_ifs <;> rfl

theorem statistic_map (g : List (Over.Amp K) → List (Over.Amp K) → Over.Level K)
    (g' : List (Over.Amp L) → List (Over.Amp L) → Over.Level L)
    (hg : ∀ on off, g' (on.map (Over.Amp.map f)) (off.map (Over.Amp.map f)) = (g on off).map f)
    (s : Over.State K) : statistic g' (s.map f) = mapResult f (statistic g s) := by
  rw [statistic, statistic, ← unlessHalted_map, ← unlessPayload_map]
  simp only [Over.State.map_slc, Over.SlotInfo.map_valid, Over.SlotInfo.map_onPowers,
    Over.SlotInfo.map_offPowers, List.map_eq_nil_iff, hg, raise_map]
  congr 2
  split_ifs <;> rfl

theorem execCmpDiff_map (s : Over.State K) : execCmpDiff (s.map f) = mapResult f (execCmpDiff s) := by
  rw [execCmpDiff, execCmpDiff, ← unlessHalted_map]
  simp only [Over.State.map_io, Over.Ports.map_din, twoByteFrames_map, raise_map]
  congr 1
  match twoByteFrames s.io.din with
  | none => rfl
  | some (a, b) => dsimp only; split_ifs <;> rfl

/-- Reading a state in a larger domain and running a command commute. -/
theorem execOver_map (h : Embeds f N N') (i : Instr) (s : Over.State K) :
    execOver N' i (s.map f) = mapResult f (execOver N i s) := by
  cases i with
  | sysReset => exact execSysReset_map s
  | sysRdreg reg => exact execSysRdreg_map reg s
  | paramLoad n => exact execParamLoad_map h n s
  | bcApplyS => exact batchApply_map s
  | bcApplyD => exact batchApply_map s
  | sfInit preset => exact execSfInit_map preset s
  | sfProc => exact execSfProc_map s
  | txStart n => exact execTxStart_map n s
  | txStop => exact execTxStop_map s
  | rxStart n => exact execRxStart_map n s
  | rxStop => exact execRxStop_map s
  | rxPush => exact rxPush_map h s
  | rxChunk => exact rxChunk_map h s
  | prbLevel sel => exact execPrbLevel_map sel s
  | slcDecide => exact slcDecide_map h s
  | statOnavg =>
    exact statistic_map (fun on _ => dbAvg N on) (fun on _ => dbAvg N' on) (fun on _ => dbAvg_map h on) s
  | statOnmin =>
    exact statistic_map (fun on _ => (minAmp on).dB) (fun on _ => (minAmp on).dB)
      (fun on _ => by rw [minAmp_map h, Over.Amp.dB_map]) s
  | statOnmax =>
    exact statistic_map (fun on _ => (maxAmp on).dB) (fun on _ => (maxAmp on).dB)
      (fun on _ => by rw [maxAmp_map h, Over.Amp.dB_map]) s
  | statOffavg =>
    exact statistic_map (fun _ off => dbAvg N off) (fun _ off => dbAvg N' off) (fun _ off => dbAvg_map h off) s
  | statOffmin =>
    exact statistic_map (fun _ off => (minAmp off).dB) (fun _ off => (minAmp off).dB)
      (fun _ off => by rw [minAmp_map h, Over.Amp.dB_map]) s
  | statOffmax =>
    exact statistic_map (fun _ off => (maxAmp off).dB) (fun _ off => (maxAmp off).dB)
      (fun _ off => by rw [maxAmp_map h, Over.Amp.dB_map]) s
  | statTotal => exact statistic_map (dbTotal N) (dbTotal N') (dbTotal_map h) s
  | cmpDiff => exact execCmpDiff_map s

/-! ## TX.REP and the step -/

theorem draw_map (np : Over.NoisePort K) (hn : np.pending ≠ []) :
    (np.map f).draw = (f np.draw.1, np.draw.2.map f) := by
  obtain ⟨pending, taken⟩ := np
  cases pending with
  | nil => exact absurd rfl hn
  | cons v vs => rfl

theorem draw_length (np : Over.NoisePort K) : np.draw.2.pending.length = np.pending.length - 1 := by
  obtain ⟨pending, taken⟩ := np
  cases pending <;> rfl

theorem noiseBurst_length (gain : K) (k : Nat) (np : Over.NoisePort K) :
    (noiseBurst gain k np).2.pending.length = np.pending.length - k := by
  induction k generalizing np with
  | zero => rfl
  | succ k ih => simp only [noiseBurst, ih, draw_length]; omega

theorem noiseBurst_map (gain : K) (k : Nat) (np : Over.NoisePort K) (hk : k ≤ np.pending.length) :
    noiseBurst (f gain) k (np.map f) =
      ((noiseBurst gain k np).1.map f, (noiseBurst gain k np).2.map f) := by
  induction k generalizing np with
  | zero => rfl
  | succ k ih =>
    have hn : np.pending ≠ [] := fun h => by simp [h] at hk
    have hl : k ≤ np.draw.2.pending.length := by rw [draw_length]; omega
    simp only [noiseBurst, draw_map np hn, ih _ hl, List.map_cons, map_mul]

theorem fillSlots_map (gain : K) (sps : Nat) (ss : List Bool) (np : Over.NoisePort K)
    (hk : ss.count true * sps ≤ np.pending.length) :
    fillSlots (f gain) sps ss (np.map f) =
      ((fillSlots gain sps ss np).1.map f, (fillSlots gain sps ss np).2.map f) := by
  induction ss generalizing np with
  | nil => rfl
  | cons b ss ih =>
    cases b with
    | false =>
      have h' : ss.count true * sps ≤ np.pending.length := by simpa using hk
      simp only [fillSlots, ih _ h', List.map_append, List.map_replicate, map_zero]
    | true =>
      have hc : (ss.count true + 1) * sps ≤ np.pending.length := by simpa using hk
      rw [Nat.add_mul, Nat.one_mul] at hc
      have h' : ss.count true * sps ≤ (noiseBurst gain sps np).2.pending.length := by
        rw [noiseBurst_length]; omega
      simp only [fillSlots, noiseBurst_map gain sps np (by omega), ih _ h', List.map_append]

theorem zeroEdges_map (w : Nat) (buf : List K) : zeroEdges w (buf.map f) = (zeroEdges w buf).map f := by
  refine List.ext_getElem? fun k => ?_
  simp only [zeroEdges, List.getElem?_mapIdx, List.getElem?_map, List.length_map, Option.map_map]
  cases buf[k]? with
  | none => rfl
  | some v =>
    simp only [Option.map_some, Function.comp]
    split <;> simp

theorem toPcm_map (h : Embeds f N N') (cfg : Over.Config K) (v : K) (e : Nat) :
    toPcm (cfg.map f) (f v) e = toPcm cfg v e := by
  have ht : ∀ x : K, truncate (f x) = truncate x := fun x => by
    have : 0 ≤ f x ↔ 0 ≤ x := by rw [← map_zero f, h.le]
    simp only [truncate, h.floor, h.ceil, this]
  simp only [toPcm, Over.Config.map_pcmScale, Over.Config.map_pcmBits, ← map_mul, ht]

theorem pcmFrame_map (h : Embeds f N N') (cfg : Over.Config K) (buf : List K) (e : Nat) :
    pcmFrame (cfg.map f) (buf.map f) e = pcmFrame cfg buf e := by
  induction buf generalizing e with
  | nil => rfl
  | cons v vs ih => simp only [List.map_cons, pcmFrame, toPcm_map h, ih]

/-- The draws of one repetition stand ready at the NOISE port. -/
def Over.State.NoiseReady (s : Over.State K) : Prop :=
  (slots s.tx.bits).count true * s.param.d.samplesPerSlot ≤ s.env.noise.pending.length

theorem repetition_map (h : Embeds f N N') (s : Over.State K) (hs : s.NoiseReady) :
    repetition (s.map f) = (repetition s).map f := by
  have hb : burstBuffer (s.map f) = ((burstBuffer s).1.map f, (burstBuffer s).2.map f) := by
    simp only [burstBuffer, Over.State.map_param, Over.ParamUnit.map_d, Over.DerivedRegs.map_samplesPerSlot,
      Over.State.map_cfg, Over.Config.map_txGain, Over.State.map_tx, Over.TxUnit.map_bits, Over.State.map_env,
      Over.Env.map_noise, fillSlots_map _ _ _ _ hs, zeroEdges_map]
  have hp : ∀ xs : List K, bandpassTwice (s.cfg.map f) (xs.map f) =
      ((bandpassTwice s.cfg xs).1.map (Over.SecState.map f), (bandpassTwice s.cfg xs).2.map f) := fun xs => by
    simp only [bandpassTwice, bcApply_map]
  simp only [repetition, hb, hp, Over.State.map_cfg, pcmFrame_map h, Over.State.map_env, Over.Env.map_escapes]
  rfl

theorem txRep_map (h : Embeds f N N') (ready : Bool) (s : Over.State K) (hs : s.NoiseReady) :
    txRep ready (s.map f) = (txRep ready s).map f := by
  simp only [txRep, repEnabled, Over.State.map_halted, Over.State.map_tx, Over.TxUnit.map_state,
    Over.TxUnit.map_stop, repetition_map h s hs]
  split_ifs <;> rfl

/-- Reading a state in a larger domain and taking a step commute; for a turn of TXLOOP, where its draws stand
ready (a free draw is a free value of each domain, log 6). -/
theorem stepOver_map (h : Embeds f N N') (s : Over.State K)
    (hs : ∀ ready rest, s.env.agenda = .rep ready :: rest → s.NoiseReady) :
    stepOver N' (s.map f) = mapResult f (stepOver N s) := by
  unfold stepOver stepWith
  simp only [Over.State.map_env, Over.Env.map_agenda]
  match ha : s.env.agenda with
  | [] => rfl
  | .rep ready :: rest =>
    have hr : Over.State.NoiseReady (popTurn rest s) := hs ready rest ha
    simp only [List.map_cons, Over.Turn.map]
    exact congrArg _ (txRep_map h ready (popTurn rest s) hr)
  | .cmd w din :: rest =>
    simp only [List.map_cons, Over.Turn.map]
    cases decode w with
    | ok i => exact execOver_map h i (present din rest s)
    | error e =>
      have := unlessHalted_map (f := f) (present din rest s) (raise .illegalCmd (present din rest s))
      rw [← raise_map] at this
      exact this

/-! ## The machine at hand and the reference instance -/

/-- The machine at hand is the block over the rationals. -/
theorem exec_eq_execOver (i : Instr) (s : State) : exec i s = execOver rationals i s := by
  cases i <;> rfl

theorem step_eq_stepOver (s : State) : step s = stepOver rationals s := by
  unfold step stepOver
  rw [funext fun i => funext (exec_eq_execOver i)]

/-- The rationals lie in the reference instance. -/
theorem rationals_embed : Embeds (Rat.castHom ℝ) rationals reals where
  lt x y := by simp
  abs x := by simp
  floor x := Rat.floor_cast x
  ceil x := Rat.ceil_cast x
  dbGe a t := by
    rw [Bool.eq_iff_iff]
    exact decide_eq_true_iff.trans (Over.Amp.dbGe_iff a t).symm
  dbLe a t := by
    rw [Bool.eq_iff_iff]
    exact decide_eq_true_iff.trans (Over.Amp.dbLe_iff a t).symm
  root q := by
    have he : ∃ r : ℚ, (r : ℝ) = Rat.castHom ℝ q := ⟨q, rfl⟩
    have hc : he.choose = q := Rat.cast_injective (α := ℝ) he.choose_spec
    simp only [reals, dif_pos he, hc]
    rfl

/-- Every number of a state of the machine at hand, read as a real number. -/
noncomputable abbrev State.asReal (s : State) : Over.State ℝ := Over.State.map (Rat.castHom ℝ) s

/-- A command of the machine at hand does to its state what the command of the reference instance (R3) does to
the same state read in the reals. -/
theorem exec_is_reference (i : Instr) (s : State) :
    execOver reals i s.asReal = mapResult (Rat.castHom ℝ) (exec i s) := by
  rw [exec_eq_execOver]
  exact execOver_map rationals_embed i s

/-- So does a step, for a turn of TXLOOP where its draws stand ready. -/
theorem step_is_reference (s : State)
    (hs : ∀ ready rest, s.env.agenda = .rep ready :: rest → Over.State.NoiseReady s) :
    stepOver reals s.asReal = mapResult (Rat.castHom ℝ) (step s) := by
  rw [step_eq_stepOver]
  exact stepOver_map rationals_embed s hs

/-- The level of a rational state, read as a level over the reals, is the extended real number it is. -/
theorem Over.Level.value_map (l : Over.Level Sample) : (l.map (Rat.castHom ℝ)).value = l.real := by
  cases l with
  | negInf => rfl
  | ofMs ms => rfl
  | ofRoots rs => simp [Over.Level.map, Over.Level.value, Over.Level.real, rootSum, Function.comp_def]

end Machine

end Sys2Proof
end

