-- ==== Sys2Proof/Tests/Slice0.lean ====
section
/-! SUPPORT. Tests of single steps against the spec's worked examples (95_test_vectors.md), decoding of
words written out from 30_encoding.md, and a witness for the hypotheses of each obligation. -/

namespace Sys2Proof.Tests

open Sys2Proof Sys2Proof.Machine

-- One theorem after the other: checked all at once they take more threads than the check's memory limit allows.
set_option Elab.async false

/-! ## Test configurations (95_test_vectors.md section 2) -/

/-- The section `ID`. -/
def passThrough : Biquad := ⟨1, 0, 0, 0, 0⟩

/-- The defaults of section 2: TC-ID, TS-ID. -/
def cfg0 : Config where
  bcCoef := Vector.replicate 8 passThrough
  sfCoef6 := Vector.replicate 3 passThrough
  sfCoef10 := Vector.replicate 5 passThrough
  sfCoef20 := Vector.replicate 10 passThrough
  txGain := 1000
  pcmBits := 16
  pcmScale := 1
  sampleThreshold := 1 / 2
  delimHole := some 0
  coarseInit := .zero
  fineInit := .zero
  devMinIn := 4
  devMinOut := 4

/-- TC-A: `(1,1,0,0,0)`, `(1,0,0,-1/2,0)`, then `ID`. -/
def tcA : Config :=
  { cfg0 with bcCoef := (cfg0.bcCoef.set 0 ⟨1, 1, 0, 0, 0⟩).set 1 ⟨1, 0, 0, -1 / 2, 0⟩ }

/-- TC-B: `(1,1,0,0,0)`, then `ID`. -/
def tcB : Config := { cfg0 with bcCoef := cfg0.bcCoef.set 0 ⟨1, 1, 0, 0, 0⟩ }

/-- TC-C: `(1/2,0,-1/2,-1,1/2)`, then `ID`. -/
def tcC : Config := { cfg0 with bcCoef := cfg0.bcCoef.set 0 ⟨1 / 2, 0, -1 / 2, -1, 1 / 2⟩ }

/-- TC-D: eight times `(1/2,1/4,1/8,-1/2,1/4)`. -/
def tcD : Config := { cfg0 with bcCoef := Vector.replicate 8 ⟨1 / 2, 1 / 4, 1 / 8, -1 / 2, 1 / 4⟩ }

/-- TS-A for ORDER6. -/
def tsA : Config :=
  { cfg0 with sfCoef6 := #v[⟨1, 1, 0, 0, 0⟩, ⟨1, 0, 0, -1 / 2, 0⟩, ⟨1, 0, 1, 0, 0⟩] }

/-- The load PA, from the table of section 2. -/
def paramsA : ParamUnit := ⟨true, ⟨10, 2 / 5, 0, 0, -40, 0, 2⟩, ⟨4, 8, 24, 16, -29, -29, 80⟩⟩

/-- The load PB. -/
def paramsB : ParamUnit := ⟨true, ⟨10, 1 / 5, 0, 0, -40, 0, 2⟩, ⟨2, 4, 12, 8, -29, -29, 40⟩⟩

/-- The load PD: thresholds 0 dB. -/
def paramsD : ParamUnit := ⟨true, ⟨10, 2 / 5, 0, 0, -11, 0, 2⟩, ⟨4, 8, 24, 16, 0, 0, 80⟩⟩

/-- `frame([1, 0], A)` with four samples a slot. -/
def frame10 (a : Sample) : List Sample :=
  List.replicate 12 a ++ List.replicate 12 0 ++ List.replicate 4 a ++ List.replicate 8 0
    ++ List.replicate 4 a

/-- `B1` of section 4.1. -/
def b1 : List Sample := List.replicate 10 0 ++ frame10 1 ++ List.replicate 30 0

/-- `B2` of section 4.2. -/
def b2 : List Sample :=
  List.replicate 10 0 ++ List.replicate 12 2 ++ List.replicate 12 0 ++ List.replicate 4 2
    ++ List.replicate 4 (1 / 2) ++ List.replicate 4 0 ++ List.replicate 4 (1 / 2)
    ++ List.replicate 30 0

/-- `B5` of section 4.5. -/
def b5 : List Sample := List.replicate 40 0 ++ frame10 1

/-- The sixth chunk of X1: 3, -4, then zeros. -/
def chunk6 : List Sample := [3, -4] ++ List.replicate 14 0

/-- After reset, under a configuration. -/
def fresh (c : Config) : State := { State.reset with cfg := c }

/-- PA loaded. -/
def loaded : State := { fresh cfg0 with param := paramsA }

/-- PA loaded and the modulator running on "10". -/
def running : State := { loaded with tx := ⟨[true, false], false, 16, .running, []⟩ }

/-- A session of 16-sample chunks whose buffer holds `buf`, filled up to `cursor`. -/
def session (buf : List Sample) (cursor : Nat) : State :=
  { loaded with rx := { loaded.rx with buf := buf, cursor := cursor, chunk := 16, state := .accumulating } }

/-- The state X1 leaves, with the results of section 4.1. -/
def decodedX1 : State :=
  { session b1 80 with
    rx :=
      { (session b1 80).rx with
        full := true, state := .done, syn := ⟨9, 18, 33, 34, 16⟩, synValid := true }
    slc := ⟨[⟨1⟩, ⟨1⟩], [⟨0⟩, ⟨0⟩], true, [0x31, 0x30], [0x31, 0x30]⟩ }

/-- A halted block (R268). -/
def stuck : State := { fresh cfg0 with halted := true, faultCode := 0x30 }

/-- SlotInformation of X2 (section 5.2): on powers 2 and 1/2, off powers 1/2 and 0. -/
def slotsX2 : State :=
  { loaded with slc := ⟨[⟨4⟩, ⟨1 / 4⟩], [⟨1 / 4⟩, ⟨0⟩], true, [0x31, 0x30], [0x31, 0x32]⟩ }

/-- What a check sees of a result that is a next state. -/
def holds (r : Result) (p : State → Bool) : Bool :=
  match r with
  | .next t => p t
  | .fault _ => false
  | .refused _ => false

/-- Status byte and frames of a result. -/
def answers (r : Result) (code : Byte) (frames : List OutFrame) : Bool :=
  holds r fun t => t.io.status == code && t.io.dout == frames

theorem of_holds {r : Result} {p : State → Bool} (h : holds r p = true) :
    ∃ t, r = .next t ∧ p t = true := by
  cases r with
  | next t => exact ⟨t, rfl, h⟩
  | fault f => cases h
  | refused f => cases h

/-! ## WellFormed: the check refuses an immediate that does not fit its field (R62) -/

theorem test_wf_rdreg : (Instr.sysRdreg (2 ^ 8)).wf = false := by decide
theorem test_wf_param : (Instr.paramLoad (2 ^ 24)).wf = false := by decide
theorem test_wf_sfInit : (Instr.sfInit 4).wf = false := by decide
theorem test_wf_txStart : (Instr.txStart (2 ^ 24)).wf = false := by decide
theorem test_wf_rxStart : (Instr.rxStart (2 ^ 24)).wf = false := by decide

/-! ## Decoding: words written out from R60 to R64, `op` in bits 31:24 and `imm` in bits 23:0 -/

theorem test_decode_system :
    decode 0b00000001_000000000000000000000000 = .ok .sysReset ∧
    decode 0b00000010_000000000000000000110001 = .ok (.sysRdreg 0x31) ∧
    decode 0b00000010_000000000000000100100000 = .error .reservedBitsSet := by decide

theorem test_decode_param :
    decode 0b00010000_000000000000000000001100 = .ok (.paramLoad 12) ∧
    decode 0b00010000_111111111111111111111111 = .ok (.paramLoad 16777215) := by decide

theorem test_decode_filters :
    decode 0b00100000_000000000000000000000000 = .ok .bcApplyS ∧
    decode 0b00100001_000000000000000000000000 = .ok .bcApplyD ∧
    decode 0b00100010_000000000000000000000010 = .ok (.sfInit 2) ∧
    decode 0b00100011_000000000000000000000000 = .ok .sfProc ∧
    decode 0b00100010_000000000000000000000100 = .error .reservedBitsSet := by decide

theorem test_decode_modulator :
    decode 0b00110000_000000000000000000010000 = .ok (.txStart 16) ∧
    decode 0b00110001_000000000000000000000000 = .ok .txStop := by decide

theorem test_decode_receiver :
    decode 0b01000000_000000000000000000010000 = .ok (.rxStart 16) ∧
    decode 0b01000001_000000000000000000000000 = .ok .rxStop ∧
    decode 0b01000010_000000000000000000000000 = .ok .rxPush ∧
    decode 0b01000011_000000000000000000000000 = .ok .rxChunk ∧
    decode 0b01000100_000000000000000000000000 = .ok (.prbLevel .raw) ∧
    decode 0b01000100_000000000000000000000001 = .ok (.prbLevel .filt) ∧
    decode 0b01000100_000000000000000000000010 = .error .reservedBitsSet ∧
    decode 0b01000101_000000000000000000000000 = .ok .slcDecide := by decide

theorem test_decode_statistics :
    decode 0b01010000_000000000000000000000000 = .ok .statOnavg ∧
    decode 0b01010001_000000000000000000000000 = .ok .statOnmin ∧
    decode 0b01010010_000000000000000000000000 = .ok .statOnmax ∧
    decode 0b01010011_000000000000000000000000 = .ok .statOffavg ∧
    decode 0b01010100_000000000000000000000000 = .ok .statOffmin ∧
    decode 0b01010101_000000000000000000000000 = .ok .statOffmax ∧
    decode 0b01010110_000000000000000000000000 = .ok .statTotal ∧
    decode 0b01011000_000000000000000000000000 = .ok .cmpDiff ∧
    decode 0b01010111_000000000000000000000000 = .error .unassignedOp := by decide

/-! ## System (sections 3.2 and 5.4) -/

/-- Section 3.2: 0x02000020 after reset answers `{0}`; 0x57000000 is refused with 0x01. -/
theorem test_step_after_reset :
    answers (step (State.reset.withFetchWord 32 0x02000020)) 0 [[.int 0]] = true ∧
    answers (step (State.reset.withFetchWord 32 0x57000000)) 0x01 [] = true := by decide +kernel

/-- Program P4, lines 9 to 13: the halted block answers 0x3F to every word but SYS.RESET's. -/
theorem test_halted_then_reset :
    answers (step (stuck.withFetchWord 32 0x57000000)) 0x3F [] = true ∧
    holds (exec .sysReset stuck) (fun t => !t.halted && t.faultCode == 0 && t.io.status == 0)
      = true := by decide +kernel

/-- Section 5.4: 0x20 reads `{0x203}` after `SF.INIT ORDER20` and `TX.START 16 ; "10"`, 0x24 reads
`{16}`. -/
theorem test_rdreg_status :
    answers (exec (.sysRdreg 0x20) { running with sf := ⟨.order20, running.sf.st⟩ }) 0 [[.int 0x203]]
      = true ∧
    answers (exec (.sysRdreg 0x24) running) 0 [[.int 16]] = true := by decide +kernel

/-- Section 5.4 after PA, and program P2's reads of 0x31 and 0x33. -/
theorem test_rdreg_map :
    answers (exec (.sysRdreg 0x01) loaded) 0 [[.num (.val (2 / 5))]] = true ∧
    answers (exec (.sysRdreg 0x14) loaded) 0 [[.num (.val (-29))]] = true ∧
    answers (exec (.sysRdreg 0x12) loaded) 0 [[.int 24]] = true ∧
    answers (exec (.sysRdreg 0x31) decodedX1) 0 [[.int 18]] = true ∧
    answers (exec (.sysRdreg 0x33) decodedX1) 0 [[.int 34]] = true ∧
    answers (exec (.sysRdreg 0x22) loaded) 0x03 [] = true ∧
    answers (exec (.sysRdreg 0x07) loaded) 0x02 [] = true := by decide +kernel

/-- R63 and R68: a payload with a command that takes none is E_OPERAND, before E_STATE (R272). SYS.RESET has no
refusal (R250): with a payload too it clears `halted`. -/
theorem test_payload_refused :
    ([.txStop, .rxStop, .statOnavg, .rxStart 16, .sfInit 0, .sysRdreg 0x20] : List Instr).all
      (fun i => answers (exec i (loaded.withDin [[]])) 0x02 []) = true ∧
    holds (exec .sysReset (stuck.withDin [bytes [0x31]])) (fun t => !t.halted && t.io.status == 0)
      = true := by decide +kernel

/-! ## PARAM.LOAD (section 3.1) -/

/-- The row of 220.5 samples a slot: the tie goes up. -/
theorem test_param_tie_goes_up :
    holds (exec (.paramLoad 12) ((fresh cfg0).withDin [nums [44100, 1 / 200, 16000, 20000, -50, 20]]))
      (fun t => t.io.status == 0 && t.param.valid
        && t.param.d == ⟨221, 442, 1326, 5304, -39, -39, 13260⟩) = true := by decide +kernel

/-- The refused rows of section 3.1. -/
theorem test_param_refusals :
    answers (exec (.paramLoad 1) ((fresh cfg0).withDin [nums [10, 1 / 10, 0, 0, 0, 0]])) 0x13 [] = true ∧
    answers (exec (.paramLoad 0) ((fresh cfg0).withDin [nums [10, 2 / 5, 0, 0, 0, 0]])) 0x13 [] = true ∧
    answers (exec (.paramLoad 16777215) ((fresh cfg0).withDin [nums [44100, 1 / 100, 0, 0, 0, 0]]))
      0x13 [] = true ∧
    answers (exec (.paramLoad 2) ((fresh cfg0).withDin [nums [10, 2 / 5, 0, 0, -40]])) 0x02 [] = true ∧
    answers (exec (.paramLoad 2) (loaded.withDin [nums [10, 2 / 5, 0, 0, -40, 0]])) 0x03 [] = true := by
  decide +kernel

/-! ## Filters (section 3.3) -/

/-- F1 and F4. -/
theorem test_bcApplyS :
    answers (exec .bcApplyS ((fresh tcA).withDin [nums [1, 0, 0, 0]])) 0
      [numItems [1, 3 / 2, 3 / 4, 3 / 8]] = true ∧
    answers (exec .bcApplyS ((fresh tcA).withDin [[]])) 0 [[]] = true := by decide +kernel

/-- F7b with the state of section 0, and F7c. -/
theorem test_bcApplyD :
    holds (exec .bcApplyD ((fresh tcC).withDin [nums [1, 2, 3, 4]]))
      (fun t => t.io.dout == [numItems [1 / 2, 3 / 2, 9 / 4, 5 / 2]]
        && t.bcSt[0] == ⟨4, 3, 5 / 2, 9 / 4⟩) = true ∧
    answers (exec .bcApplyD ((fresh tcD).withDin [nums [1, 0, 0]])) 0
      [numItems [1 / 256, 1 / 32, 1 / 8]] = true := by decide +kernel

/-- The filter states that F8 leaves. -/
def afterF8 : StreamFilter :=
  { preset := .order6
    st := (((Vector.replicate 10 SecState.cleared).set 0 ⟨0, 1, 1, 1⟩).set 1 ⟨1, 1, 3 / 2, 1⟩).set 2
      ⟨3 / 2, 1, 3 / 2, 1⟩ }

/-- F8. -/
theorem test_sfProc_from_rest :
    holds (exec .sfProc ((fresh tsA).withDin [nums [1, 0]]))
      (fun t => t.io.dout == [numItems [1, 3 / 2]] && t.sf == afterF8) = true := by decide +kernel

/-- F9, continuing F8. -/
theorem test_sfProc_keeps_state :
    holds (exec .sfProc ({ fresh tsA with sf := afterF8 }.withDin [nums [0, 0, 2]]))
      (fun t => t.io.dout == [numItems [7 / 4, 15 / 8, 47 / 16]]
        && t.sf.st[2] == ⟨35 / 16, 3 / 8, 47 / 16, 15 / 8⟩) = true := by decide +kernel

/-- F11: SF.INIT clears the state; section 3.2: preset 3 is a bad operand. -/
theorem test_sfInit :
    holds (exec (.sfInit 0) { fresh tsA with sf := afterF8 }) (fun t => t.sf == State.reset.sf) = true ∧
    answers (exec (.sfInit 3) (fresh tsA)) 0x02 [] = true := by decide +kernel

/-! ## Modulator (section 3.4) -/

/-- M3, a success and the order of the refusals. -/
theorem test_txStart :
    holds (exec (.txStart 4) (loaded.withDin [bytes [0x31, 0x30]]))
      (fun t => t.tx == ⟨[true, false], false, 4, .running, []⟩ && t.io.status == 0) = true ∧
    answers (exec (.txStart 3) (loaded.withDin [bytes [0x31, 0x78, 0x31]])) 0x10 [] = true ∧
    answers (exec (.txStart 16) (loaded.withDin [bytes [0x31, 0x78, 0x31]])) 0x11 [] = true ∧
    answers (exec (.txStart 16) (loaded.withDin [bytes [0x31, 0x78]])) 0x12 [] = true ∧
    answers (exec (.txStart 16) (running.withDin [bytes [0x31, 0x30]])) 0x03 [] = true := by
  decide +kernel

/-- M4: TX.STOP in IDLE raises the flag; a TX.REP step that sees it goes to IDLE and writes nothing. -/
theorem test_txStop :
    holds (exec .txStop loaded) (fun t => t.tx.stop && t.tx.state == .idle) = true ∧
    (txRep true { running with tx := { running.tx with stop := true } }).tx.state = .idle ∧
    (txRep true { running with tx := { running.tx with stop := true } }).io.sink = [] := by
  decide +kernel

/-- Section 3.4: `slots([1, 0])`. -/
theorem test_slots :
    slots [true, false] =
      [true, true, true, false, false, false, true, false, false, true] := by decide

/-- M1 under TC-B: the frame written. -/
theorem test_txRep_M1 :
    (txRep true
      { fresh tcB with
        param := paramsB
        tx := running.tx
        env := { State.reset.env with noise := ⟨[1, -2, 3, -4, 5, -6, 7, -8, 9, -10], 0⟩ } }).io.sink =
      [[1000, 0, 0, 0, 0, 0, -7000, -6000, 0, 0, 0, 0, 7000, 6000, -9000, -8000, 0, 0, 9000, 8000]] := by
  decide +kernel

/-- The examples of `to_pcm` at 16 bits and scale 1. -/
theorem test_toPcm :
    ([40000, -400007 / 10, 32767, 32768, -32768, -32769, 65536, 9 / 10, -9 / 10, 2 ^ 31 - 1,
        -(2 ^ 31 - 1)] : List Sample).map (fun v => (toPcm cfg0 v 0).1) =
      [-25536, 25536, 32767, -32768, -32768, 32767, 0, 0, 0, -1, 1] ∧
    (toPcm cfg0 (2 ^ 31) 0).2 = 1 := by decide +kernel

/-! ## Receiver (section 4) -/

/-- Section 4.7: 3 is below DEV_MIN_IN, 0 is no chunk size, 4 starts a session of 80 zeros. -/
theorem test_rxStart :
    answers (exec (.rxStart 3) loaded) 0x10 [] = true ∧
    answers (exec (.rxStart 0) loaded) 0x02 [] = true ∧
    holds (exec (.rxStart 4) decodedX1)
      (fun t => t.rx.buf == List.replicate 80 0 && t.rx.cursor == 0 && t.rx.state == .accumulating
        && !t.rx.synValid && !t.slc.valid && t.rx.chunk == 4) = true := by decide +kernel

/-- Section 4.1, chunk 1: cursor 16 and SYNC_LEVEL of rms √(6/16), at or above the threshold. -/
theorem test_rxChunk_first :
    holds (exec .rxChunk ((session (List.replicate 80 0) 0).withDin [nums (b1.take 16)]))
      (fun t => t.rx.cursor == 16 && t.rx.buf == b1.take 16 ++ List.replicate 64 0
        && t.io.evt == [.syncLevel (.ofMs (6 / 16)) true]) = true := by decide +kernel

/-- Section 4.1, chunk 6: the session ends with the decode of X1; STATUS is 0x8B1. -/
theorem test_rxChunk_decodes_X1 :
    holds (exec .rxChunk ((session b1 80).withDin [nums chunk6]))
      (fun t => t.rx.syn == ⟨9, 18, 33, 34, 16⟩ && statusWord t == 0x8B1
        && t.io.evt == [.syncLevel (.ofMs (25 / 16)) true,
          .decoded [0x31, 0x30] [0x31, 0x30] [⟨1⟩, ⟨1⟩] [⟨0⟩, ⟨0⟩], .stopReq]) = true := by
  decide +kernel

/-- R189 with g = 1/2: the sequence 4, 2, 6 correlates with 1, -1 to 2 at offset 0 and to -4 at offset 1, and half
of it to 1 and -2. -/
theorem test_correlator_scales_by_half :
    let t : List Sample := [4, 2, 6]
    scan .first [0, 1] (corr [1, -1] t) = (2, 0) ∧
    corr [1, -1] (t.map (1 / 2 * ·)) 1 = -2 ∧
    scan .first [0, 1] (corr [1, -1] (t.map (1 / 2 * ·))) = (1, 0) := by decide +kernel

/-- Section 4.5: the range fault; STATUS is 0x31. -/
theorem test_rxChunk_range_fault :
    holds (exec .rxChunk ((session b5 80).withDin [nums chunk6]))
      (fun t => t.io.status == 0x20 && t.faultCode == 0x20 && statusWord t == 0x31
        && t.rx.syn.argmax == 39 && t.rx.syn.delimiterEnd == 63
        && t.io.evt == [.syncLevel (.ofMs (25 / 16)) true, .fault 0x20]) = true := by decide +kernel

/-- Section 4.1, the variants of X1: `(argmax, currentMax, delay, fineMax)`. -/
theorem test_sync_variants :
    ([{ cfg0 with delimHole := none }, { cfg0 with delimHole := some 3 },
        { cfg0 with coarseInit := .first, fineInit := .first }] : List Config).map (fun c =>
      let k := coarseSync c paramsA.d b1
      let f := fineSync c paramsA.d 2 k
      (k.argmax, k.currentMax, f.delay, f.fineMax)) =
      [(10, 24, 34, 16), (10, 18, 34, 16), (9, 18, 34, 16)] := by decide +kernel

/-- Section 4.2: X2, with a secure bit '2'. -/
theorem test_decode_X2 :
    let f := fineSync cfg0 paramsD.d 2 (coarseSync cfg0 paramsD.d b2)
    f.delay = 34 ∧ f.fineMax = 8 ∧
    demodulate rationals paramsD.d 2 b2 f.delay =
      [⟨0x31, 0x31, ⟨4⟩, ⟨1 / 4⟩⟩, ⟨0x30, 0x32, ⟨1 / 4⟩, ⟨0⟩⟩] := by decide +kernel

/-- Section 4.2: X2b, a wrong answer with status 0 (R320). -/
theorem test_decode_X2b :
    let c := { cfg0 with sampleThreshold := 1 / 4 }
    let f := fineSync c paramsD.d 2 (coarseSync c paramsD.d b2)
    f.delay = 31 ∧
    (demodulate rationals paramsD.d 2 b2 f.delay).map (fun r => (r.ml, r.sec)) =
      [(0x30, 0x32), (0x31, 0x32)] := by decide +kernel

/-- Program P2, line 18: a stopped session discards the chunk and emits nothing. -/
theorem test_rxStop :
    holds (exec .rxStop (session b1 16)) (fun t => t.rx.stop && t.io.status == 0) = true ∧
    holds (exec .rxChunk
        ({ session b1 16 with rx := { (session b1 16).rx with stop := true } }.withDin [nums chunk6]))
      (fun t => t.rx.cursor == 16 && t.io.evt == [] && t.io.dout == []) = true := by decide +kernel

/-- Section 4.7: RX.PUSH under TS-A in a session of chunks of 4. -/
theorem test_rxPush :
    holds (exec .rxPush
        ({ session (List.replicate 80 0) 0 with
            cfg := tsA
            rx := { (session (List.replicate 80 0) 0).rx with chunk := 4 } }.withDin
          [nums [1, 0, 0, 0]]))
      (fun t => t.io.dout == [numItems [1, 3 / 2, 7 / 4, 15 / 8]]
        && t.rx.buf.take 5 == [1, 3 / 2, 7 / 4, 15 / 8, 0]
        && t.io.evt == [.levelRaw (.ofMs (1 / 4)), .levelFilt (.ofMs (629 / 256)),
          .syncLevel (.ofMs (629 / 256)) true]) = true := by decide +kernel

/-- Section 4.7: 7.9588 dB is the level of rms 5/2; silence is at `-inf`. -/
theorem test_prbLevel :
    holds (exec (.prbLevel .raw) ((fresh cfg0).withDin [nums [3, -4, 0, 0]]))
      (fun t => t.io.dout == [[.num (.level (.ofMs (25 / 4)))]]
        && t.io.evt == [.levelRaw (.ofMs (25 / 4))]) = true ∧
    holds (exec (.prbLevel .filt) ((fresh cfg0).withDin [nums [0, 0]]))
      (fun t => t.io.dout == [[.num (.level .negInf)]] && t.io.evt == [.levelFilt .negInf])
      = true := by decide +kernel

/-! ## Slicer, statistics, comparator (section 5) -/

/-- Section 5.1, PD: the table of SLC.DECIDE. -/
theorem test_slicer_table :
    ([(2, 1 / 2), (1 / 2, 2), (2, 2), (4, 2), (1, 1), (1, 2), (2, 1), (1 / 2, 1), (0, 0), (0, 2)] :
        List (Sample × Sample)).map (fun p =>
      (mlBit (Amp.ofLinear p.1) (Amp.ofLinear p.2),
        (secureBit rationals paramsD.d (Amp.ofLinear p.1) (Amp.ofLinear p.2)).toNat)) =
      [(true, 1), (false, 0), (false, 2), (true, 2), (false, 1), (false, 0), (true, 1), (false, 0),
        (false, 2), (false, 0)] := by decide +kernel

/-- Section 5.1: PA's threshold of -29 dB, and a negative power. -/
theorem test_slcDecide :
    answers (exec .slcDecide (loaded.withDin [nums [1 / 100, 1 / 1000]])) 0
      [[.int 1, .int 2, .num (.val (1 / 100)), .num (.val (1 / 1000)),
        .num (.level (.ofMs (1 / 10000))), .num (.level (.ofMs (1 / 1000000)))]] = true ∧
    answers (exec .slcDecide (loaded.withDin [nums [-1, 1]])) 0x02 [] = true := by decide +kernel

/-- R3: the reference instance takes the amplitude √(3/8) of section 4.1 as a power and returns it. -/
theorem test_reference_takes_irrational_power :
    ∃ t, execOver reals .slcDecide (loaded.asReal.withDin [nums [Real.sqrt (3 / 8), 0]]) = .next t ∧
      t.io.status = 0 ∧ ∃ x y z w, t.io.dout = [[x, y, .num (.val (Real.sqrt (3 / 8))), .num (.val 0), z, w]] := by
  have h : 0 ≤ Real.sqrt (3 / 8) := Real.sqrt_nonneg _
  have hn : ¬ (Real.sqrt (3 / 8) < 0 ∨ (0 : ℝ) < 0) := not_or.mpr ⟨not_lt.mpr h, lt_irrefl 0⟩
  refine ⟨_, by
    simp only [execOver, slcDecide]
    show (if _ then _ else _) = _
    rw [if_neg (by decide)]
    show (if _ then _ else _) = _
    rw [if_neg hn, if_neg (by decide)]
    rfl, rfl, _, _, _, _, by
    simp only [slicerFrame, max_eq_left h, min_eq_right h]
    rfl⟩

/-- Section 5.2, row X2: 1.9382, -6.0206 and 6.0206 dB are the levels of 5/4, 1/2 and 2. -/
theorem test_stat_on :
    answers (exec .statOnavg slotsX2) 0 [[.num (.level (.ofMs (25 / 16)))]] = true ∧
    answers (exec .statOnmin slotsX2) 0 [[.num (.level (.ofMs (1 / 4)))]] = true ∧
    answers (exec .statOnmax slotsX2) 0 [[.num (.level (.ofMs 4))]] = true := by decide +kernel

/-- Section 5.2, row X2: -12.0412 and -6.0206 dB are the levels of 1/4 and 1/2. -/
theorem test_stat_off :
    answers (exec .statOffavg slotsX2) 0 [[.num (.level (.ofMs (1 / 16)))]] = true ∧
    answers (exec .statOffmin slotsX2) 0 [[.num (.level .negInf)]] = true ∧
    answers (exec .statOffmax slotsX2) 0 [[.num (.level (.ofMs (1 / 4)))]] = true := by decide +kernel

/-- Section 5.2, row X2: -2.4988 dB is the level of 3/4; without SlotInformation the status is 0x03. -/
theorem test_stat_total :
    answers (exec .statTotal slotsX2) 0 [[.num (.level (.ofMs (9 / 16)))]] = true ∧
    answers (exec .statTotal loaded) 0x03 [] = true := by decide +kernel

/-- Section 5.3. -/
theorem test_cmpDiff :
    answers (exec .cmpDiff
        ((fresh cfg0).withDin [bytes [0x31, 0x30, 0x31, 0x31], bytes [0x31, 0x32, 0x32, 0x31]])) 0
      [[.int 2]] = true ∧
    answers (exec .cmpDiff ((fresh cfg0).withDin [[], []])) 0 [[.int 0]] = true ∧
    holds (exec .cmpDiff ((fresh cfg0).withDin [bytes [0x31, 0x30], bytes [0x31, 0x30, 0x31]]))
      (fun t => t.io.status == 0x30 && t.halted && t.faultCode == 0x30 && t.io.evt == [.fault 0x30])
      = true ∧
    answers (exec .cmpDiff ((fresh cfg0).withDin [bytes [0x31]])) 0x02 [] = true := by decide +kernel

/-! ## Witnesses: states and operands that meet the hypotheses of the obligations, clause by clause -/

theorem loaded_inv : loaded.Inv :=
  ⟨by decide +kernel, by decide +kernel, by decide +kernel, by decide +kernel, by decide +kernel,
    by decide +kernel⟩

theorem running_inv : running.Inv :=
  ⟨by decide +kernel, by decide +kernel, by decide +kernel, by decide +kernel, by decide +kernel,
    by decide +kernel⟩

theorem decodedX1_inv : decodedX1.Inv :=
  ⟨by decide +kernel, by decide +kernel, by decide +kernel, by decide +kernel, by decide +kernel,
    by decide +kernel⟩

/-- A session whose next 16 samples just fit. -/
def fits : State := (session (List.replicate 80 0) 64).withDin [nums chunk6]

/-- A silent session whose next 16 samples are one too many. -/
def overflows : State := (session (List.replicate 80 0) 65).withDin [nums chunk6]

/-- The session of section 4.5 at the chunk that ends it with a range fault. -/
def faults : State := (session b5 65).withDin [nums chunk6]

theorem fits_inv : fits.Inv :=
  ⟨by decide +kernel, by decide +kernel, by decide +kernel, by decide +kernel, by decide +kernel,
    by decide +kernel⟩

theorem overflows_inv : overflows.Inv :=
  ⟨by decide +kernel, by decide +kernel, by decide +kernel, by decide +kernel, by decide +kernel,
    by decide +kernel⟩

theorem faults_inv : faults.Inv :=
  ⟨by decide +kernel, by decide +kernel, by decide +kernel, by decide +kernel, by decide +kernel,
    by decide +kernel⟩

/-! ### Encoding and the step -/

theorem witness_DecodeInvertsEncode :
    (Instr.sysRdreg (2 ^ 8 - 1)).wf = true ∧ (Instr.rxStart (2 ^ 24 - 1)).wf = true ∧
    (Instr.sfInit 3).wf = true ∧ (Instr.prbLevel .filt).wf = true := by decide

theorem witness_DecodedCommandReencodes : decode 0x30FFFFFF = .ok (.txStart (2 ^ 24 - 1)) := by decide

theorem witness_DecodeFollowsOpcodeTable :
    (⟨"SYS.RDREG", 0x02000000, 0xFFFFFF00⟩ : OpRow) ∈ opcodeTable ∧
    OpRow.selects ⟨"SYS.RDREG", 0x02000000, 0xFFFFFF00⟩ 0x020000FF = true ∧
    decode 0x020000FF = .ok (.sysRdreg 0xFF) ∧ decode 0x02000100 = .error .reservedBitsSet := by decide

theorem witness_ReservedWordIsRefused :
    ((fresh cfg0).withFetchWord 32 0x57000000).env.agenda = [.cmd 0x57000000 []] ∧
    ((fresh cfg0).withFetchWord 32 0x57000000).halted = false ∧
    ([0x00000000, 0x03000000, 0x0F000000, 0x11000000, 0x1F000000, 0x24000000, 0x2F000000,
        0x32000000, 0x3F000000, 0x46000000, 0x4F000000, 0x57000000, 0x59000000, 0xFFFFFFFF,
        0x01000001, 0x02000100, 0x22000004, 0x44000002] : List Word).all
      (fun w => opcodeTable.all fun r => !r.selects w) = true := by decide +kernel

theorem witness_EncodingExamplesDecode : (fresh cfg0).halted = false := by decide

theorem witness_StepRunsDecodedCommand :
    ((fresh cfg0).withFetchWord 32 0x23000000).env.agenda = [.cmd 0x23000000 []] ∧
    decode 0x23000000 = .ok .sfProc ∧ decode (tableWord 32 0x58000000) = .ok .cmpDiff := by
  decide +kernel

theorem witness_StepTakesTxloopTurn :
    ({ running with env := { running.env with agenda := [.rep true] } } : State).env.agenda = [.rep true] ∧
    running.env.agenda = [] := by decide +kernel

theorem witness_HaltedBlockRefuses :
    stuck.halted = true ∧ (stuck.withFetchWord 32 0x57000000).halted = true ∧
    (stuck.withFetchWord 32 0x57000000).env.agenda = [.cmd 0x57000000 []] ∧
    (stuck.withFetchWord 32 0x01000001).env.agenda = [.cmd 0x01000001 []] ∧
    (0x57000000 : Word) ≠ 0x01000000 ∧ (0x01000001 : Word) ≠ 0x01000000 := by decide +kernel

/-! ### Parameters -/

theorem no_frame_is_no_chunk (xs : List Sample) : (fresh cfg0).io.din ≠ [nums xs] := nofun

theorem no_frame_is_no_string (bs : List Byte) : (fresh cfg0).io.din ≠ [bytes bs] := nofun

/-- The clauses of PARAM.LOAD: halted, no payload, accepted at the least sizes (two samples a slot, one
symbol), refused one below. -/
theorem witness_ParamLoadFollowsItsRule :
    stuck.halted = true ∧
    (fresh cfg0).halted = false ∧ (∀ xs : List Sample, xs.length = 6 → (fresh cfg0).io.din ≠ [nums xs]) ∧
    loaded.halted = false ∧ loaded.param.valid = true ∧ (fresh cfg0).param.valid = false ∧
    (0 < (10 : Sample) ∧ 0 < (3 / 20 : Sample) ∧ 1 ≤ 1 ∧ 2 ≤ ⌊(3 / 20 : Sample) * 10 + 1 / 2⌋.toNat) ∧
    ¬ 2 ≤ ⌊(1 / 10 : Sample) * 10 + 1 / 2⌋.toNat :=
  ⟨by decide, by decide, fun xs _ => no_frame_is_no_chunk xs, by decide, by decide, by decide,
    by decide +kernel, by decide +kernel⟩

theorem witness_SampleCountsAreExact : (0 : Rat) ≤ 5 / 2 ∧ 2 ≤ 2 := by decide +kernel

theorem witness_ParametersNeverMutate :
    loaded.ParamsOk ∧ loaded.param.valid = true ∧ step loaded = .next loaded :=
  ⟨loaded_inv.params, by decide, rfl⟩

/-! ### Filters -/

theorem witness_BatchCascadeLaws :
    (fresh tcA).cfg = ({ fresh tcA with sf := afterF8 } : State).cfg ∧ (fresh tcA).halted = false ∧
    ({ fresh tcA with sf := afterF8 } : State).halted = false ∧
    ([1, 2] : List Sample).length = ([3, 4] : List Sample).length := by decide +kernel

theorem witness_BatchApplyFollowsItsRule :
    stuck.halted = true ∧ (fresh cfg0).halted = false ∧ (∀ xs, (fresh cfg0).io.din ≠ [nums xs]) ∧
    ((fresh cfg0).withDin [nums [1, 2]]).io.din = [nums [1, 2]] ∧
    ((fresh cfg0).withDin [[]]).io.din = [nums []] :=
  ⟨by decide, by decide, no_frame_is_no_chunk, rfl, rfl⟩

theorem witness_StreamProcessFollowsItsRule :
    stuck.halted = true ∧ (fresh cfg0).halted = false ∧ (∀ xs, (fresh cfg0).io.din ≠ [nums xs]) ∧
    ((fresh cfg0).withDin [nums [1, 2]]).io.din = [nums [1, 2]] :=
  ⟨by decide, by decide, no_frame_is_no_chunk, rfl⟩

theorem witness_StreamFilterContinuity : (fresh tsA).halted = false := by decide

theorem witness_StreamInitFollowsItsRule :
    stuck.halted = true ∧ (fresh cfg0).halted = false ∧ (fresh cfg0).io.din = [] ∧
    (2 = 0 ∧ Preset.order20 = .order6 ∨ 2 = 1 ∧ Preset.order20 = .order10 ∨
      2 = 2 ∧ Preset.order20 = .order20) := by decide

/-! ### Modulator -/

/-- The clauses of TX.START at their boundaries: no frame, blocked, a chunk of 3 below the least 4, a string
of 1 and of 2 characters for 2 symbols, and the byte 0x32 just above '1'. -/
theorem witness_TransmitStartFollowsItsRule :
    stuck.halted = true ∧ (fresh cfg0).halted = false ∧ (∀ d, (fresh cfg0).io.din ≠ [bytes d]) ∧
    (fresh cfg0).param.valid = false ∧ running.tx.state = .running ∧
    loaded.halted = false ∧ ¬ (loaded.param.valid = false ∨ loaded.tx.state = .running) ∧
    3 < loaded.cfg.devMinOut ∧ loaded.cfg.devMinOut ≤ 4 ∧
    ([0x31] : List Byte).length ≠ loaded.param.p.symbolCount ∧
    ([0x31, 0x30] : List Byte).length = loaded.param.p.symbolCount ∧
    (∀ b ∈ ([0x31, 0x30] : List Byte), b = 0x30 ∨ b = 0x31) ∧
    ¬ (∀ b ∈ ([0x31, 0x32] : List Byte), b = 0x30 ∨ b = 0x31) :=
  ⟨by decide, by decide, no_frame_is_no_string, by decide, by decide, by decide, by decide, by decide,
    by decide, by decide, by decide, by decide, by decide⟩

theorem witness_StopCommandsRaiseFlags :
    stuck.halted = true ∧ running.halted = false ∧ running.io.din = [] ∧ takesNoPayload .statTotal = true ∧
    Instr.statTotal ≠ .sysReset ∧ (loaded.withDin [[]]).io.din ≠ [] ∧
    (loaded.withDin [[]]).halted = false := by decide

theorem witness_SlotSequenceEncodesBits : ([true, false] : List Bool)[1]? = some false := by decide

theorem witness_NoiseFillsOnSlots :
    ([true, false] : List Bool)[1]? = some false ∧ 1 < 2 ∧ 0 < ([1, 2] : List Sample).length := by decide

theorem witness_PcmWrapsNotClamps :
    ([1, 2 ^ 31] : List Sample)[1]? = some (2 ^ 31) ∧ 1 ≤ cfg0.pcmBits ∧ 0 ≤ (32768 : Sample) * cfg0.pcmScale ∧ (-1 / 2 : Sample) * cfg0.pcmScale < 0 ∧
    |truncate ((2 ^ 31 - 1) * cfg0.pcmScale)| < 2 ^ 31 ∧ 2 ^ 31 ≤ |truncate (2 ^ 31 * cfg0.pcmScale)| := by
  decide +kernel

theorem witness_TxloopStepOutcomes :
    stuck.halted = true ∧ loaded.tx.state = .idle ∧ running.halted = false ∧
    running.tx.state = .running ∧ running.tx.stop = false ∧
    ({ running with tx := { running.tx with stop := true } } : State).tx.stop = true := by decide

theorem witness_RepetitionFrameSize :
    running.Inv ∧ running.halted = false ∧ running.tx.state = .running ∧ running.tx.stop = false ∧
    1 ≤ running.cfg.pcmBits :=
  ⟨running_inv, by decide, by decide, by decide, by decide⟩

/-- `running` with twenty draws of 0 ready. -/
def hushed : State :=
  { running with env := { running.env with noise := ⟨List.replicate 20 0, 0⟩ } }

theorem witness_RepetitionSilence :
    hushed.Inv ∧ hushed.halted = false ∧ hushed.tx.state = .running ∧ hushed.tx.stop = false ∧
    hushed.env.noise.pending =
      List.replicate ((3 + hushed.param.p.symbolCount) * hushed.param.d.samplesPerSlot) 0 ++ [] ∧
    0 < winLen 10 :=
  ⟨⟨running_inv.params, running_inv.session, running_inv.results, running_inv.transmit,
    running_inv.sections, running_inv.faults⟩, by decide, by decide, by decide, by decide +kernel,
    by decide +kernel⟩

/-! ### Receiver -/

theorem witness_ReceiveStartFollowsItsRule :
    stuck.halted = true ∧ loaded.halted = false ∧ loaded.io.din = [] ∧ (fresh cfg0).halted = false ∧
    (fresh cfg0).param.valid = false ∧ loaded.param.valid = true ∧ 3 ≠ 0 ∧ 3 < loaded.cfg.devMinIn ∧
    loaded.cfg.devMinIn ≤ 4 := by decide

theorem witness_ChunkRefusalsAndStop :
    stuck.halted = true ∧ (fresh cfg0).halted = false ∧
    (∀ c : List Sample, c ≠ [] → (fresh cfg0).io.din ≠ [nums c]) ∧
    ([1] : List Sample) ≠ [] ∧ (loaded.withDin [nums [1]]).rx.state = .none ∧
    fits.halted = false ∧ fits.io.din = [nums chunk6] ∧ fits.rx.state ≠ .none ∧
    ([1] : List Sample).length ≠ fits.rx.chunk ∧ chunk6.length = fits.rx.chunk ∧
    ({ fits with rx := { fits.rx with stop := true } } : State).rx.stop = true :=
  ⟨by decide, by decide, fun c _ => no_frame_is_no_chunk c, by decide +kernel, by decide, by decide, rfl,
    by decide, by decide, by decide, by decide⟩

theorem witness_ChunkIsAccumulated :
    fits.Inv ∧ fits.halted = false ∧ fits.io.din = [nums chunk6] ∧ fits.rx.state = .accumulating ∧
    chunk6.length = fits.rx.chunk ∧ fits.rx.stop = false ∧
    fits.rx.cursor + chunk6.length = fits.param.d.accumulationBufferSize :=
  ⟨fits_inv, by decide, rfl, by decide, by decide, by decide, by decide⟩

theorem witness_PushIsAccumulated :
    fits.Inv ∧ fits.halted = false ∧ fits.io.din = [nums chunk6] ∧ fits.rx.state = .accumulating ∧
    chunk6.length = fits.rx.chunk ∧ fits.rx.stop = false ∧
    fits.rx.cursor + chunk6.length ≤ fits.param.d.accumulationBufferSize :=
  ⟨fits_inv, by decide, rfl, by decide, by decide, by decide, by decide⟩

theorem witness_ChunkAfterDoneOnlyReports :
    (decodedX1.withDin [nums chunk6]).halted = false ∧ chunk6 ≠ [] ∧
    (decodedX1.withDin [nums chunk6]).io.din = [nums chunk6] ∧
    (decodedX1.withDin [nums chunk6]).rx.state = .done ∧
    chunk6.length = (decodedX1.withDin [nums chunk6]).rx.chunk ∧
    (decodedX1.withDin [nums chunk6]).rx.stop = false :=
  ⟨by decide, by decide +kernel, rfl, by decide, by decide, by decide⟩

theorem witness_OverflowingChunkEndsSession :
    overflows.Inv ∧ overflows.halted = false ∧ overflows.io.din = [nums chunk6] ∧
    overflows.rx.state = .accumulating ∧ chunk6.length = overflows.rx.chunk ∧ overflows.rx.stop = false ∧
    overflows.param.d.accumulationBufferSize + 1 = overflows.rx.cursor + chunk6.length ∧
    (coarseSync overflows.cfg overflows.param.d overflows.rx.buf).hi overflows.param.d
      + overflows.param.d.samplesPerFrame ≤ overflows.param.d.accumulationBufferSize :=
  ⟨overflows_inv, by decide, rfl, by decide, by decide, by decide, by decide, by decide +kernel⟩

theorem witness_RangeFaultOutcome :
    faults.Inv ∧ faults.halted = false ∧ faults.io.din = [nums chunk6] ∧
    faults.rx.state = .accumulating ∧ chunk6.length = faults.rx.chunk ∧ faults.rx.stop = false ∧
    faults.param.d.accumulationBufferSize + 1 = faults.rx.cursor + chunk6.length ∧
    faults.param.d.accumulationBufferSize + 1 =
      (coarseSync faults.cfg faults.param.d faults.rx.buf).hi faults.param.d
        + faults.param.d.samplesPerFrame :=
  ⟨faults_inv, by decide, rfl, by decide, by decide, by decide, by decide, by decide +kernel⟩

theorem witness_PushIsFilterThenChunk :
    fits.halted = false ∧ chunk6 ≠ [] ∧ fits.rx.state ≠ .none ∧ chunk6.length = fits.rx.chunk ∧
    fits.rx.stop = false :=
  ⟨by decide, by decide +kernel, by decide, by decide, by decide⟩

theorem witness_ProbeFollowsItsRule :
    stuck.halted = true ∧ (fresh cfg0).halted = false ∧
    (∀ c : List Sample, c ≠ [] → (fresh cfg0).io.din ≠ [nums c]) ∧ ([0] : List Sample) ≠ [] ∧
    ((fresh cfg0).withDin [nums [0]]).io.din = [nums [0]] :=
  ⟨by decide, by decide, fun c _ => no_frame_is_no_chunk c, by decide +kernel, rfl⟩

theorem witness_ScanFindsLowestMaximum :
    [3, 5, 6] ≠ ([] : List Nat) ∧ [3, 5, 6].Pairwise (· < ·) ∧
    (∃ i ∈ [3, 5, 6], (0 : Int) < (i : Int) - 4) ∧ (∀ i ∈ [3, 5, 6], (i : Int) - 6 ≤ 0) := by decide

theorem witness_CorrelatorScalingLaw :
    (0 : Sample) < 1 / 2 ∧ (0 : Int) < 3 ∧ (0 : Sample) < 3 ∧
    (∀ x ∈ ([0, 1] : List Sample), cfg0.sampleThreshold < |3 * x| ↔ cfg0.sampleThreshold < |x|) := by
  decide +kernel

theorem witness_TemplatesAndProfile :
    72 ≤ paramsA.d.accumulationBufferSize - paramsA.d.samplesPerSymbol ∧ ([1 / 2] : List Sample)[0]? = some (1 / 2) ∧
    [true, true, true, false, false, false][5]? = some false ∧ 0 < 4 ∧ 7 < 2 * 4 ∧
    paramsA.d.sound 2 = true ∧ b1.length = paramsA.d.accumulationBufferSize := by decide +kernel

theorem witness_FineSearchStaysInRange :
    2 + ([1, -1] : List Int).length ≤ ([1, -1, 1, 1] : List Int).length ∧
    paramsA.d.sound 2 = true ∧ b1.length = paramsA.d.accumulationBufferSize ∧
    b5.length = paramsA.d.accumulationBufferSize ∧
    (coarseSync cfg0 paramsA.d b1).outOfRange paramsA.d = false ∧
    (coarseSync cfg0 paramsA.d b5).outOfRange paramsA.d = true ∧
    (coarseSync cfg0 paramsA.d b1).lo paramsA.d ≤ 35 ∧ 35 ≤ (coarseSync cfg0 paramsA.d b1).hi paramsA.d := by
  decide +kernel

theorem witness_SilentBufferDecodes :
    overflows.Inv ∧ overflows.halted = false ∧ overflows.io.din = [nums chunk6] ∧
    overflows.rx.state = .accumulating ∧ chunk6.length = overflows.rx.chunk ∧ overflows.rx.stop = false ∧
    overflows.param.d.accumulationBufferSize < overflows.rx.cursor + chunk6.length ∧
    0 ≤ overflows.cfg.sampleThreshold ∧
    overflows.rx.buf = List.replicate overflows.param.d.accumulationBufferSize 0 :=
  ⟨overflows_inv, by decide, rfl, by decide, by decide, by decide, by decide, by decide +kernel,
    by decide +kernel⟩

/-! ### Slicer, statistics, comparator, system -/

theorem witness_MlBitComparesRealLevels :
    ([0] : List Sample) ≠ [] ∧ (0 : Sample) ≤ (Over.Amp.mk 0).ms ∧ (0 : Sample) ≤ 0 := by decide +kernel

theorem witness_SecureBitSplitsAtThreshold :
    paramsD.d.thresholdHigh = paramsD.d.thresholdLow ∧ (0 : Sample) ≤ (Over.Amp.mk 1).ms ∧
    (0 : Sample) ≤ (Over.Amp.mk 0).ms := by decide +kernel

theorem witness_SlicerCommandFollowsItsRule :
    stuck.halted = true ∧ (fresh cfg0).halted = false ∧ (∀ x y, (fresh cfg0).io.din ≠ [nums [x, y]]) ∧
    (loaded.withDin [nums [0, 1]]).io.din = [nums [0, 1]] ∧ (loaded.withDin [nums [0, 1]]).halted = false ∧
    (0 : Sample) ≤ 0 ∧ (0 : Sample) ≤ 1 ∧ (-1 : Sample) < 0 ∧ loaded.param.valid = true ∧
    (fresh cfg0).param.valid = false :=
  ⟨by decide, by decide, fun x y => no_frame_is_no_chunk [x, y], rfl, by decide, by decide +kernel,
    by decide +kernel, by decide +kernel, by decide, by decide⟩

/-- Amplitudes 1 and 0 at a threshold of 0 dB, which 1 just meets; delays 33 and 34 for symbols that start
at 34 are the earliest and the latest of R219 at four samples a slot, and 64 is the last delay with the whole
frame in the buffer. -/
theorem witness_NoiselessFrameRoundTrips :
    64 + paramsD.d.samplesPerFrame = b1.length ∧
    paramsD.d.sound 2 = true ∧ paramsD.d.thresholdHigh = paramsD.d.thresholdLow ∧ (0 : Sample) ≤ 0 ∧
    (0 : Sample) < 1 ∧ ((paramsD.d.thresholdHigh : ℝ) : WithBot ℝ) ≤ dBReal ((1 : Sample) : ℝ) ∧
    dBReal ((0 : Sample) : ℝ) ≤ ((paramsD.d.thresholdLow : ℝ) : WithBot ℝ) ∧
    34 + paramsD.d.samplesPerFrame ≤ b1.length ∧
    (∀ i < 2, ∀ k < 8, ∃ x, b1[34 + i * paramsD.d.samplesPerSymbol + k]? = some x ∧
      some |x| = ([true, false] : List Bool)[i]?.map fun b => if (decide (k < 4)) = b then 1 else 0) ∧
    34 ≤ 34 + skipAfter 4 ∧ 34 ≤ 33 + skipBefore 4 := by
  refine ⟨by decide +kernel, by decide +kernel, by decide +kernel, by decide +kernel, by decide +kernel, ?_, ?_,
    by decide +kernel, ?_, by decide +kernel, by decide +kernel⟩
  · simp [paramsD, dBReal]
  · simp [dBReal]
  · intro i hi k hk
    have : ∀ i < 2, ∀ k < 8,
        some |(b1[34 + i * paramsD.d.samplesPerSymbol + k]?).getD 5| =
          ([true, false] : List Bool)[i]?.map (fun b => if (decide (k < 4)) = b then (1 : Sample) else 0) ∧
        (b1[34 + i * paramsD.d.samplesPerSymbol + k]?).isSome = true := by decide +kernel
    obtain ⟨x, hx⟩ := Option.isSome_iff_exists.mp (this i hi k hk).2
    exact ⟨x, hx, by have h := (this i hi k hk).1; rwa [hx] at h⟩

theorem witness_AverageStatistics :
    slotsX2.halted = false ∧ slotsX2.io.din = [] ∧ slotsX2.slc.valid = true ∧ slotsX2.slc.onPowers ≠ [] ∧
    slotsX2.slc.offPowers ≠ [] ∧ (∀ a ∈ slotsX2.slc.onPowers ++ slotsX2.slc.offPowers, 0 ≤ a.ms) := by
  decide +kernel

theorem witness_ExtremeStatistics :
    slotsX2.halted = false ∧ slotsX2.io.din = [] ∧ slotsX2.slc.valid = true ∧ slotsX2.slc.onPowers ≠ [] ∧
    slotsX2.slc.offPowers ≠ [] ∧ (∀ a ∈ slotsX2.slc.onPowers ++ slotsX2.slc.offPowers, 0 ≤ a.ms) := by
  decide +kernel

theorem witness_StatisticsNeedSlotInformation :
    stuck.halted = true ∧ loaded.halted = false ∧ loaded.io.din = [] ∧ loaded.slc.valid = false ∧
    decodedX1.Inv ∧ decodedX1.halted = false ∧ decodedX1.io.din = [] ∧ decodedX1.slc.valid = true :=
  ⟨by decide, by decide, by decide, by decide, decodedX1_inv, by decide, by decide, by decide⟩

theorem witness_CompareFollowsItsRule :
    stuck.halted = true ∧ (fresh cfg0).halted = false ∧
    (∀ a b : List Byte, (fresh cfg0).io.din ≠ [bytes a, bytes b]) ∧
    ((fresh cfg0).withDin [bytes [0x31], bytes [0x31, 0x30]]).io.din = [bytes [0x31], bytes [0x31, 0x30]] ∧
    ([0x31] : List Byte).length ≠ ([0x31, 0x30] : List Byte).length ∧
    ([] : List Byte).length = ([] : List Byte).length :=
  ⟨by decide, by decide, fun _ _ => nofun, rfl, by decide, rfl⟩

theorem witness_RegisterReadsFollowTheMap :
    decodedX1.io.din = [] ∧ stuck.io.din = [] ∧ stuck.halted = true ∧ decodedX1.halted = false ∧
    decodedX1.param.valid = true ∧ decodedX1.rx.state ≠ .none ∧ decodedX1.rx.synValid = true ∧
    (fresh cfg0).io.din = [] ∧ (fresh cfg0).halted = false ∧ (fresh cfg0).param.valid = false ∧
    (fresh cfg0).rx.state = .none ∧ (fresh cfg0).rx.synValid = false := by decide

/-! ### The whole machine -/

theorem witness_StepKeepsSoundness : decodedX1.Inv ∧ step decodedX1 = .next decodedX1 :=
  ⟨decodedX1_inv, rfl⟩

theorem witness_StepKeepsSynBounds :
    decodedX1.Inv ∧ decodedX1.SynBounded ∧ decodedX1.rx.synValid = true ∧
    step decodedX1 = .next decodedX1 :=
  ⟨decodedX1_inv, by decide +kernel, by decide, rfl⟩

theorem witness_StateMachineTransitions :
    (∃ t, exec (.rxStart 4) loaded = .next t ∧ (t.rx.state != loaded.rx.state) = true) ∧
    (∃ t, exec .rxChunk overflows = .next t ∧ (t.rx.state != overflows.rx.state) = true) ∧
    (∃ t, exec .sysReset stuck = .next t ∧ (t.halted != stuck.halted) = true) ∧
    (∃ t, exec .sysReset running = .next t ∧ (t.tx.state != running.tx.state) = true) :=
  ⟨of_holds (by decide +kernel), of_holds (by decide +kernel), of_holds (by decide +kernel),
    of_holds (by decide +kernel)⟩

theorem witness_OutputsOnlyGrow : step running = .next running := rfl

theorem witness_StepsWriteOnlyTheirRow :
    loaded.Inv ∧ exec .txStop loaded = .next (Over.State.answered { loaded with tx := { loaded.tx with stop := true } } 0 []) :=
  ⟨loaded_inv, rfl⟩

theorem witness_ContextsCommute :
    captureCommand .rxStop = true ∧
    (∃ t, exec .rxStop running = .next t) ∧
    (∃ t₁ t₂ u₁ u₂, exec .rxStop (loaded.withDin []) = .next t₁ ∧
      exec .txStop (t₁.withDin []) = .next t₂ ∧ exec .txStop (loaded.withDin []) = .next u₁ ∧
      exec .rxStop (u₁.withDin []) = .next u₂) :=
  ⟨rfl, ⟨_, rfl⟩, ⟨_, _, _, _, rfl, rfl, rfl, rfl⟩⟩

end Sys2Proof.Tests
end

section
/-! PROOFS. The sample counts and the running-maximum scan of 00_scope.md (R6, R7, R95, R96). -/

namespace Sys2Proof.Machine

open Sys2Proof

/-! ## Sample counts (R6, R95, R96) -/

/-- `Rat.floor`, which the model calls, is Mathlib's floor, about which the library's lemmas are. -/
theorem rat_floor_eq (q : Rat) : q.floor = ⌊q⌋ := rfl

/-- `Rat.ceil`, which the model calls, is Mathlib's ceiling. -/
theorem rat_ceil_eq (q : Rat) : q.ceil = ⌈q⌉ := Rat.ceil_eq_neg_floor_neg q

theorem roundHalfUp_cast (q : Rat) (hq : 0 ≤ q) : (roundHalfUp q : ℤ) = ⌊q + 1 / 2⌋ :=
  Int.toNat_of_nonneg (Int.floor_nonneg.mpr (by linarith))

theorem skipBefore_cast (sps : Nat) : (skipBefore sps : ℤ) = ⌈(3 * sps / 20 : ℚ)⌉ := by
  have hfrac : Config.skipBeforeFrac * (sps : ℚ) = 3 * sps / 20 := by
    rw [Config.skipBeforeFrac]; ring
  rw [skipBefore, hfrac, rat_ceil_eq]
  exact Int.toNat_of_nonneg (Int.ceil_nonneg (by positivity))

theorem skipAfter_cast (sps : Nat) : (skipAfter sps : ℤ) = ⌊(sps / 20 : ℚ)⌋ := by
  have hfrac : Config.skipAfterFrac * (sps : ℚ) = sps / 20 := by
    rw [Config.skipAfterFrac]; ring
  rw [skipAfter, hfrac, rat_floor_eq]
  exact Int.toNat_of_nonneg (Int.floor_nonneg.mpr (by positivity))

theorem winLen_cast (sps : Nat) : (winLen sps : ℤ) = ⌊(sps / 10 : ℚ)⌋ := by
  have hfrac : Config.windowingFactor * (sps : ℚ) = sps / 10 := by
    rw [Config.windowingFactor]; ring
  rw [winLen, hfrac, rat_floor_eq]
  exact Int.toNat_of_nonneg (Int.floor_nonneg.mpr (by positivity))

/-- R96: the two skips leave at least one sample of a slot, since together they stay below `sps/5 + 1`. -/
theorem skips_lt_slot (sps : Nat) (h : 2 ≤ sps) : skipBefore sps + skipAfter sps + 1 ≤ sps := by
  have hbefore : (skipBefore sps : ℚ) < 3 * sps / 20 + 1 := by
    simpa [← skipBefore_cast] using Int.ceil_lt_add_one (3 * sps / 20 : ℚ)
  have hafter : (skipAfter sps : ℚ) ≤ sps / 20 := by
    simpa [← skipAfter_cast] using Int.floor_le (sps / 20 : ℚ)
  have hsps : (2 : ℚ) ≤ sps := by exact_mod_cast h
  have hsum : (skipBefore sps + skipAfter sps : ℚ) < sps := by linarith
  exact_mod_cast hsum

/-! ## The scan (R7) -/

section scan
variable {R : Type} [LinearOrder R] {f : Nat → R} {i j : Nat} {is : List Nat} {r : R × Nat}

/-- `r` is the greatest value of `f` on `is` with the lowest index where it is reached (R7). -/
structure IsFirstMax (f : Nat → R) (is : List Nat) (r : R × Nat) : Prop where
  mem : r.2 ∈ is
  value : r.1 = f r.2
  le : ∀ i ∈ is, f i ≤ r.1
  lt : ∀ i ∈ is, i < r.2 → f i < r.1

theorem IsFirstMax.singleton (f : Nat → R) (i : Nat) : IsFirstMax f [i] (f i, i) where
  mem := List.mem_singleton_self i
  value := rfl
  le := by simp
  lt := by simp

/-- An index of a smaller value does not change the first maximum. -/
theorem IsFirstMax.cons (h : IsFirstMax f is r) (hi : f i < r.1) : IsFirstMax f (i :: is) r where
  mem := List.mem_cons_of_mem i h.mem
  value := h.value
  le := List.forall_mem_cons.mpr ⟨hi.le, h.le⟩
  lt := List.forall_mem_cons.mpr ⟨fun _ => hi, h.lt⟩

/-- A later index of no greater value than the head's does not change the first maximum. -/
theorem IsFirstMax.insert_second (h : IsFirstMax f (i :: is) r) (hij : i < j) (hj : f j ≤ f i) :
    IsFirstMax f (i :: j :: is) r := by
  obtain ⟨hile, hle⟩ := List.forall_mem_cons.mp h.le
  obtain ⟨hilt, hlt⟩ := List.forall_mem_cons.mp h.lt
  have hmem : r.2 ∈ i :: j :: is := ((List.sublist_cons_self j is).cons_cons i).mem h.mem
  exact ⟨hmem, h.value,
    List.forall_mem_cons.mpr ⟨hile, List.forall_mem_cons.mpr ⟨hj.trans hile, hle⟩⟩,
    List.forall_mem_cons.mpr ⟨hilt, List.forall_mem_cons.mpr
      ⟨fun hjr => hj.trans_lt (hilt (hij.trans hjr)), hlt⟩⟩⟩

/-- The loop started from an index below the others finds the first maximum of them all. -/
theorem scanFrom_head_isFirstMax (f : Nat → R) (is : List Nat) (i : Nat) (hp : (i :: is).Pairwise (· < ·)) :
    IsFirstMax f (i :: is) (scanFrom f (f i) i is) := by
  induction is generalizing i with
  | nil => exact .singleton f i
  | cons j is ih =>
    obtain ⟨hi, hjs⟩ := List.pairwise_cons.mp hp
    by_cases hlt : f i < f j
    · rw [scanFrom, if_pos hlt]
      have hmax := ih j hjs
      exact hmax.cons (hlt.trans_le (hmax.le j List.mem_cons_self))
    · rw [scanFrom, if_neg hlt]
      have his : (i :: is).Pairwise (· < ·) := hp.sublist ((List.sublist_cons_self j is).cons_cons i)
      exact (ih i his).insert_second (hi j List.mem_cons_self) (not_lt.mp hlt)

/-- The loop finds the first maximum whenever some value exceeds the one it starts from. -/
theorem scanFrom_isFirstMax (f : Nat → R) (best : R) (arg : Nat) (is : List Nat) (hp : is.Pairwise (· < ·))
    (h : ∃ i ∈ is, best < f i) : IsFirstMax f is (scanFrom f best arg is) := by
  induction is with
  | nil => simp at h
  | cons i is ih =>
    by_cases hlt : best < f i
    · rw [scanFrom, if_pos hlt]
      exact scanFrom_head_isFirstMax f is i hp
    · rw [scanFrom, if_neg hlt]
      obtain ⟨j, hj, hbest⟩ : ∃ j ∈ is, best < f j := by simpa [hlt] using h
      have hmax := ih hp.of_cons ⟨j, hj, hbest⟩
      exact hmax.cons ((not_lt.mp hlt).trans_lt (hbest.trans_le (hmax.le j hj)))

/-- The loop keeps what it starts from when no value exceeds it. -/
theorem scanFrom_eq_start (f : Nat → R) (best : R) (arg : Nat) (is : List Nat) (h : ∀ i ∈ is, f i ≤ best) :
    scanFrom f best arg is = (best, arg) := by
  induction is with
  | nil => rfl
  | cons i is ih =>
    obtain ⟨hi, his⟩ := List.forall_mem_cons.mp h
    rw [scanFrom, if_neg hi.not_gt, ih his]

/-- A scan started from its first index goes on with the others: comparing that index with itself changes nothing. -/
theorem scan_first_cons [Zero R] (f : Nat → R) (i : Nat) (is : List Nat) :
    scan .first (i :: is) f = scanFrom f (f i) i is := by
  rw [scan, scanFrom, if_neg (lt_irrefl _)]

theorem scan_first_isFirstMax [Zero R] (f : Nat → R) (is : List Nat) (hne : is ≠ []) (hp : is.Pairwise (· < ·)) :
    IsFirstMax f is (scan .first is f) := by
  cases is with
  | nil => exact absurd rfl hne
  | cons i is =>
    rw [scan_first_cons]
    exact scanFrom_head_isFirstMax f is i hp

theorem scan_zero_isFirstMax [Zero R] (f : Nat → R) (is : List Nat) (hp : is.Pairwise (· < ·))
    (h : ∃ i ∈ is, 0 < f i) : IsFirstMax f is (scan .zero is f) :=
  scanFrom_isFirstMax f 0 0 is hp h

theorem scan_zero_eq_zero [Zero R] (f : Nat → R) (is : List Nat) (h : ∀ i ∈ is, f i ≤ 0) :
    scan .zero is f = (0, 0) :=
  scanFrom_eq_start f 0 0 is h

end scan

/-! ## The obligations -/

/-- Settles O11: each count is the non-negative floor or ceiling of its exact rational, and the two skips add up
to less than a slot. -/
theorem sampleCountsAreExact : Obligations.SampleCountsAreExact :=
  ⟨roundHalfUp_cast, fun sps => ⟨skipBefore_cast sps, skipAfter_cast sps, winLen_cast sps⟩, skips_lt_slot⟩

/-- Settles O38, by induction on the index list: the loop holds the first maximum of the indices it has passed. -/
theorem scanFindsLowestMaximum : Obligations.ScanFindsLowestMaximum := by
  intro R _ _ f is hne hp isMax
  have isMax_of {r : R × Nat} (h : IsFirstMax f is r) : isMax r := ⟨h.mem, h.value, h.le, h.lt⟩
  exact ⟨isMax_of (scan_first_isFirstMax f is hne hp),
    fun hpos => isMax_of (scan_zero_isFirstMax f is hp hpos),
    scan_zero_eq_zero f is⟩

end Sys2Proof.Machine
end

section
/-! PROOFS. The STATUS view and the register map of 10_state.md (R30, R31) as SYS.RDREG answers them (R251). -/

namespace Sys2Proof.Machine

open Sys2Proof

/-! ## The fields of STATUS (R30) -/

section status
variable {K : Type}

theorem bitNat_le_one (b : Bool) : bitNat b ≤ 1 := by cases b <;> decide

theorem RxState.code_le_two (r : RxState) : r.code ≤ 2 := by cases r <;> decide

theorem presetCode_le_two (p : Preset) : presetCode p ≤ 2 := by cases p <;> decide

/-- `txState` stands in STATUS as one bit, set while a transmission runs. -/
theorem TxState.code_eq_bitNat (t : TxState) : t.code = bitNat (decide (t = .running)) := by cases t <;> decide

/-- A bit of a word is the digit of its number at that power of two. -/
theorem getLsbD_of_div_mod {w : BitVec 32} {i : Nat} {b : Bool} (h : w.toNat / 2 ^ i % 2 = bitNat b) :
    w.getLsbD i = b := by
  rw [← BitVec.testBit_toNat, Nat.testBit_eq_decide_div_mod_eq, h]
  cases b <;> decide

/-- The digits of `n` at the places of R30 are the flags and small registers of `s`. -/
structure StatusFields (s : Over.State K) (n : Nat) : Prop where
  paramValid : n / 2 ^ 0 % 2 = bitNat s.param.valid
  txState : n / 2 ^ 1 % 2 = bitNat (decide (s.tx.state = .running))
  txStop : n / 2 ^ 2 % 2 = bitNat s.tx.stop
  rxState : n / 2 ^ 3 % 4 = s.rx.state.code
  rxFull : n / 2 ^ 5 % 2 = bitNat s.rx.full
  rxStop : n / 2 ^ 6 % 2 = bitNat s.rx.stop
  siValid : n / 2 ^ 7 % 2 = bitNat s.slc.valid
  preset : n / 2 ^ 8 % 4 = presetCode s.sf.preset
  halted : n / 2 ^ 10 % 2 = bitNat s.halted
  synValid : n / 2 ^ 11 % 2 = bitNat s.rx.synValid
  reserved : n / 2 ^ 12 = 0

/-- Each field is less than the space up to the next one, so none carries into its neighbour. -/
theorem statusWord_fields (s : Over.State K) : StatusFields s (statusWord s).toNat := by
  have hparam := bitNat_le_one s.param.valid
  have htx := bitNat_le_one (decide (s.tx.state = .running))
  have htxStop := bitNat_le_one s.tx.stop
  have hrx := s.rx.state.code_le_two
  have hfull := bitNat_le_one s.rx.full
  have hrxStop := bitNat_le_one s.rx.stop
  have hslc := bitNat_le_one s.slc.valid
  have hpreset := presetCode_le_two s.sf.preset
  have hhalted := bitNat_le_one s.halted
  have hsyn := bitNat_le_one s.rx.synValid
  rw [statusWord, BitVec.toNat_ofNat, TxState.code_eq_bitNat]
  constructor <;> omega

end status

/-! ## What SYS.RDREG answers (R251) -/

section rdreg
variable {K : Type} {s : State} {reg : Nat} {v : OutItem} {x : Exc}

theorem needs_of_true {ok : Bool} (h : ok = true) (v : Over.OutItem K) : needs ok v = .ok v := if_pos h

theorem needs_of_false {ok : Bool} (h : ok = false) (v : Over.OutItem K) : needs ok v = .error .state := by
  rw [needs, h]; rfl

theorem exec_sysRdreg_of_ok (hs : s.halted = false) (hd : s.io.din = []) (h : readReg s reg = .ok v) :
    exec (.sysRdreg reg) s = .next (s.answered 0 [[v]]) := by
  rw [exec, execSysRdreg, unlessHalted_of_running hs, unlessPayload_of_none hd, h]
  rfl

theorem exec_sysRdreg_of_error (hs : s.halted = false) (hd : s.io.din = []) (h : readReg s reg = .error x)
    (hx : x.isRefusal = true) : exec (.sysRdreg reg) s = .next (s.answered x.code []) := by
  rw [exec, execSysRdreg, unlessHalted_of_running hs, unlessPayload_of_none hd, h]
  exact raise_refusal s hx

end rdreg

/-! ## The register map (R31) -/

section map
variable {K : Type} (s : Over.State K) {reg : Nat}

/-- The registers of PARAM: they need `paramValid = 1`. -/
def paramRegNumbers : List Nat :=
  [0x00, 0x01, 0x02, 0x03, 0x04, 0x05, 0x06, 0x10, 0x11, 0x12, 0x13, 0x14, 0x15, 0x16]

/-- The registers of a decode result: they need `synValid = 1`. -/
def synRegNumbers : List Nat := [0x30, 0x31, 0x32, 0x33, 0x34]

/-- Every number of the map. -/
def listedRegNumbers : List Nat := paramRegNumbers ++ [0x20, 0x21, 0x22, 0x23, 0x24] ++ synRegNumbers

theorem readReg_of_not_listed (h : reg ∉ listedRegNumbers) : readReg s reg = .error .operand := by
  unfold readReg
  split
  case h_25 => rfl
  all_goals exact absurd (by decide) h

theorem readReg_param_refused (hp : s.param.valid = false) (h : reg ∈ paramRegNumbers) :
    readReg s reg = .error .state := by
  fin_cases h <;> exact needs_of_false hp _

theorem readReg_syn_refused (hv : s.rx.synValid = false) (h : reg ∈ synRegNumbers) :
    readReg s reg = .error .state := by
  fin_cases h <;> exact needs_of_false hv _

end map

/-! ## The obligations -/

/-- Settles O52: halted, or else by the four groups of the map, each read where its condition holds. -/
theorem registerReadsFollowTheMap : Obligations.RegisterReadsFollowTheMap := by
  intro s hd reads refuses paramRegs synRegs
  refine ⟨fun hs reg => unlessHalted_of_halted hs _, fun hs => ?_⟩
  have reads_of {reg v} (h : readReg s reg = .ok v) : reads reg v := exec_sysRdreg_of_ok hs hd h
  have refuses_operand {reg} (h : readReg s reg = .error .operand) : refuses reg 0x02 :=
    exec_sysRdreg_of_error hs hd h rfl
  have refuses_state {reg} (h : readReg s reg = .error .state) : refuses reg 0x03 :=
    exec_sysRdreg_of_error hs hd h rfl
  refine ⟨fun reg h => refuses_operand (readReg_of_not_listed s h),
    fun hp reg h => refuses_state (readReg_param_refused s hp h), fun hr => ?noSession,
    fun hv reg h => refuses_state (readReg_syn_refused s hv h), fun hp => ?param,
    reads_of rfl, reads_of rfl, reads_of rfl, fun hr => ?session, fun hv => ?syn⟩
  case noSession =>
    have hr : decide (s.rx.state ≠ .none) = false := decide_eq_false (not_not_intro hr)
    exact ⟨refuses_state (needs_of_false hr _), refuses_state (needs_of_false hr _)⟩
  case param => and_intros <;> exact reads_of (needs_of_true hp _)
  case session => and_intros <;> exact reads_of (needs_of_true (decide_eq_true hr) _)
  case syn => and_intros <;> exact reads_of (needs_of_true hv _)

/-- Settles O53: the fields do not overlap, so each is read back at its place. -/
theorem statusWordFields : Obligations.StatusWordFields := by
  intro s w
  have h : StatusFields s w.toNat := statusWord_fields s
  exact ⟨getLsbD_of_div_mod h.paramValid, getLsbD_of_div_mod h.txState, getLsbD_of_div_mod h.txStop, h.rxState,
    getLsbD_of_div_mod h.rxFull, getLsbD_of_div_mod h.rxStop, getLsbD_of_div_mod h.siValid, h.preset,
    getLsbD_of_div_mod h.halted, getLsbD_of_div_mod h.synValid, h.reserved⟩

end Sys2Proof.Machine
end

section
/-! PROOFS. The decoder and the rows of the opcode map (30_encoding.md, R64, R67, R68, R70). -/

namespace Sys2Proof

/-! ## What a row selects (R64) -/

section rows
variable {r : OpRow} {w : Word}

/-- The operation code of a row. -/
def OpRow.op (r : OpRow) : Nat := opField r.pattern

/-- The number of immediates a row admits: the mask leaves the low bits free. -/
def OpRow.immBound (r : OpRow) : Nat := 2 ^ 32 - r.mask.toNat

/-- A mask that frees the low `k` bits compares what stands above them. -/
theorem selects_iff_div_eq {k : Nat} (hmask : r.mask = BitVec.allOnes 32 <<< k) :
    r.selects w = true ↔ w.toNat / 2 ^ k * 2 ^ k = r.pattern.toNat := by
  have hle : w.toNat / 2 ^ k * 2 ^ k < 2 ^ 32 := (Nat.div_mul_le_self _ _).trans_lt w.isLt
  rw [OpRow.selects, beq_iff_eq, hmask, ← BitVec.shiftLeft_ushiftRight, ← BitVec.toNat_inj,
    BitVec.toNat_shiftLeft, BitVec.toNat_ushiftRight, Nat.shiftLeft_eq, Nat.shiftRight_eq_div_pow,
    Nat.mod_eq_of_lt hle]

/-- A row fixes the operation code and frees the 0, 1, 2, 8 or 24 low bits of the immediate that its format reads
(R61). -/
theorem row_form (hr : r ∈ opcodeTable) :
    immField r.pattern = 0 ∧ ∃ k ∈ [0, 1, 2, 8, 24], r.mask = BitVec.allOnes 32 <<< k ∧ r.immBound = 2 ^ k := by
  revert r
  decide

/-- A word selects a row iff it has the row's operation code and an immediate the row admits. -/
theorem selects_iff_fields (hr : r ∈ opcodeTable) :
    r.selects w = true ↔ opField w = r.op ∧ immField w < r.immBound := by
  obtain ⟨himm, k, hk, hmask, hbound⟩ := row_form hr
  rw [selects_iff_div_eq hmask, hbound, OpRow.op, opField, opField, immField]
  rw [immField] at himm
  fin_cases hk <;> omega

/-- The operation codes of two rows differ. -/
theorem eq_of_op_eq {r' : OpRow} (hr : r ∈ opcodeTable) (hr' : r' ∈ opcodeTable) (h : r.op = r'.op) : r = r' :=
  List.inj_on_of_nodup_map (f := OpRow.op) (by decide) hr hr' h

end rows

/-! ## The decoder by rows (R64, R67) -/

section decoder
variable {r : OpRow} {w : Word} {i : Instr} {e : DecodeError}

/-- On the operation code of a row the decoder reads the row's command from each immediate the row admits. -/
theorem decode_eq_withImm (hr : r ∈ opcodeTable) (hop : opField w = r.op) :
    ∃ f : Nat → Instr, decode w = withImm r.immBound (immField w) f ∧ ∀ n, (f n).mnemonic = r.mnemonic := by
  rw [decode, hop]
  fin_cases hr <;> exact ⟨_, rfl, fun _ => rfl⟩

/-- On an operation code of no row the decoder reads no command. -/
theorem decode_of_no_row (h : ∀ r ∈ opcodeTable, r.op ≠ opField w) : decode w = .error .unassignedOp := by
  have hops : opField w ∉ opcodeTable.map OpRow.op := by simpa using h
  unfold decode
  split
  case h_24 => rfl
  all_goals
    rename_i hop
    exact absurd (hop ▸ by decide) hops

/-- A word that selects a row decodes to a command of that row. -/
theorem decode_of_selects (hr : r ∈ opcodeTable) (h : r.selects w = true) :
    ∃ i, decode w = .ok i ∧ i.mnemonic = r.mnemonic := by
  obtain ⟨hop, himm⟩ := (selects_iff_fields hr).mp h
  obtain ⟨f, hf, hname⟩ := decode_eq_withImm hr hop
  exact ⟨f (immField w), by rw [hf, withImm, if_pos himm], hname _⟩

/-- A word that decodes selects the row of its command. -/
theorem selects_of_decode (h : decode w = .ok i) :
    ∃ r ∈ opcodeTable, r.selects w = true ∧ r.mnemonic = i.mnemonic := by
  by_cases hrow : ∃ r ∈ opcodeTable, r.op = opField w
  · obtain ⟨r, hr, hop⟩ := hrow
    obtain ⟨f, hf, hname⟩ := decode_eq_withImm hr hop.symm
    rw [hf, withImm] at h
    split at h
    · next himm =>
      cases h
      exact ⟨r, hr, (selects_iff_fields hr).mpr ⟨hop.symm, himm⟩, (hname _).symm⟩
    · cases h
  · rw [decode_of_no_row (by simpa using hrow)] at h
    cases h

/-- A word that does not decode selects no row. -/
theorem not_selects_of_decode_error (h : decode w = .error e) (hr : r ∈ opcodeTable) : r.selects w = false := by
  rw [← Bool.not_eq_true]
  intro hsel
  obtain ⟨i, hi, -⟩ := decode_of_selects hr hsel
  rw [hi] at h
  cases h

/-- A word that selects no row does not decode. -/
theorem decode_error_of_not_selects (h : ∀ r ∈ opcodeTable, r.selects w = false) : ∃ e, decode w = .error e := by
  cases hd : decode w with
  | error e => exact ⟨e, rfl⟩
  | ok i =>
    obtain ⟨r, hr, hsel, -⟩ := selects_of_decode hd
    rw [h r hr] at hsel
    cases hsel

end decoder

/-! ## Words that select no row (R67) -/

section reserved
variable {r : OpRow} {w : Word}

/-- The unassigned operation codes as R67 lists them. -/
abbrev UnassignedOp (op : Nat) : Prop :=
  op = 0x00 ∨ (0x03 ≤ op ∧ op ≤ 0x0F) ∨ (0x11 ≤ op ∧ op ≤ 0x1F) ∨ (0x24 ≤ op ∧ op ≤ 0x2F) ∨
    (0x32 ≤ op ∧ op ≤ 0x3F) ∨ (0x46 ≤ op ∧ op ≤ 0x4F) ∨ op = 0x57 ∨ 0x59 ≤ op

/-- The bound each format other than I puts on the immediate of its rows (R61). -/
structure FormatBounds (op bound : Nat) : Prop where
  zero : op ∉ [0x02, 0x10, 0x22, 0x30, 0x40, 0x44] → bound = 1
  register : op = 0x02 → bound = 2 ^ 8
  preset : op = 0x22 → bound = 2 ^ 2
  stream : op = 0x44 → bound = 2

theorem row_op_assigned (hr : r ∈ opcodeTable) : ¬ UnassignedOp r.op := by
  revert r
  decide

theorem row_formatBounds (hr : r ∈ opcodeTable) : FormatBounds r.op r.immBound := by
  fin_cases hr <;> constructor <;> decide

theorem not_selects_of_unassignedOp (h : UnassignedOp (opField w)) (hr : r ∈ opcodeTable) :
    r.selects w = false := by
  rw [← Bool.not_eq_true, selects_iff_fields hr]
  rintro ⟨hop, -⟩
  exact row_op_assigned hr (hop ▸ h)

theorem not_selects_of_immBound_le (hr : r ∈ opcodeTable) (h : opField w = r.op → r.immBound ≤ immField w) :
    r.selects w = false := by
  rw [← Bool.not_eq_true, selects_iff_fields hr]
  rintro ⟨hop, himm⟩
  exact absurd himm (h hop).not_gt

end reserved

end Sys2Proof

namespace Sys2Proof.Machine

open Sys2Proof

/-! ## The step on a word that does not decode (R67) -/

/-- A step on a word that does not decode is the refusal of an illegal word. -/
theorem step_of_decode_error {w : Word} {e : DecodeError} {s : State} {din : List Frame} {rest : List Turn}
    (ha : s.env.agenda = .cmd w din :: rest) (h : decode w = .error e) :
    step s = refuseIllegal (present din rest s) := by
  rw [step, stepWith, ha]
  simp only [h]

/-! ## Bad operands (R68) -/

section operands
variable {s : State}

theorem exec_sfInit_of_reserved {preset : Nat} (hs : s.halted = false) (h : presetOf preset = none) :
    exec (.sfInit preset) s = .next (s.answered 0x02 []) := by
  rw [exec, execSfInit, unlessHalted_of_running hs, h]
  exact raise_refusal s rfl

/-- With a payload or without one: both are refused with E_OPERAND. -/
theorem exec_sysRdreg_of_not_listed {reg : Nat} (hs : s.halted = false) (h : reg ∉ listedRegNumbers) :
    exec (.sysRdreg reg) s = .next (s.answered 0x02 []) := by
  by_cases hd : s.io.din = []
  · exact exec_sysRdreg_of_error hs hd (readReg_of_not_listed s h) rfl
  · rw [exec, execSysRdreg, unlessHalted_of_running hs]
    exact unlessPayload_of_some hd _

end operands

/-! ## The obligations -/

/-- Settles O3: a row is an operation code of its own and a bound on the immediate, which is how the decoder
branches. -/
theorem decodeFollowsOpcodeTable : Obligations.DecodeFollowsOpcodeTable := by
  refine ⟨rfl, fun w r r' hr hr' hsel hsel' => ?_, fun w i => selects_of_decode,
    fun w e h r => not_selects_of_decode_error h⟩
  obtain ⟨hop, -⟩ := (selects_iff_fields hr).mp hsel
  obtain ⟨hop', -⟩ := (selects_iff_fields hr').mp hsel'
  exact eq_of_op_eq hr hr' (hop.symm.trans hop')

/-- Settles O4: a word of no row does not decode; the unassigned codes have no row, and a row's immediates stay below
the bound of its format. -/
theorem reservedWordIsRefused : Obligations.ReservedWordIsRefused := by
  refine ⟨fun s w din rest ha hs hno => ?refused, fun w hop r => not_selects_of_unassignedOp hop,
    fun w hbits r hr => not_selects_of_immBound_le hr fun hop => ?bits⟩
  case refused =>
    obtain ⟨e, he⟩ := decode_error_of_not_selects hno
    rw [step_of_decode_error ha he, refuseIllegal, unlessHalted_of_running ((present_halted din rest s).trans hs)]
    exact raise_refusal _ rfl
  case bits =>
    have hform := row_formatBounds hr
    rw [hop] at hbits
    obtain ⟨hz, himm⟩ | ⟨hreg, himm⟩ | ⟨hpre, himm⟩ | ⟨hsel, himm⟩ := hbits
    · exact (hform.zero hz).trans_le (Nat.pos_of_ne_zero himm)
    · exact (hform.register hreg).trans_le himm
    · exact (hform.preset hpre).trans_le himm
    · exact (hform.stream hsel).trans_le himm

/-- Settles O5: the decoder evaluates each word; preset 3 and register 0x07 are bad operands. -/
theorem encodingExamplesDecode : Obligations.EncodingExamplesDecode :=
  ⟨rfl, rfl, rfl, rfl, rfl, rfl, rfl, rfl, rfl, rfl, rfl, rfl, rfl, rfl, fun _ hs =>
    ⟨exec_sfInit_of_reserved hs rfl, exec_sysRdreg_of_not_listed hs (by decide)⟩⟩

end Sys2Proof.Machine
end

section
/-! PROOFS. PARAM.LOAD and how long its registers stand (40_parameters.md, R90 to R98). -/

namespace Sys2Proof.Machine

open Sys2Proof

/-! ## The payload of PARAM.LOAD (R90) -/

/-- A payload is read as the input registers exactly when it is one frame of six NUM in the order of R90. -/
theorem paramPayload_eq_some {n : Nat} {din : List Frame} {p : ParamRegs} :
    paramPayload n din = some p ↔
      din = [nums [p.sampleRate, p.slotDuration, p.bandLow, p.bandHigh, p.noiseFloorPower, p.snr]] ∧
        p.symbolCount = n := by
  constructor
  · intro h
    unfold paramPayload at h
    split at h
    · next hd =>
      cases h
      exact ⟨oneNumFrame_eq_some.mp hd, rfl⟩
    · cases h
  · rintro ⟨rfl, rfl⟩
    rw [paramPayload, oneNumFrame_eq_some.mpr rfl]

theorem paramPayload_eq_none {n : Nat} {din : List Frame}
    (h : ∀ xs : List Sample, xs.length = 6 → din ≠ [nums xs]) : paramPayload n din = none := by
  refine Option.eq_none_iff_forall_ne_some.mpr fun p hp => ?_
  obtain ⟨hd, -⟩ := paramPayload_eq_some.mp hp
  exact h _ rfl hd

/-! ## The check of the inputs (R96, R97) -/

theorem paramsValid_deriveFrom (p : ParamRegs) :
    paramsValid p (deriveFrom p) = true ↔
      0 < p.sampleRate ∧ 0 < p.slotDuration ∧ 1 ≤ p.symbolCount ∧ 2 ≤ (deriveFrom p).samplesPerSlot ∧
        (deriveFrom p).accumulationBufferSize ≤ 2 ^ 31 - 1 := by
  simp only [paramsValid, Bool.and_eq_true, decide_eq_true_iff, and_assoc]
  rfl

/-! ## What PARAM.LOAD answers (R90) -/

section load
variable {s : State} {n : Nat} {p : ParamRegs}

theorem exec_paramLoad_of_bad_payload (hs : s.halted = false) (hp : paramPayload n s.io.din = none) :
    exec (.paramLoad n) s = .next (s.answered 0x02 []) := by
  rw [exec, execParamLoad, unlessHalted_of_running hs, hp]
  exact raise_refusal s rfl

theorem exec_paramLoad_of_loaded (hs : s.halted = false) (hp : paramPayload n s.io.din = some p)
    (hv : s.param.valid = true) : exec (.paramLoad n) s = .next (s.answered 0x03 []) := by
  rw [exec, execParamLoad, unlessHalted_of_running hs, hp]
  exact (if_pos hv).trans (raise_refusal s rfl)

theorem exec_paramLoad_of_invalid (hs : s.halted = false) (hp : paramPayload n s.io.din = some p)
    (hv : s.param.valid = false) (hok : paramsValid p (deriveFrom p) = false) :
    exec (.paramLoad n) s = .next (s.answered 0x13 []) := by
  rw [exec, execParamLoad, unlessHalted_of_running hs, hp]
  simp only [hv, hok, Bool.false_eq_true, if_false]
  exact raise_refusal s rfl

theorem exec_paramLoad_of_valid (hs : s.halted = false) (hp : paramPayload n s.io.din = some p)
    (hv : s.param.valid = false) (hok : paramsValid p (deriveFrom p) = true) :
    exec (.paramLoad n) s = .next (Over.State.answered { s with param := ⟨true, p, deriveFrom p⟩ } 0 []) := by
  rw [exec, execParamLoad, unlessHalted_of_running hs, hp]
  simp only [hv, hok, Bool.false_eq_true, if_false, if_true, respond_eq]

end load

/-! ## What leaves PARAM as it is (R98) -/

section frame
variable {s t : State}

theorem Refused.param_eq (h : Refused s t) : t.param = s.param := by
  obtain ⟨code, rfl⟩ := h
  rfl

/-- The shape of the command lemmas `exec…_cases`: a refusal, or one effect. -/
theorem param_eq_of_refused_or {P : Prop} (h : Refused s t ∨ P) (hP : P → t.param = s.param) :
    t.param = s.param :=
  h.elim Refused.param_eq hP

/-- The decode reads PARAM and writes the receiver and the store only. -/
@[simp] theorem finish_param (s : State) : (finish rationals s).state.param = s.param := by
  rcases finish_cases s with ⟨-, h⟩ | ⟨-, h⟩
  · rw [h]
    exact takeException_param _ _
  · rw [h]
    rfl

@[simp] theorem chunkStage_param (c : List Sample) (s : State) :
    (chunkStage rationals c s).state.param = s.param := by
  rcases chunkStage_cases c s with ⟨-, h⟩ | ⟨-, -, -, h⟩ | ⟨-, -, -, h⟩ | ⟨-, -, h⟩
  · rw [h]
    rfl
  · rw [h]
    rfl
  · rw [h]
    exact finish_param _
  · rw [h]
    exact takeException_param _ _

theorem endStage_param {frames : List OutFrame} {g : Stage} (h : endStage frames g = .next t) :
    t.param = g.state.param := by
  obtain ⟨code, fs, rfl⟩ := endStage_cases h
  rfl

theorem batchApply_param (h : batchApply s = .next t) : t.param = s.param :=
  param_eq_of_refused_or (batchApply_cases h) fun ⟨_, _, _, ht⟩ => ht ▸ rfl

theorem statistic_param {f : List Amp → List Amp → Level} (h : statistic f s = .next t) : t.param = s.param := by
  refine param_eq_of_refused_or (statistic_cases h) fun ⟨_, _, _, ht⟩ => ?_
  rcases ht with ⟨-, rfl⟩ | ⟨-, -, rfl⟩
  · exact takeException_param _ _
  · rfl

theorem execRxChunk_param (h : execRxChunk s = .next t) : t.param = s.param := by
  refine param_eq_of_refused_or (execRxChunk_cases h) fun ⟨c, _, _, _, _, _, ht⟩ => ?_
  rcases ht with ⟨-, rfl⟩ | ⟨-, hstage⟩
  · rfl
  · rw [endStage_param hstage, chunkStage_param]

theorem execRxPush_param (h : execRxPush s = .next t) : t.param = s.param := by
  refine param_eq_of_refused_or (execRxPush_cases h) fun ⟨c, _, _, _, _, _, ht⟩ => ?_
  rcases ht with ⟨-, rfl⟩ | ⟨-, hstage⟩
  · rfl
  · rw [endStage_param hstage, chunkStage_param, pushStages_eq]
    rfl

theorem execCmpDiff_param (h : execCmpDiff s = .next t) : t.param = s.param := by
  refine param_eq_of_refused_or (execCmpDiff_cases h) fun ⟨a, b, _, _, ht⟩ => ?_
  rcases ht with ⟨-, rfl⟩ | ⟨-, rfl⟩
  · exact takeException_param _ _
  · rfl

/-- Every command but PARAM.LOAD and SYS.RESET keeps PARAM (R45). -/
theorem exec_param {i : Instr} (hload : ∀ n, i ≠ .paramLoad n) (hreset : i ≠ .sysReset)
    (h : exec i s = .next t) : t.param = s.param := by
  cases i with
  | sysReset => exact absurd rfl hreset
  | paramLoad n => exact absurd rfl (hload n)
  | bcApplyS | bcApplyD => exact batchApply_param h
  | statOnavg | statOnmin | statOnmax | statOffavg | statOffmin | statOffmax | statTotal =>
    exact statistic_param (f := fun _ _ => _) h
  | rxChunk => exact execRxChunk_param h
  | rxPush => exact execRxPush_param h
  | cmpDiff => exact execCmpDiff_param h
  | sysRdreg reg => exact param_eq_of_refused_or (execSysRdreg_cases h) fun ⟨_, _, _, ht⟩ => ht ▸ rfl
  | sfInit preset => exact param_eq_of_refused_or (execSfInit_cases h) fun ⟨_, _, _, _, ht⟩ => ht ▸ rfl
  | sfProc => exact param_eq_of_refused_or (execSfProc_cases h) fun ⟨_, _, _, ht⟩ => ht ▸ rfl
  | txStart n => exact param_eq_of_refused_or (execTxStart_cases h) fun ⟨_, _, _, _, _, _, _, _, ht⟩ => ht ▸ rfl
  | txStop => exact param_eq_of_refused_or (execTxStop_cases h) fun ⟨_, _, ht⟩ => ht ▸ rfl
  | rxStart n => exact param_eq_of_refused_or (execRxStart_cases h) fun ⟨_, _, _, _, _, ht⟩ => ht ▸ rfl
  | rxStop => exact param_eq_of_refused_or (execRxStop_cases h) fun ⟨_, _, ht⟩ => ht ▸ rfl
  | prbLevel sel => exact param_eq_of_refused_or (execPrbLevel_cases h) fun ⟨_, _, _, _, _, _, ht⟩ => ht ▸ rfl
  | slcDecide =>
    exact param_eq_of_refused_or (execSlcDecide_cases h) fun ⟨_, _, _, _, _, _, _, ht⟩ => ht ▸ rfl

/-- PARAM.LOAD does not write over valid registers (R90). -/
theorem exec_paramLoad_param_of_loaded {n : Nat} (hv : s.param.valid = true)
    (h : exec (.paramLoad n) s = .next t) : t.param = s.param :=
  param_eq_of_refused_or (execParamLoad_cases h) fun ⟨_, _, hno, _⟩ => absurd hv (Bool.eq_false_iff.mp hno)

theorem exec_sysReset_param_valid (h : exec .sysReset s = .next t) : t.param.valid = false := by
  rw [execSysReset_cases h]
  rfl

/-- While `paramValid` holds, SYS.RESET alone changes PARAM, and it clears `paramValid` (R98). -/
theorem exec_param_of_loaded {i : Instr} (hv : s.param.valid = true) (h : exec i s = .next t) :
    t.param = s.param ∨ i = .sysReset ∧ t.param.valid = false := by
  by_cases hreset : i = .sysReset
  · subst hreset
    exact .inr ⟨rfl, exec_sysReset_param_valid h⟩
  · by_cases hload : ∃ n, i = .paramLoad n
    · obtain ⟨n, rfl⟩ := hload
      exact .inl (exec_paramLoad_param_of_loaded hv h)
    · exact .inl (exec_param (not_exists.mp hload) hreset h)

@[simp] theorem txRep_param (ready : Bool) (s : State) : (txRep ready s).param = s.param := by
  rcases txRep_cases ready s with ⟨-, h⟩ | ⟨-, -, h⟩ | ⟨-, -, h⟩
  · rw [h]
  · rw [h]
  · rw [h]
    rfl

end frame

/-! ## What a step can do (R9) -/

section turns
variable {s t : State}

/-- An illegal word is refused, halted or not (R67, R261). -/
theorem refused_of_refuseIllegal (h : refuseIllegal s = .next t) : Refused s t := by
  rcases unlessHalted_cases h with ⟨-, h⟩ | ⟨-, h⟩
  · exact ⟨_, h⟩
  · exact refused_of_raise rfl h

/-- No turn, a turn of TXLOOP, a word that decodes, a word that does not. -/
theorem step_cases (h : step s = .next t) :
    (s.env.agenda = [] ∧ t = s) ∨
    (∃ ready rest, s.env.agenda = .rep ready :: rest ∧ t = txRep ready (popTurn rest s)) ∨
    (∃ w din rest i, s.env.agenda = .cmd w din :: rest ∧ decode w = .ok i ∧
      exec i (present din rest s) = .next t) ∨
    (∃ w din rest e, s.env.agenda = .cmd w din :: rest ∧ decode w = .error e ∧
      Refused (present din rest s) t) := by
  unfold step stepWith at h
  split at h
  · next ha =>
    cases h
    exact .inl ⟨ha, rfl⟩
  · next ready rest ha =>
    cases h
    exact .inr (.inl ⟨ready, rest, ha, rfl⟩)
  · next w din rest ha =>
    split at h
    · next i hi => exact .inr (.inr (.inl ⟨w, din, rest, i, ha, hi, h⟩))
    · next e he => exact .inr (.inr (.inr ⟨w, din, rest, e, ha, he, refused_of_refuseIllegal h⟩))

/-- SYS.RESET has one word (R64): its row leaves no bit free. -/
theorem eq_of_decode_sysReset {w : Word} (h : decode w = .ok .sysReset) : w = 0x01000000 := by
  obtain ⟨r, hr, hsel, hname⟩ := selects_of_decode h
  have hrow : ∀ r ∈ opcodeTable, r.mnemonic = "SYS.RESET" → r = ⟨"SYS.RESET", 0x01000000, 0xFFFFFFFF⟩ := by
    decide
  obtain rfl := hrow r hr hname
  have hw := (selects_iff_div_eq (k := 0) rfl).mp hsel
  exact BitVec.eq_of_toNat_eq (by simpa using hw)

end turns

/-! ## The obligations -/

/-- Settles O10: the refusals in their order, the inputs' check being that of the registers they give. -/
theorem paramLoadFollowsItsRule : Obligations.ParamLoadFollowsItsRule := by
  intro s n
  refine ⟨fun hs => unlessHalted_of_halted hs _,
    fun hs hd => exec_paramLoad_of_bad_payload hs (paramPayload_eq_none hd), ?_⟩
  intro sampleRate slotDuration bandLow bandHigh noiseFloorPower snr hs hd sps L ok
  have hp := paramPayload_eq_some (p := ⟨sampleRate, slotDuration, bandLow, bandHigh, noiseFloorPower, snr, n⟩)
    |>.mpr ⟨hd, rfl⟩
  have hok := paramsValid_deriveFrom ⟨sampleRate, slotDuration, bandLow, bandHigh, noiseFloorPower, snr, n⟩
  exact ⟨exec_paramLoad_of_loaded hs hp,
    fun hv hbad => exec_paramLoad_of_invalid hs hp hv (Bool.eq_false_iff.mpr (mt hok.mp hbad)),
    fun hv hgood => exec_paramLoad_of_valid hs hp hv (hok.mpr hgood)⟩

/-- Settles O12: the derived registers are related as R92 to R94 compute them, and of the turns a step can take
only SYS.RESET writes a valid PARAM. -/
theorem parametersNeverMutate : Obligations.ParametersNeverMutate := by
  refine ⟨fun s hparams hv => ?relations, fun s t h hv => ?step⟩
  case relations =>
    obtain ⟨hd, -⟩ := hparams hv
    rw [hd]
    exact ⟨rfl, rfl, rfl, rfl⟩
  case step =>
    rcases step_cases h with ⟨-, rfl⟩ | ⟨ready, rest, -, rfl⟩ | ⟨w, din, rest, i, ha, hi, h⟩ |
      ⟨w, din, rest, e, -, -, h⟩
    · exact .inl rfl
    · exact .inl (txRep_param ready (popTurn rest s))
    · rcases exec_param_of_loaded (s := present din rest s) hv h with hp | ⟨rfl, hp⟩
      · exact .inl hp
      · exact .inr ⟨hp, din, rest, eq_of_decode_sysReset hi ▸ ha⟩
    · exact .inl h.param_eq

end Sys2Proof.Machine
end

section
/-! PROOFS. The filter bank (41_filterbank.md, R110 to R119). -/

namespace Sys2Proof.Machine

open Sys2Proof

/-! ## A cascade and its sections (R112) -/

section cascade
variable {K : Type} [Field K]

@[simp] theorem cascadeStep_nil (sts : List (Over.SecState K)) (x : K) : cascadeStep [] sts x = (sts, x) := by
  cases sts <;> rfl

@[simp] theorem cascadeRun_nil (sts : List (Over.SecState K)) (xs : List K) : cascadeRun [] sts xs = (sts, xs) := by
  induction xs with
  | nil => rfl
  | cons x xs ih => simp [cascadeRun, ih]

theorem cascadeRun_output_length (cs : List (Over.Biquad K)) (sts : List (Over.SecState K)) (xs : List K) :
    (cascadeRun cs sts xs).2.length = xs.length := by
  induction xs generalizing sts with
  | nil => rfl
  | cons x xs ih => simp [cascadeRun, ih]

/-- The first section may take the whole buffer before the others take its result: it sees the same inputs from the
same state (R112). -/
theorem cascadeRun_cons_section (c : Over.Biquad K) (cs : List (Over.Biquad K)) (st : Over.SecState K)
    (sts : List (Over.SecState K)) (xs : List K) :
    cascadeRun (c :: cs) (st :: sts) xs =
      ((cascadeRun [c] [st] xs).1 ++ (cascadeRun cs sts (cascadeRun [c] [st] xs).2).1,
        (cascadeRun cs sts (cascadeRun [c] [st] xs).2).2) := by
  induction xs generalizing st sts with
  | nil => rfl
  | cons x xs ih => simp [cascadeRun, cascadeStep, ih]

/-- States beyond the sections that have coefficients play no part and stay (R16). -/
theorem cascadeStep_append_sections {cs : List (Over.Biquad K)} {sts : List (Over.SecState K)}
    (h : cs.length = sts.length) (later : List (Over.SecState K)) (x : K) :
    cascadeStep cs (sts ++ later) x = ((cascadeStep cs sts x).1 ++ later, (cascadeStep cs sts x).2) := by
  induction cs generalizing sts x with
  | nil =>
    obtain rfl := List.length_eq_zero_iff.mp h.symm
    simp
  | cons c cs ih =>
    cases sts with
    | nil => cases h
    | cons st sts => simp [cascadeStep, ih (Nat.succ.inj h)]

theorem cascadeRun_append_sections {cs : List (Over.Biquad K)} {sts : List (Over.SecState K)}
    (h : cs.length = sts.length) (later : List (Over.SecState K)) (xs : List K) :
    cascadeRun cs (sts ++ later) xs = ((cascadeRun cs sts xs).1 ++ later, (cascadeRun cs sts xs).2) := by
  induction xs generalizing sts with
  | nil => rfl
  | cons x xs ih =>
    have hstep : cs.length = (cascadeStep cs sts x).1.length := h.trans (cascadeStep_length cs sts x).symm
    simp [cascadeRun, cascadeStep_append_sections h, ih hstep]

/-- A buffer in two parts: the second part goes on from the states the first leaves (R119). -/
theorem cascadeRun_append (cs : List (Over.Biquad K)) (sts : List (Over.SecState K)) (xs ys : List K) :
    cascadeRun cs sts (xs ++ ys) =
      ((cascadeRun cs (cascadeRun cs sts xs).1 ys).1,
        (cascadeRun cs sts xs).2 ++ (cascadeRun cs (cascadeRun cs sts xs).1 ys).2) := by
  induction xs generalizing sts with
  | nil => rfl
  | cons x xs ih => simp [cascadeRun, ih]

/-- An output depends on no later input (R116). -/
theorem cascadeRun_take (cs : List (Over.Biquad K)) (sts : List (Over.SecState K)) (xs : List K) (k : Nat) :
    (cascadeRun cs sts (xs.take k)).2 = (cascadeRun cs sts xs).2.take k := by
  induction xs generalizing sts k with
  | nil => simp [cascadeRun]
  | cons x xs ih =>
    cases k with
    | zero => rfl
    | succ k => simp [cascadeRun, ih]

end cascade

/-! ## One section over a buffer (R110, R111) -/

section biquad
variable {K : Type} [Field K] (c : Over.Biquad K) (st : Over.SecState K)

/-- The inputs of a section with its history before them: element `k + 2` is input `k`. -/
def Over.SecState.inputs (st : Over.SecState K) (xs : List K) : List K := st.x2 :: st.x1 :: xs

/-- The outputs of a section with its history before them: element `k + 2` is output `k`. -/
def Over.SecState.outputs (st : Over.SecState K) (ys : List K) : List K := st.y2 :: st.y1 :: ys

theorem cascadeRun_one_cons (x : K) (xs : List K) :
    cascadeRun [c] [st] (x :: xs) =
      ((cascadeRun [c] [(bqStep c st x).1] xs).1,
        (bqStep c st x).2 :: (cascadeRun [c] [(bqStep c st x).1] xs).2) := rfl

/-- After a step the newest input has moved into the history. -/
theorem Over.SecState.inputs_cons (x : K) (xs : List K) : st.inputs (x :: xs) = st.x2 :: (bqStep c st x).1.inputs xs := rfl

/-- After a step the newest output has moved into the history. -/
theorem Over.SecState.outputs_cons (x : K) (ys : List K) :
    st.outputs ((bqStep c st x).2 :: ys) = st.y2 :: (bqStep c st x).1.outputs ys := rfl

theorem cascadeRun_one_difference_equation (xs : List K) (k : Nat) (hk : k < xs.length) :
    let ins := st.inputs xs
    let outs := st.outputs (cascadeRun [c] [st] xs).2
    outs.getD (k + 2) 0 =
      c.b0 * ins.getD (k + 2) 0 + c.b1 * ins.getD (k + 1) 0 + c.b2 * ins.getD k 0
        - c.a1 * outs.getD (k + 1) 0 - c.a2 * outs.getD k 0 := by
  induction xs generalizing st k with
  | nil => cases hk
  | cons x xs ih =>
    cases k with
    | zero => rfl
    | succ k =>
      rw [cascadeRun_one_cons, st.inputs_cons c, st.outputs_cons c]
      exact ih (bqStep c st x).1 k (Nat.lt_of_succ_lt_succ hk)

theorem cascadeRun_one_final_state (xs : List K) :
    let ins := st.inputs xs
    let outs := st.outputs (cascadeRun [c] [st] xs).2
    (cascadeRun [c] [st] xs).1 =
      [⟨ins.getD (xs.length + 1) 0, ins.getD xs.length 0, outs.getD (xs.length + 1) 0,
        outs.getD xs.length 0⟩] := by
  induction xs generalizing st with
  | nil => rfl
  | cons x xs ih =>
    rw [cascadeRun_one_cons, st.inputs_cons c, st.outputs_cons c]
    exact ih (bqStep c st x).1

end biquad

/-! ## Linearity (R116) -/

section linear
variable {K : Type} [Field K] (a b : K)

/-- The combination `a·u + b·v` of two section states, value by value. -/
def Over.SecState.combine (u v : Over.SecState K) : Over.SecState K :=
  ⟨a * u.x1 + b * v.x1, a * u.x2 + b * v.x2, a * u.y1 + b * v.y1, a * u.y2 + b * v.y2⟩

theorem combine_cleared :
    (SecState.cleared : Over.SecState K).combine a b SecState.cleared = SecState.cleared := by
  simp [SecState.cleared, Over.SecState.combine]

theorem bqStep_combine (c : Over.Biquad K) (u v : Over.SecState K) (x y : K) :
    bqStep c (u.combine a b v) (a * x + b * y) =
      ((bqStep c u x).1.combine a b (bqStep c v y).1, a * (bqStep c u x).2 + b * (bqStep c v y).2) := by
  have hout : (bqStep c (u.combine a b v) (a * x + b * y)).2 = a * (bqStep c u x).2 + b * (bqStep c v y).2 := by
    simp only [bqStep, Over.SecState.combine]
    ring
  exact Prod.ext (congrArg (Over.SecState.mk _ _ · _) hout) hout

theorem cascadeStep_combine (cs : List (Over.Biquad K)) (us vs : List (Over.SecState K))
    (h : us.length = vs.length) (x y : K) :
    cascadeStep cs (List.zipWith (.combine a b) us vs) (a * x + b * y) =
      (List.zipWith (.combine a b) (cascadeStep cs us x).1 (cascadeStep cs vs y).1,
        a * (cascadeStep cs us x).2 + b * (cascadeStep cs vs y).2) := by
  induction cs generalizing us vs x y with
  | nil => simp
  | cons c cs ih =>
    match us, vs, h with
    | [], [], _ => rfl
    | u :: us, v :: vs, h => simp [cascadeStep, bqStep_combine, ih us vs (Nat.succ.inj h)]

theorem cascadeRun_combine (cs : List (Over.Biquad K)) (us vs : List (Over.SecState K))
    (h : us.length = vs.length) (xs ys : List K) (hxy : xs.length = ys.length) :
    (cascadeRun cs (List.zipWith (.combine a b) us vs) (List.zipWith (fun x y => a * x + b * y) xs ys)).2 =
      List.zipWith (fun x y => a * x + b * y) (cascadeRun cs us xs).2 (cascadeRun cs vs ys).2 := by
  induction xs generalizing us vs ys with
  | nil =>
    obtain rfl := List.length_eq_zero_iff.mp hxy.symm
    rfl
  | cons x xs ih =>
    match ys, hxy with
    | y :: ys, hxy =>
      have hstep : (cascadeStep cs us x).1.length = (cascadeStep cs vs y).1.length := by
        rw [cascadeStep_length, cascadeStep_length, h]
      simp [cascadeRun, cascadeStep_combine a b cs us vs h, ih _ _ hstep ys (Nat.succ.inj hxy)]

end linear

/-! ## The batch cascade (R113, R116) -/

section batch
variable {K : Type} [Field K] (cfg : Over.Config K)

/-- The output depends on the frame and on the coefficients alone. -/
theorem bcApply_output (xs : List K) :
    (bcApply cfg xs).2 = (cascadeRun cfg.bcCoef.toList (List.replicate 8 SecState.cleared) xs).2 := by
  simp [bcApply]

theorem bcApply_output_length (xs : List K) : (bcApply cfg xs).2.length = xs.length := by
  rw [bcApply_output, cascadeRun_output_length]

theorem bcApply_linear (a b : K) (xs ys : List K) (h : xs.length = ys.length) :
    (bcApply cfg (List.zipWith (fun x y => a * x + b * y) xs ys)).2 =
      List.zipWith (fun x y => a * x + b * y) (bcApply cfg xs).2 (bcApply cfg ys).2 := by
  have hrun := cascadeRun_combine a b cfg.bcCoef.toList (List.replicate 8 SecState.cleared)
    (List.replicate 8 SecState.cleared) rfl xs ys h
  rw [List.zipWith_replicate', combine_cleared] at hrun
  simpa only [bcApply_output] using hrun

/-- Silence is the linear combination with both factors 0. -/
theorem bcApply_silence (n : Nat) : (bcApply cfg (List.replicate n 0)).2 = List.replicate n 0 := by
  have h := bcApply_linear cfg 0 0 (List.replicate n 0) (List.replicate n 0) rfl
  simpa [bcApply_output_length] using h

theorem bcApply_causal (xs : List K) (k : Nat) : (bcApply cfg (xs.take k)).2 = (bcApply cfg xs).2.take k := by
  rw [bcApply_output, bcApply_output, cascadeRun_take]

end batch

/-- A configuration whose eight batch sections each double their input. -/
def doublingConfig : Config := { (default : Config) with bcCoef := Vector.replicate 8 ⟨2, 0, 0, 0, 0⟩ }

/-- Filtering the sample 1 once and twice: the gain of `2 ^ 8` counts each time. -/
theorem doublingConfig_not_idempotent :
    (bcApply doublingConfig (bcApply doublingConfig [1]).2).2 ≠ (bcApply doublingConfig [1]).2 := by
  have once : (bcApply doublingConfig [1]).2 = [256] := by decide +kernel
  have twice : (bcApply doublingConfig [256]).2 = [65536] := by decide +kernel
  rw [once, twice]
  decide

/-! ## The streaming filter (R118, R119) -/

theorem sfCoef_length {K : Type} (cfg : Over.Config K) (p : Preset) : (cfg.sfCoef p).length = p.sections := by
  cases p <;> exact Vector.length_toList

theorem sections_le_ten (p : Preset) : p.sections ≤ 10 := by cases p <;> decide

section stream
variable {K : Type} [Field K] (cfg : Over.Config K) (sf : Over.StreamFilter K)

/-- A call runs the sections of the preset from their live states and keeps the later ones. -/
theorem cascadeRun_sfCoef (xs : List K) :
    cascadeRun (cfg.sfCoef sf.preset) sf.st.toList xs =
      ((cascadeRun (cfg.sfCoef sf.preset) (sf.st.toList.take sf.preset.sections) xs).1 ++
          sf.st.toList.drop sf.preset.sections,
        (cascadeRun (cfg.sfCoef sf.preset) (sf.st.toList.take sf.preset.sections) xs).2) := by
  have hlen : (cfg.sfCoef sf.preset).length = (sf.st.toList.take sf.preset.sections).length := by
    simp [sfCoef_length, sections_le_ten]
  rw [← cascadeRun_append_sections hlen, List.take_append_drop]

theorem sfProcess_states (xs : List K) :
    (sfProcess cfg sf xs).1.st.toList =
      (cascadeRun (cfg.sfCoef sf.preset) (sf.st.toList.take sf.preset.sections) xs).1 ++
        sf.st.toList.drop sf.preset.sections :=
  congrArg Prod.fst (cascadeRun_sfCoef cfg sf xs)

theorem sfProcess_output (xs : List K) :
    (sfProcess cfg sf xs).2 = (cascadeRun (cfg.sfCoef sf.preset) (sf.st.toList.take sf.preset.sections) xs).2 :=
  congrArg Prod.snd (cascadeRun_sfCoef cfg sf xs)

/-- Two calls are one call on both frames (R119). -/
theorem sfProcess_append (xs ys : List K) :
    sfProcess cfg sf (xs ++ ys) =
      ((sfProcess cfg (sfProcess cfg sf xs).1 ys).1,
        (sfProcess cfg sf xs).2 ++ (sfProcess cfg (sfProcess cfg sf xs).1 ys).2) := by
  simp [sfProcess, sectionsAfter, cascadeRun_append]

end stream

/-! ## What the commands answer (R114, R115, R117, R118) -/

section commands
variable {s : State} {xs : List Sample}

theorem oneNumFrame_eq_none {din : List Frame} (h : ∀ xs, din ≠ [nums xs]) : oneNumFrame din = none :=
  Option.eq_none_iff_forall_ne_some.mpr fun xs hx => h xs (oneNumFrame_eq_some.mp hx)

theorem exec_bcApply_of_frame {i : Instr} (hi : i = .bcApplyS ∨ i = .bcApplyD) (hs : s.halted = false)
    (hd : s.io.din = [nums xs]) :
    exec i s = .next (Over.State.answered { s with bcSt := (bcApply s.cfg xs).1 } 0
      [numItems (bcApply s.cfg xs).2]) := by
  have hbatch : exec i s = batchApply s := by obtain rfl | rfl := hi <;> rfl
  rw [hbatch, batchApply, unlessHalted_of_running hs, oneNumFrame_eq_some.mpr hd]
  rfl

theorem exec_sfProc_of_bad_payload (hs : s.halted = false) (hd : ∀ xs, s.io.din ≠ [nums xs]) :
    exec .sfProc s = .next (s.answered 0x02 []) := by
  rw [exec, execSfProc, unlessHalted_of_running hs, oneNumFrame_eq_none hd]
  exact raise_refusal s rfl

theorem exec_sfProc_of_frame (hs : s.halted = false) (hd : s.io.din = [nums xs]) :
    exec .sfProc s = .next (Over.State.answered { s with sf := (sfProcess s.cfg s.sf xs).1 } 0
      [numItems (sfProcess s.cfg s.sf xs).2]) := by
  rw [exec, execSfProc, unlessHalted_of_running hs, oneNumFrame_eq_some.mpr hd]
  rfl

theorem exec_sfInit_of_preset {preset : Nat} {p : Preset} (hs : s.halted = false) (hd : s.io.din = [])
    (hp : presetOf preset = some p) :
    exec (.sfInit preset) s =
      .next (Over.State.answered { s with sf := ⟨p, Vector.replicate 10 SecState.cleared⟩ } 0 []) := by
  rw [exec, execSfInit, unlessHalted_of_running hs, hp]
  exact unlessPayload_of_none hd _

end commands

/-! ## The obligations -/

/-- Settles O13, by induction on the buffer: a step moves the newest input and output into the histories. -/
theorem biquadFollowsDifferenceEquation : Obligations.BiquadFollowsDifferenceEquation := fun c st buf =>
  ⟨cascadeRun_output_length [c] [st] buf, cascadeRun_one_difference_equation c st buf,
    cascadeRun_one_final_state c st buf⟩

/-- Settles O14, by induction on the buffer. -/
theorem cascadeNestingsAgree : Obligations.CascadeNestingsAgree :=
  ⟨cascadeRun_nil [], cascadeRun_cons_section⟩

/-- Settles O15: each call starts from cleared sections, every section is linear, and an output is computed before
the next input is read. -/
theorem batchCascadeLaws : Obligations.BatchCascadeLaws := by
  refine ⟨fun s s' xs i hi hcfg hs hs' => ?memoryless, ⟨doublingConfig, [1], doublingConfig_not_idempotent⟩,
    bcApply_silence, bcApply_linear, bcApply_causal⟩
  refine ⟨_, _, exec_bcApply_of_frame hi hs rfl, exec_bcApply_of_frame hi hs' rfl, ?_⟩
  simp [hcfg]

/-- Settles O17: the ten states split into those of the preset's sections and the later ones. -/
theorem streamProcessFollowsItsRule : Obligations.StreamProcessFollowsItsRule := by
  intro s
  refine ⟨fun hs => unlessHalted_of_halted hs _, exec_sfProc_of_bad_payload, ?_⟩
  intro xs hs hd K
  have hlen : (cascadeRun (s.cfg.sfCoef s.sf.preset) (s.sf.st.toList.take K) xs).1.length = K := by
    simp [cascadeRun_length, K, sections_le_ten]
  refine ⟨(sfProcess s.cfg s.sf xs).1.st, (sfProcess s.cfg s.sf xs).2, exec_sfProc_of_frame hs hd,
    cascadeRun_output_length _ _ _, ?first, sfCoef_length _ _, ?later⟩
  case first => rw [sfProcess_states, sfProcess_output, List.take_left' hlen]
  case later => rw [sfProcess_states, List.drop_left' hlen]

/-- Settles O18: the second call goes on from the states the first has left. -/
theorem streamFilterContinuity : Obligations.StreamFilterContinuity := by
  intro s A B hs
  have whole := exec_sfProc_of_frame (s := s.withDin [nums (A ++ B)]) hs rfl
  rw [sfProcess_append] at whole
  exact ⟨_, _, _, _, exec_sfProc_of_frame hs rfl, exec_sfProc_of_frame hs rfl, whole⟩

/-- Settles O19: the number selects the preset or is refused, and reset writes what SF.INIT ORDER6 writes. -/
theorem streamInitFollowsItsRule : Obligations.StreamInitFollowsItsRule := by
  refine ⟨fun s preset => ⟨fun hs => unlessHalted_of_halted hs _, fun hs h3 => ?reserved,
    fun p hs hd hsel => exec_sfInit_of_preset hs hd ?selected⟩, rfl⟩
  case reserved => exact exec_sfInit_of_reserved hs (h3 ▸ rfl)
  case selected => obtain ⟨rfl, rfl⟩ | ⟨rfl, rfl⟩ | ⟨rfl, rfl⟩ := hsel <;> rfl

end Sys2Proof.Machine
end

section
/-! PROOFS. The modulator (42_modulator.md): TX.START, the slot sequence and TX.REP (R140, R142, R150). -/

namespace Sys2Proof.Machine

open Sys2Proof

/-! ## What TX.START answers (R140) -/

theorem oneByteFrame_eq_none {din : List Frame} (h : ∀ bs, din ≠ [bytes bs]) : oneByteFrame din = none :=
  Option.eq_none_iff_forall_ne_some.mpr fun bs hb => h bs (oneByteFrame_eq_some.mp hb)

/-- The test of R266 accepts the bytes '0' and '1' and no other. -/
theorem all_isBinary_iff {data : List Byte} :
    data.all isBinary = true ↔ ∀ b ∈ data, b = 0x30 ∨ b = 0x31 := by
  simp [isBinary]

section start
variable {s : State} {n : Nat} {data : List Byte}

theorem exec_txStart_of_bad_payload (hs : s.halted = false) (hd : ∀ data, s.io.din ≠ [bytes data]) :
    exec (.txStart n) s = .next (s.answered 0x02 []) := by
  rw [exec, execTxStart, unlessHalted_of_running hs, oneByteFrame_eq_none hd]
  exact raise_refusal s rfl

/-- Without parameters, or during a transmission, TX.START is refused whatever its operands are. -/
theorem exec_txStart_of_blocked (hs : s.halted = false) (hd : s.io.din = [bytes data])
    (hblocked : s.param.valid = false ∨ s.tx.state = .running) :
    exec (.txStart n) s = .next (s.answered 0x03 []) := by
  rw [exec, execTxStart, unlessHalted_of_running hs, oneByteFrame_eq_some.mpr hd]
  rcases hblocked with hv | hr
  · simp only [hv, Bool.not_false, if_true]
    exact raise_refusal s rfl
  · simp only [hr, if_true, ite_self]
    exact raise_refusal s rfl

/-- Where nothing blocks it, TX.START checks its operands in the order of R272: chunk, length, characters. -/
theorem exec_txStart_of_ready (hs : s.halted = false) (hd : s.io.din = [bytes data])
    (hready : ¬ (s.param.valid = false ∨ s.tx.state = .running)) :
    exec (.txStart n) s =
      if n < s.cfg.devMinOut then .next (s.answered 0x10 [])
      else if data.length ≠ s.param.p.symbolCount then .next (s.answered 0x11 [])
      else if data.all isBinary = false then .next (s.answered 0x12 [])
      else .next (Over.State.answered
        { s with tx := ⟨data.map (· == 0x31), false, n, .running, s.tx.buf⟩ } 0 []) := by
  obtain ⟨hv, hr⟩ := not_or.mp hready
  rw [exec, execTxStart, unlessHalted_of_running hs, oneByteFrame_eq_some.mpr hd]
  simp only [(Bool.not_eq_false _).mp hv, hr, Bool.not_true, Bool.false_eq_true, if_false, Bool.not_eq_true']
  rfl

end start

/-! ## The slot sequence (R142) -/

/-- The two slots of a bit: the one its value selects is on. -/
def slotPair (b : Bool) : List Bool := [b, !b]

theorem slots_eq_delimiter_append_pairs (bits : List Bool) :
    slots bits = [true, true, true, false, false, false] ++ bits.flatMap slotPair := by
  have hpair : (fun b => if b then [true, false] else [false, true]) = slotPair := by
    funext b
    cases b <;> rfl
  rw [slots, hpair]
  rfl

theorem flatMap_slotPair_length (bits : List Bool) : (bits.flatMap slotPair).length = 2 * bits.length := by
  simp [List.length_flatMap, slotPair, Nat.mul_comm]

/-- Of the two slots of a bit exactly one is on. -/
theorem flatMap_slotPair_count (bits : List Bool) : (bits.flatMap slotPair).count true = bits.length := by
  have hpair : List.count true ∘ slotPair = fun _ => 1 := by
    funext b
    cases b <;> rfl
  simp [List.count_flatMap, hpair]

theorem flatMap_slotPair_getElem? (bits : List Bool) (i : Nat) (b : Bool) (hb : bits[i]? = some b) :
    (bits.flatMap slotPair)[2 * i]? = some b ∧ (bits.flatMap slotPair)[2 * i + 1]? = some (!b) := by
  induction bits generalizing i with
  | nil => cases hb
  | cons c bits ih =>
    cases i with
    | zero =>
      cases hb
      exact ⟨rfl, rfl⟩
    | succ i => exact ih i hb

/-! ## A turn of TXLOOP (R150) -/

section turn
variable {ready : Bool} {s : State}

theorem repEnabled_iff :
    repEnabled ready s = true ↔ s.halted = false ∧ s.tx.state = .running ∧ (s.tx.stop = true ∨ ready = true) := by
  simp [repEnabled, and_assoc]

theorem txRep_of_not_enabled (h : ¬ repEnabled ready s = true) : txRep ready s = s := if_neg h

theorem txRep_of_stop (h : repEnabled ready s = true) (hstop : s.tx.stop = true) :
    txRep ready s = { s with tx := { s.tx with state := .idle } } := (if_pos h).trans (if_pos hstop)

theorem txRep_of_no_stop (h : repEnabled ready s = true) (hstop : s.tx.stop = false) :
    txRep ready s = repetition s := (if_pos h).trans (if_neg (Bool.not_eq_true _ ▸ hstop))

end turn

/-! ## The obligations -/

/-- Settles O20: the payload is read, then the state and the operands are checked in their order. -/
theorem transmitStartFollowsItsRule : Obligations.TransmitStartFollowsItsRule := by
  intro s n
  refine ⟨fun hs => unlessHalted_of_halted hs _, exec_txStart_of_bad_payload, ?_⟩
  intro data hs hd blocked binary
  refine ⟨exec_txStart_of_blocked hs hd, fun hready hn => ?chunk, fun hready hn hlen => ?length,
    fun hready hn hlen hbad => ?characters, fun hready hn hlen hbin => ?started⟩ <;>
    rw [exec_txStart_of_ready hs hd hready]
  case chunk => exact if_pos hn
  case length => rw [if_neg hn.not_gt, if_pos hlen]
  case characters =>
    rw [if_neg hn.not_gt, if_neg (not_not.mpr hlen),
      if_pos (Bool.eq_false_iff.mpr (mt all_isBinary_iff.mp hbad))]
  case started =>
    rw [if_neg hn.not_gt, if_neg (not_not.mpr hlen), if_neg (by simp [all_isBinary_iff.mpr hbin])]
    rfl

/-- Settles O22: the delimiter's six slots come first, and the pairs after it are counted by induction on the
bits. -/
theorem slotSequenceEncodesBits : Obligations.SlotSequenceEncodesBits := by
  intro bits
  rw [slots_eq_delimiter_append_pairs]
  refine ⟨?length, rfl, fun i b hb => ?pair, ?count⟩
  case length => rw [List.length_append, flatMap_slotPair_length]; rfl
  case pair =>
    rw [Nat.add_assoc, Nat.add_comm 6, Nat.add_comm 6]
    exact flatMap_slotPair_getElem? bits i b hb
  case count => rw [List.count_append, flatMap_slotPair_count]; rfl

/-- Settles O26: the premises of the three cases are the values of `repEnabled` and of the stop flag. -/
theorem txloopStepOutcomes : Obligations.TxloopStepOutcomes := by
  refine fun s ready => ⟨fun hoff => txRep_of_not_enabled fun hen => ?disabled,
    fun hs hr hstop => txRep_of_stop (repEnabled_iff.mpr ⟨hs, hr, .inl hstop⟩) hstop,
    fun hs hr hstop => txRep_of_no_stop (repEnabled_iff.mpr ⟨hs, hr, .inr rfl⟩) hstop⟩
  obtain ⟨hs, hr, hturn⟩ := repEnabled_iff.mp hen
  rcases hoff with hhalted | hidle | ⟨hgo, hbusy⟩
  · cases hs.symm.trans hhalted
  · cases hidle.symm.trans hr
  · simp [hgo, hbusy] at hturn

end Sys2Proof.Machine
end

section
/-! PROOFS. Starting a session and probing a chunk (43_synchronizer.md, R171, R175). -/

namespace Sys2Proof.Machine

open Sys2Proof

/-! ## What RX.START answers (R171) -/

section start
variable {s : State} {n : Nat}

/-- The state of a new session: a zero-filled buffer, and the results of the old session no longer valid. -/
def newSession (n : Nat) (s : State) : State :=
  { s with
    rx :=
      { s.rx with
        buf := List.replicate s.param.d.accumulationBufferSize 0
        cursor := 0
        full := false
        stop := false
        chunk := n
        synValid := false
        state := .accumulating }
    slc := { s.slc with valid := false } }

/-- Where no payload is presented, RX.START checks the chunk size, the parameters and the device minimum. -/
theorem exec_rxStart_of_no_payload (hs : s.halted = false) (hd : s.io.din = []) :
    exec (.rxStart n) s =
      if n = 0 then .next (s.answered 0x02 [])
      else if s.param.valid = false then .next (s.answered 0x03 [])
      else if n < s.cfg.devMinIn then .next (s.answered 0x10 [])
      else .next ((newSession n s).answered 0 []) := by
  rw [exec, execRxStart, unlessHalted_of_running hs, unlessPayload_of_none hd]
  simp only [Bool.not_eq_true']
  rfl

/-- A chunk size of 0 is refused with every payload: an unwanted payload has the same code. -/
theorem exec_rxStart_zero (hs : s.halted = false) : exec (.rxStart 0) s = .next (s.answered 0x02 []) := by
  by_cases hd : s.io.din = []
  · exact (exec_rxStart_of_no_payload hs hd).trans (if_pos rfl)
  · rw [exec, execRxStart, unlessHalted_of_running hs, unlessPayload_of_some hd]

end start

/-! ## The level of a sequence as a real number (R4, R5) -/

/-- Level and amplitude agree over the reals; an amplitude whose mean square is 0 is silent in both. -/
theorem Over.Amp.dB_real (a : Over.Amp Sample) : a.dB.real = dBReal a.real := by
  by_cases h : a.ms = 0
  · simp [Over.Amp.dB, Over.Amp.real, Over.Level.real, h, dBReal_zero]
  · simp [Over.Amp.dB, Over.Amp.real, Over.Level.real, h]

/-- The amplitude the model holds for a sequence is its root mean square over the reals. -/
theorem rms_real (xs : List Sample) : (rms xs).real = rmsReal xs := by
  simp [rms, Over.Amp.real, rmsReal, Rat.cast_list_sum, pow_two, Function.comp_def]

/-! ## What PRB.LEVEL answers (R175) -/

section probe
variable {s : State} {sel : StreamSel} {c : List Sample}

theorem oneChunk_eq_none {din : List Frame} (h : ∀ c, c ≠ [] → din ≠ [nums c]) : oneChunk din = none :=
  Option.eq_none_iff_forall_ne_some.mpr fun c hc =>
    have ⟨hd, hne⟩ := oneChunk_eq_some.mp hc
    h c hne hd

theorem exec_prbLevel_of_bad_payload (hs : s.halted = false) (hd : ∀ c, c ≠ [] → s.io.din ≠ [nums c]) :
    exec (.prbLevel sel) s = .next (s.answered 0x02 []) := by
  rw [exec, execPrbLevel, unlessHalted_of_running hs, oneChunk_eq_none hd]
  exact raise_refusal s rfl

theorem exec_prbLevel_of_chunk (hs : s.halted = false) (hne : c ≠ []) (hd : s.io.din = [nums c]) :
    exec (.prbLevel sel) s =
      .next ((s.emitted [if sel = .raw then .levelRaw (rms c).dB else .levelFilt (rms c).dB]).answered 0
        [[.num (.level (rms c).dB)]]) := by
  rw [exec, execPrbLevel, unlessHalted_of_running hs, oneChunk_eq_some.mpr ⟨hd, hne⟩]
  cases sel <;> rfl

end probe

/-! ## The obligations -/

/-- Settles O29: the cases are the branches of the checks, in their order. -/
theorem receiveStartFollowsItsRule : Obligations.ReceiveStartFollowsItsRule := by
  refine fun s n => ⟨fun hs => unlessHalted_of_halted hs _, fun hs hn => hn ▸ exec_rxStart_zero hs,
    fun hs hd hn hv => ?parameters, fun hs hd hn hv hmin => ?minimum, fun hs hd hn hv hmin => ?started⟩ <;>
    rw [exec_rxStart_of_no_payload hs hd, if_neg hn]
  case parameters => exact if_pos hv
  case minimum => rw [if_neg (by simp [hv]), if_pos hmin]
  case started =>
    rw [if_neg (by simp [hv]), if_neg hmin.not_gt]
    rfl

/-- Settles O37: the level of the chunk is the real level of its root mean square. -/
theorem probeFollowsItsRule : Obligations.ProbeFollowsItsRule := by
  refine fun s sel => ⟨fun hs => unlessHalted_of_halted hs _, exec_prbLevel_of_bad_payload, fun c hs hne hd =>
    ⟨(rms c).dB, ?level, exec_prbLevel_of_chunk hs hne hd⟩⟩
  rw [Over.Amp.dB_real, rms_real]

end Sys2Proof.Machine
end

section
/-! PROOFS. The slicer: the two decisions on real levels and SLC.DECIDE (44_slicer.md, R213, R214, R218). -/

namespace Sys2Proof.Machine

open Sys2Proof

/-! ## Amplitudes and decibels as real numbers (R4, R5) -/

/-- `dB` grows strictly with the amplitude, silence below every other level. -/
theorem dBReal_strictMonoOn : StrictMonoOn dBReal (Set.Ici 0) := by
  intro r (hr : 0 ≤ r) r' _ hlt
  rw [dBReal_of_pos (hr.trans_lt hlt)]
  rcases hr.eq_or_lt with rfl | hpos
  · rw [dBReal_zero]
    exact WithBot.bot_lt_coe _
  · rw [dBReal_of_pos hpos, WithBot.coe_lt_coe]
    have hlog := Real.logb_lt_logb (b := 10) (by norm_num) hpos hlt
    linarith

theorem Over.Amp.real_nonneg (a : Over.Amp Sample) : 0 ≤ a.real := Real.sqrt_nonneg _

theorem Over.Amp.real_lt_real_iff {a b : Over.Amp Sample} (ha : 0 ≤ a.ms) : a.real < b.real ↔ a.ms < b.ms := by
  rw [Over.Amp.real, Over.Amp.real, Real.sqrt_lt_sqrt_iff (by exact_mod_cast ha), Rat.cast_lt]

theorem ofLinear_real {x : Sample} (hx : 0 ≤ x) : (Amp.ofLinear x).real = x := by
  rw [Over.Amp.real, Amp.ofLinear, Rat.cast_mul, Real.sqrt_mul_self (by exact_mod_cast hx)]

theorem ofLinear_dB_real {x : Sample} (hx : 0 ≤ x) : (Amp.ofLinear x).dB.real = dBReal x := by
  rw [Over.Amp.dB_real, ofLinear_real hx]

theorem rms_ms_nonneg (xs : List Sample) : 0 ≤ (rms xs).ms := by
  refine div_nonneg (List.sum_nonneg fun q hq => ?_) (Nat.cast_nonneg _)
  obtain ⟨x, -, rfl⟩ := List.mem_map.mp hq
  exact mul_self_nonneg x

/-! ## The ML bit (R213) -/

theorem mlBit_iff_dBReal_lt {first second : Amp} (h : 0 ≤ second.ms) :
    mlBit first second = true ↔ dBReal second.real < dBReal first.real := by
  rw [dBReal_strictMonoOn.lt_iff_lt second.real_nonneg first.real_nonneg, Over.Amp.real_lt_real_iff h]
  exact decide_eq_true_iff

theorem bitNat_mlBit_ofLinear {x y : Sample} (hx : 0 ≤ x) (hy : 0 ≤ y) :
    bitNat (mlBit (Amp.ofLinear x) (Amp.ofLinear y)) = if y < x then 1 else 0 := by
  have hiff : mlBit (Amp.ofLinear x) (Amp.ofLinear y) = true ↔ y < x :=
    decide_eq_true_iff.trans (mul_self_lt_mul_self_iff hy hx).symm
  simp only [bitNat, hiff]

/-! ## The secure bit (R214) -/

section secure
variable (d : DerivedRegs) (first second : Amp)

theorem secureBit_eq_one_iff :
    secureBit rationals d first second = .one ↔
      ((d.thresholdHigh : ℝ) : WithBot ℝ) ≤ dBReal first.real ∧
        dBReal second.real ≤ ((d.thresholdLow : ℝ) : WithBot ℝ) := by
  simp only [secureBit, rationals, Bool.and_eq_true, Over.Amp.dbGe_iff, Over.Amp.dbLe_iff]
  split_ifs with hone hzero <;> simp [hone]

theorem secureBit_eq_zero_iff :
    secureBit rationals d first second = .zero ↔
      ¬ (((d.thresholdHigh : ℝ) : WithBot ℝ) ≤ dBReal first.real ∧
        dBReal second.real ≤ ((d.thresholdLow : ℝ) : WithBot ℝ)) ∧
      dBReal first.real ≤ ((d.thresholdLow : ℝ) : WithBot ℝ) ∧
        ((d.thresholdHigh : ℝ) : WithBot ℝ) ≤ dBReal second.real := by
  simp only [secureBit, rationals, Bool.and_eq_true, Over.Amp.dbGe_iff, Over.Amp.dbLe_iff]
  split_ifs with hone hzero <;> simp [*]

end secure

theorem Secure.eq_unclear_iff (b : Secure) : b = .unclear ↔ b ≠ .one ∧ b ≠ .zero := by
  cases b <;> decide

/-! ## A single threshold `T` (R214) -/

section threshold
variable {α : Type} [LinearOrder α] (f s T : α)

/-- Past the 1-clause, both levels meet the 0-clause only off the corner `f = s = T`. -/
theorem zero_clause_at_threshold :
    ¬ (T ≤ f ∧ s ≤ T) ∧ f ≤ T ∧ T ≤ s ↔ (f = T ∧ T < s) ∨ (f < T ∧ T ≤ s) := by
  rcases lt_trichotomy f T with hf | rfl | hf
  · simp [hf, hf.le, hf.ne, hf.not_ge]
  · simpa using le_of_lt
  · simp [hf.ne', hf.not_ge, hf.not_gt]

/-- No clause holds exactly when the levels lie strictly on one side of the threshold. -/
theorem no_clause_at_threshold :
    ¬ (T ≤ f ∧ s ≤ T) ∧ ¬ (f ≤ T ∧ T ≤ s) ↔ (T < f ∧ T < s) ∨ (f < T ∧ s < T) := by
  rcases lt_trichotomy f T with hf | rfl | hf
  · simp [hf, hf.le, hf.not_ge, hf.not_gt]
  · simpa using le_of_lt
  · simp [hf, hf.le, hf.not_ge, hf.not_gt]

end threshold

/-! ## What SLC.DECIDE answers (R218) -/

section command
variable {s : State} {x y : Sample}

theorem exec_slcDecide_of_bad_payload (hs : s.halted = false) (hd : ∀ x y, s.io.din ≠ [nums [x, y]]) :
    exec .slcDecide s = .next (s.answered 0x02 []) := by
  rw [exec, execSlcDecide, slcDecide, unlessHalted_of_running hs]
  split
  case h_1 x y h => exact absurd (oneNumFrame_eq_some.mp h) (hd x y)
  case h_2 => exact raise_refusal s rfl

/-- Two samples on `din` leave the checks of R218 in their order. -/
theorem exec_slcDecide_of_powers (hs : s.halted = false) (hd : s.io.din = [nums [x, y]]) :
    exec .slcDecide s =
      if x < 0 ∨ y < 0 then .next (s.answered 0x02 [])
      else if s.param.valid = false then .next (s.answered 0x03 [])
      else .next (s.answered 0 [slicerFrame rationals s.param.d x y]) := by
  rw [exec, execSlcDecide, slcDecide, unlessHalted_of_running hs, oneNumFrame_eq_some.mpr hd]
  cases s.param.valid <;> rfl

theorem slicerFrame_of_nonneg (d : DerivedRegs) (hx : 0 ≤ x) (hy : 0 ≤ y) :
    slicerFrame rationals d x y =
      [.int (if y < x then 1 else 0), .int (secureBit rationals d (Amp.ofLinear x) (Amp.ofLinear y)).toNat,
        .num (.val (max x y)), .num (.val (min x y)),
        .num (.level (Amp.ofLinear x).dB), .num (.level (Amp.ofLinear y).dB)] := by
  rw [slicerFrame, bitNat_mlBit_ofLinear hx hy, Nat.cast_ite, Nat.cast_one, Nat.cast_zero]

end command

/-! ## The obligations -/

/-- Settles O43: each amplitude held is the square root of its mean square, and `dB` is strictly monotone. -/
theorem mlBitComparesRealLevels : Obligations.MlBitComparesRealLevels :=
  ⟨fun xs _ => ⟨rms_ms_nonneg xs, rms_real xs⟩, fun a _ => a.dB_real, fun _ => ofLinear_real,
    fun _ _ _ => mlBit_iff_dBReal_lt⟩

/-- Settles O44: the clauses on real levels; with one threshold, by where the first level lies to it. -/
theorem secureBitSplitsAtThreshold : Obligations.SecureBitSplitsAtThreshold := by
  intro d first second _ _ fd sd th tl
  have hone := secureBit_eq_one_iff d first second
  have hzero := secureBit_eq_zero_iff d first second
  refine ⟨hone, hzero, fun heq => ?_⟩
  rw [← heq] at hone hzero
  refine ⟨hone, hzero.trans (zero_clause_at_threshold fd sd th), ?unclear⟩
  rw [Secure.eq_unclear_iff, ne_eq, ne_eq, hzero, hone, ← no_clause_at_threshold]
  exact and_congr_right fun hnot => by rw [and_iff_right hnot]

/-- Settles O45: the cases are the branches of the checks, in their order. -/
theorem slicerCommandFollowsItsRule : Obligations.SlicerCommandFollowsItsRule := by
  refine fun s => ⟨fun hs => unlessHalted_of_halted hs _, exec_slcDecide_of_bad_payload, fun x y hs hd =>
    ⟨fun hneg => ?negative, fun hx hy hv => ?parameters, fun hx hy hv =>
      ⟨(Amp.ofLinear x).dB, (Amp.ofLinear y).dB, ofLinear_dB_real hx, ofLinear_dB_real hy, ?decided⟩⟩⟩ <;>
    rw [exec_slcDecide_of_powers hs hd]
  case negative => exact if_pos hneg
  case parameters => rw [if_neg (by simp [hx, hy]), if_pos hv]
  case decided => rw [if_neg (by simp [hx, hy]), if_neg (by simp [hv]), slicerFrame_of_nonneg _ hx hy]

end Sys2Proof.Machine
end

section
/-! PROOFS. CMP.DIFF: its refusals, the count and the fatal outcome (45_slotstats.md, R238, R268). -/

namespace Sys2Proof.Machine

open Sys2Proof

/-! ## The count of differing positions (R238) -/

theorem countDifferences_cons (x y : Byte) (a b : List Byte) :
    countDifferences (x :: a) (y :: b) = countDifferences a b + if x ≠ y then 1 else 0 := by
  simp [countDifferences, List.countP_cons]

/-- The model counts along the two strings, R238 over the positions `k`: past the first position,
the rule's count for the tails is the same count with `k` one lower. -/
theorem countDifferences_eq_positions {a b : List Byte} (h : a.length = b.length) :
    countDifferences a b = ((List.range a.length).filter fun k => a[k]? ≠ b[k]?).length := by
  simp only [← List.countP_eq_length_filter]
  induction a generalizing b with
  | nil => rfl
  | cons x a ih =>
    match b with
    | y :: b =>
      rw [countDifferences_cons, ih (Nat.succ.inj h), List.length_cons, List.range_succ_eq_map,
        List.countP_cons, List.countP_map]
      simp [Function.comp_def]

/-! ## What CMP.DIFF answers (R238, R268) -/

theorem twoByteFrames_eq_none {din : List Frame} (h : ∀ a b, din ≠ [bytes a, bytes b]) :
    twoByteFrames din = none :=
  Option.eq_none_iff_forall_ne_some.mpr fun (a, b) hab => h a b (twoByteFrames_eq_some.mp hab)

section command
variable {s : State} {a b : List Byte}

theorem exec_cmpDiff_of_bad_payload (hs : s.halted = false) (hd : ∀ a b, s.io.din ≠ [bytes a, bytes b]) :
    exec .cmpDiff s = .next (s.answered 0x02 []) := by
  rw [exec, execCmpDiff, unlessHalted_of_running hs, twoByteFrames_eq_none hd]
  exact raise_refusal s rfl

/-- Two byte strings on `din` are compared where their lengths agree, and are fatal where they do not. -/
theorem exec_cmpDiff_of_strings (hs : s.halted = false) (hd : s.io.din = [bytes a, bytes b]) :
    exec .cmpDiff s =
      if a.length ≠ b.length then .next (takeException .fatalCmplen s)
      else .next (s.answered 0 [[.int (countDifferences a b)]]) := by
  rw [exec, execCmpDiff, unlessHalted_of_running hs, twoByteFrames_eq_some.mpr hd]
  rfl

end command

/-! ## The obligation -/

/-- Settles O50: the clauses are the branches of CMP.DIFF's checks, its count taken over positions. -/
theorem compareFollowsItsRule : Obligations.CompareFollowsItsRule := by
  refine fun s => ⟨fun hs => unlessHalted_of_halted hs _, exec_cmpDiff_of_bad_payload,
    fun a b hs hd => ⟨fun hne => ?fatal, fun heq => ?counted⟩⟩ <;>
    rw [exec_cmpDiff_of_strings hs hd]
  case fatal => rw [if_pos hne, takeException_fatal]
  case counted => rw [if_neg (not_not.mpr heq), countDifferences_eq_positions heq]

end Sys2Proof.Machine
end

section
/-! PROOFS. The halted block: its answer to every word but SYS.RESET's, and TX.REP (60_exceptions.md, R261). -/

namespace Sys2Proof.Machine

open Sys2Proof

/-! ## The step on a word that decodes, and commands in a halted block (R261) -/

/-- The decoded command runs with its payload on `din`. -/
theorem step_of_decode_ok {w : Word} {i : Instr} {s : State} {din : List Frame} {rest : List Turn}
    (ha : s.env.agenda = .cmd w din :: rest) (h : decode w = .ok i) :
    step s = exec i (present din rest s) := by
  rw [step, stepWith, ha]
  simp only [h]

/-- Every command but SYS.RESET begins with the halted check. -/
theorem exec_of_halted {i : Instr} {s : State} (hs : s.halted = true) (hi : i ≠ .sysReset) :
    exec i s = .next (s.answered 0x3F []) := by
  cases i with
  | sysReset => exact absurd rfl hi
  | _ => exact unlessHalted_of_halted hs _

/-! ## The obligation -/

/-- Settles O8: a word that decodes to no SYS.RESET meets the halted check of its command, a word that does not decode
meets it in the refusal of illegal words. -/
theorem haltedBlockRefuses : Obligations.HaltedBlockRefuses := by
  refine ⟨fun s w din rest hs ha hw => ?word, fun s ready hs => txRep_of_not_enabled fun hen => ?turn⟩
  case word =>
    have hhalted : (present din rest s).halted = true := (present_halted din rest s).trans hs
    match hdec : decode w with
    | .ok i =>
      rw [step_of_decode_ok ha hdec]
      exact exec_of_halted hhalted fun hi => hw (eq_of_decode_sysReset (hi ▸ hdec))
    | .error e =>
      rw [step_of_decode_error ha hdec]
      exact unlessHalted_of_halted hhalted _
  case turn =>
    obtain ⟨hrunning, -⟩ := repEnabled_iff.mp hen
    cases hrunning.symm.trans hs

end Sys2Proof.Machine
end

section
/-! PROOFS. The encoder and the decoder are inverse to each other (30_encoding.md, R60 to R62). -/

namespace Sys2Proof

/-! ## The fields of an encoded command (R60) -/

section fields
variable {i : Instr} {w : Word}

theorem op_lt (i : Instr) : i.op < 2 ^ 8 := by cases i <;> simp [Instr.op]

/-- The immediate of a well-formed command fits its field, whichever the format (R62). -/
theorem imm_lt (h : i.wf = true) : i.imm < 2 ^ 24 := by
  cases i with
  | sysRdreg reg => exact (Laws.OpcodeFields.sysRdreg reg).2 h
  | paramLoad n => exact (Laws.OpcodeFields.paramLoad n).2 h
  | sfInit preset => exact (Laws.OpcodeFields.sfInit preset).2 h
  | txStart n => exact (Laws.OpcodeFields.txStart n).2 h
  | rxStart n => exact (Laws.OpcodeFields.rxStart n).2 h
  | prbLevel sel => exact (Laws.OpcodeFields.prbLevel sel).2 h
  | _ => exact Nat.two_pow_pos 24

theorem opField_encode (h : i.imm < 2 ^ 24) : opField (encode i) = i.op := by
  have hop := op_lt i
  rw [opField, encode, BitVec.toNat_ofNat]
  omega

theorem immField_encode (h : i.imm < 2 ^ 24) : immField (encode i) = i.imm := by
  have hop := op_lt i
  rw [immField, encode, BitVec.toNat_ofNat]
  omega

/-- A word is its two fields (R60). -/
theorem encode_of_fields (hop : opField w = i.op) (himm : immField w = i.imm) : encode i = w := by
  apply BitVec.eq_of_toNat_eq
  have hw := w.isLt
  rw [encode, BitVec.toNat_ofNat, ← hop, ← himm, opField, immField]
  omega

end fields

/-! ## What the decoder reads from the two fields (R61, R62) -/

section decoder
variable {i : Instr} {w : Word}

theorem withImm_eq_ok {bound imm : Nat} {f : Nat → Instr} :
    withImm bound imm f = .ok i ↔ imm < bound ∧ f imm = i := by
  rw [withImm]
  split <;> simp [*]

/-- The fields of a well-formed command decode to it. -/
theorem decode_of_fields (hwf : i.wf = true) (hop : opField w = i.op) (himm : immField w = i.imm) :
    decode w = .ok i := by
  rw [decode, hop, himm]
  cases i with
  | sysRdreg reg => exact if_pos (of_decide_eq_true hwf)
  | paramLoad n => exact if_pos (of_decide_eq_true hwf)
  | sfInit preset => exact if_pos (of_decide_eq_true hwf)
  | txStart n => exact if_pos (of_decide_eq_true hwf)
  | rxStart n => exact if_pos (of_decide_eq_true hwf)
  | prbLevel sel => cases sel <;> rfl
  | _ => rfl

/-- Format B reads bit 0 as the stream that encodes to it. -/
theorem imm_prbLevel_streamOf {n : Nat} (h : n < 2) : n = (Instr.prbLevel (streamOf n)).imm := by
  interval_cases n <;> rfl

/-- A word that decodes has the fields of its command, which is well formed. -/
theorem fields_of_decode (h : decode w = .ok i) : i.wf = true ∧ opField w = i.op ∧ immField w = i.imm := by
  unfold decode at h
  split at h
  case h_24 => cases h
  all_goals
    rename_i hop
    obtain ⟨himm, rfl⟩ := withImm_eq_ok.mp h
  case h_2 | h_3 | h_6 | h_8 | h_10 => exact ⟨decide_eq_true himm, hop, rfl⟩
  case h_14 => exact ⟨rfl, hop, imm_prbLevel_streamOf himm⟩
  all_goals exact ⟨rfl, hop, Nat.lt_one_iff.mp himm⟩

end decoder

/-! ## The obligations -/

/-- Settles O1: the word holds the operation code and the immediate in fields of their own, and the decoder reads a
well-formed command from its fields. -/
theorem decodeInvertsEncode : Obligations.DecodeInvertsEncode := fun _ hwf =>
  decode_of_fields hwf (opField_encode (imm_lt hwf)) (immField_encode (imm_lt hwf))

/-- Settles O2: the branch the decoder took gives the two fields, and the word is its fields. -/
theorem decodedCommandReencodes : Obligations.DecodedCommandReencodes := by
  intro w i h
  obtain ⟨hwf, hop, himm⟩ := fields_of_decode h
  exact ⟨hwf, encode_of_fields hop himm⟩

end Sys2Proof
end

section
/-! PROOFS. The step and its turns (00_scope.md, R9), and every effect a command can have: what it writes besides the
response. -/

namespace Sys2Proof.Machine

open Sys2Proof

/-! ## The turns of a step (R9) -/

section turns
variable {s : State}

theorem step_of_no_turn (ha : s.env.agenda = []) : step s = .next s := by rw [step, stepWith, ha]

theorem step_of_rep {ready : Bool} {rest : List Turn} (ha : s.env.agenda = .rep ready :: rest) :
    step s = .next (txRep ready (popTurn rest s)) := by rw [step, stepWith, ha]

/-- Taking the word that `withFetchWord` has placed leaves the state it was placed in. -/
theorem step_withFetchWord {w : Nat} {i : Instr} (h : decode (tableWord 32 w) = .ok i) :
    step (s.withFetchWord 32 w) = exec i s :=
  step_of_decode_ok (s := s.withFetchWord 32 w) rfl h

end turns

/-! ## Every command answers (R67, R68, R277) -/

section answers
variable {s : State} {body : Result}

/-- The outcome is a next state. -/
abbrev Answers (r : Result) : Prop := ∃ t, r = .next t

theorem respond_answers (frames : List OutFrame) (s : State) : Answers (respond frames s) := ⟨_, rfl⟩

theorem raise_answers (x : Exc) (s : State) : Answers (raise x s) := ⟨_, rfl⟩

theorem ite_answers {P : Prop} [Decidable P] {r r' : Result} (h : Answers r) (h' : Answers r') :
    Answers (if P then r else r') := by
  split
  · exact h
  · exact h'

theorem unlessHalted_answers (h : Answers body) : Answers (unlessHalted s body) :=
  ite_answers (raise_answers _ _) h

theorem unlessPayload_answers (h : Answers body) : Answers (unlessPayload s body) := by
  unfold unlessPayload
  split
  · exact h
  · exact raise_answers _ _

theorem endStage_answers (frames : List OutFrame) (g : Stage) : Answers (endStage frames g) := by
  cases g with
  | done s => exact respond_answers frames s
  | raised s => exact ⟨s, rfl⟩

theorem statistic_answers (f : List Amp → List Amp → Level) (s : State) : Answers (statistic f s) :=
  unlessHalted_answers (unlessPayload_answers
    (ite_answers (raise_answers _ _) (ite_answers (raise_answers _ _) (respond_answers _ _))))

theorem batchApply_answers (s : State) : Answers (batchApply s) := by
  refine unlessHalted_answers ?_
  split
  · exact raise_answers _ _
  · exact respond_answers _ _

/-- Behind the checks of its row a command responds, raises an exception, or ends with its chunk stage. -/
theorem exec_answers (i : Instr) (s : State) : Answers (exec i s) := by
  cases i with
  | sysReset => exact respond_answers _ _
  | bcApplyS | bcApplyD => exact batchApply_answers s
  | txStop | rxStop => exact unlessHalted_answers (unlessPayload_answers (respond_answers _ _))
  | statOnavg | statOnmin | statOnmax | statOffavg | statOffmin | statOffmax | statTotal =>
    exact statistic_answers (fun _ _ => _) s
  | rxStart n =>
    exact unlessHalted_answers (unlessPayload_answers (ite_answers (raise_answers _ _)
      (ite_answers (raise_answers _ _) (ite_answers (raise_answers _ _) (respond_answers _ _)))))
  | sysRdreg reg =>
    refine unlessHalted_answers (unlessPayload_answers ?_)
    split
    · exact raise_answers _ _
    · exact respond_answers _ _
  | paramLoad n =>
    refine unlessHalted_answers ?_
    split
    · exact raise_answers _ _
    · exact ite_answers (raise_answers _ _) (ite_answers (respond_answers _ _) (raise_answers _ _))
  | sfInit preset =>
    refine unlessHalted_answers ?_
    split
    · exact raise_answers _ _
    · exact unlessPayload_answers (respond_answers _ _)
  | sfProc | prbLevel sel =>
    refine unlessHalted_answers ?_
    split
    · exact raise_answers _ _
    · exact respond_answers _ _
  | txStart n =>
    refine unlessHalted_answers ?_
    split
    · exact raise_answers _ _
    · exact ite_answers (raise_answers _ _) (ite_answers (raise_answers _ _) (ite_answers (raise_answers _ _)
        (ite_answers (raise_answers _ _) (ite_answers (raise_answers _ _) (respond_answers _ _)))))
  | rxChunk | rxPush =>
    refine unlessHalted_answers ?_
    split
    · exact raise_answers _ _
    · exact ite_answers (raise_answers _ _) (ite_answers (raise_answers _ _)
        (ite_answers (respond_answers _ _) (endStage_answers _ _)))
  | slcDecide =>
    refine unlessHalted_answers ?_
    split
    · exact ite_answers (raise_answers _ _) (ite_answers (raise_answers _ _) (respond_answers _ _))
    · exact raise_answers _ _
  | cmpDiff =>
    refine unlessHalted_answers ?_
    split
    · exact raise_answers _ _
    · exact ite_answers (raise_answers _ _) (respond_answers _ _)

theorem step_answers (s : State) : Answers (step s) := by
  match ha : s.env.agenda with
  | [] => exact ⟨s, step_of_no_turn ha⟩
  | .rep ready :: rest => exact ⟨_, step_of_rep ha⟩
  | .cmd w din :: rest =>
    match hdec : decode w with
    | .ok i => exact step_of_decode_ok ha hdec ▸ exec_answers i _
    | .error e => exact step_of_decode_error ha hdec ▸ unlessHalted_answers (raise_answers _ _)

end answers

/-! ## The effects of the chunk stage (R173, R174, R269) -/

section stage

/-- The coarse search on the buffer of a session. -/
def Over.State.coarse (s : Over.State Sample) : Coarse := coarseSync s.cfg s.param.d s.rx.buf

/-- The fine search on the buffer of a session. -/
def Over.State.fine (s : Over.State Sample) : Fine := fineSync s.cfg s.param.d s.param.p.symbolCount s.coarse

/-- The symbols of the buffer of a session. -/
def Over.State.symbols (s : Over.State Sample) : List (Over.SymbolResult Sample) :=
  demodulate rationals s.param.d s.param.p.symbolCount s.rx.buf s.fine.delay

/-- What a decode without a range fault writes, the events set apart (R174, R187, R217). -/
def Over.State.decodedBuffer (s : Over.State Sample) : Over.State Sample :=
  afterFine s.fine s.symbols (afterCoarse s.coarse s)

/-- What a decode with a range fault writes, event and response set apart (R269). -/
def Over.State.rangeFaulted (s : Over.State Sample) : Over.State Sample :=
  { afterCoarse s.coarse s with faultCode := 0x20 }

/-- What the chunk stage on `c` can leave of `s`. -/
inductive StageEffect (c : List Sample) (s : State) : State → Prop
  | reports (hstate : s.rx.state ≠ .accumulating) : StageEffect c s (s.emitted [levelEvent c s])
  | accumulates (hstate : s.rx.state = .accumulating) (hsound : spacesSound s = true)
      (hfits : s.rx.cursor + c.length ≤ s.param.d.accumulationBufferSize) :
      StageEffect c s (Over.State.emitted
        { s with rx := { s.rx with buf := writeSlice s.rx.buf s.rx.cursor c, cursor := s.rx.cursor + c.length } }
        [levelEvent c s])
  | decodes (hstate : s.rx.state = .accumulating) (hsound : spacesSound s = true)
      (hrange : s.coarse.outOfRange s.param.d = false) :
      StageEffect c s (s.decodedBuffer.emitted [levelEvent c s, decodedEvent s.decodedBuffer.slc, .stopReq])
  | rangeFault (hstate : s.rx.state = .accumulating) (hsound : spacesSound s = true)
      (hrange : s.coarse.outOfRange s.param.d = true) :
      StageEffect c s (s.rangeFaulted.emitted [levelEvent c s, .fault 0x20])
  | unsound (hstate : s.rx.state = .accumulating) (hunsound : spacesSound s = false) :
      StageEffect c s (Over.State.emitted
        { s with rx := { s.rx with full := true, state := .done }, faultCode := 0x20 }
        [levelEvent c s, .fault 0x20])

variable {c : List Sample} {s : State}

/-- An overflowing chunk is decoded after its level event, on a level range. -/
theorem chunkStage_decodes (hstate : s.rx.state = .accumulating) (hsound : spacesSound s = true)
    (hc : s.param.d.accumulationBufferSize < s.rx.cursor + c.length)
    (hrange : s.coarse.outOfRange s.param.d = false) :
    chunkStage rationals c s =
      .done (s.decodedBuffer.emitted [levelEvent c s, decodedEvent s.decodedBuffer.slc, .stopReq]) := by
  rw [chunkStage_overflows hstate hsound hc]
  obtain ⟨hbad, -⟩ | ⟨-, hfinish⟩ := finish_cases (s.emitted [levelEvent c s])
  · exact absurd hbad (Bool.eq_false_iff.mp hrange)
  · rw [hfinish, Over.State.emitted]
    simp only [Over.State.emitted, afterFine, afterCoarse, List.append_assoc]
    rfl

/-- An overflowing chunk whose coarse peak is late ends its session without a result. -/
theorem chunkStage_rangeFault (hstate : s.rx.state = .accumulating) (hsound : spacesSound s = true)
    (hc : s.param.d.accumulationBufferSize < s.rx.cursor + c.length)
    (hrange : s.coarse.outOfRange s.param.d = true) :
    chunkStage rationals c s =
      .raised ((s.rangeFaulted.emitted [levelEvent c s, .fault 0x20]).answered 0x20 []) := by
  rw [chunkStage_overflows hstate hsound hc]
  obtain ⟨-, hfinish⟩ | ⟨hgood, -⟩ := finish_cases (s.emitted [levelEvent c s])
  · rw [hfinish, takeException_range]
    simp only [Over.State.emitted, afterCoarse, List.append_assoc]
    rfl
  · exact absurd hrange (Bool.eq_false_iff.mp hgood)

/-- In a state that no run reaches the session ends at once (log 11). -/
theorem chunkStage_unsound (hstate : s.rx.state = .accumulating) (hunsound : spacesSound s = false) :
    chunkStage rationals c s =
      .raised ((Over.State.emitted
        { s with rx := { s.rx with full := true, state := .done }, faultCode := 0x20 }
        [levelEvent c s, .fault 0x20]).answered 0x20 []) := by
  unfold chunkStage
  simp only [hstate, hunsound, Bool.not_false, if_true, takeException_range, emit_eq_emitted, Over.State.emitted,
    List.append_assoc]
  rfl

theorem endStage_chunkStage_effect {frames : List OutFrame} {t : State}
    (h : endStage frames (chunkStage rationals c s) = .next t) :
    ∃ u, StageEffect c s u ∧ ∃ code fs, t = u.answered code fs := by
  rcases chunkStage_cases c s with ⟨hst, hg⟩ | ⟨hst, hw, hc, hg⟩ | ⟨hst, hw, hc, -⟩ | ⟨hst, hw, -⟩
  · rw [hg] at h
    exact ⟨_, .reports hst, _, _, next_of_respond h⟩
  · rw [hg] at h
    exact ⟨_, .accumulates hst hw hc, _, _, next_of_respond h⟩
  · cases hr : s.coarse.outOfRange s.param.d
    · rw [chunkStage_decodes hst hw hc hr] at h
      exact ⟨_, .decodes hst hw hr, _, _, next_of_respond h⟩
    · rw [chunkStage_rangeFault hst hw hc hr] at h
      cases h
      exact ⟨_, .rangeFault hst hw hr, _, _, rfl⟩
  · rw [chunkStage_unsound hst hw] at h
    cases h
    exact ⟨_, .unsound hst hw, _, _, rfl⟩

end stage
end Sys2Proof.Machine
end

section
/-! PROOFS. Every effect a command can have, and what follows of it for the whole machine: what each command keeps, the
transitions of the state machines, and the outputs (R20, R24, R29, R45, R270). -/

namespace Sys2Proof.Machine

open Sys2Proof

/-! ## The effects of the commands -/

/-- What a command can leave of `s`, the response set apart. -/
inductive Effect : Instr → State → State → Prop
  /-- A refusal, or a command that answers and writes nothing. -/
  | response (i : Instr) (s : State) : Effect i s s
  | reset (s : State) : Effect .sysReset s (afterReset s)
  | load {n : Nat} {s : State} {p : ParamRegs} (hfree : s.param.valid = false)
      (hvalid : paramsValid p (deriveFrom p) = true) :
      Effect (.paramLoad n) s { s with param := ⟨true, p, deriveFrom p⟩ }
  | batch {i : Instr} {s : State} (hi : i = .bcApplyS ∨ i = .bcApplyD) (buf : List Sample) :
      Effect i s { s with bcSt := (bcApply s.cfg buf).1 }
  | filterInit {preset : Nat} {s : State} (p : Preset) :
      Effect (.sfInit preset) s { s with sf := ⟨p, Vector.replicate 10 SecState.cleared⟩ }
  | filter {s : State} (buf : List Sample) : Effect .sfProc s { s with sf := (sfProcess s.cfg s.sf buf).1 }
  | transmit {n : Nat} {s : State} {bits : List Bool} (hvalid : s.param.valid = true) (hidle : s.tx.state = .idle)
      (hlen : bits.length = s.param.p.symbolCount) :
      Effect (.txStart n) s { s with tx := ⟨bits, false, n, .running, s.tx.buf⟩ }
  | transmitStop {s : State} : Effect .txStop s { s with tx := { s.tx with stop := true } }
  | session {n : Nat} {s : State} (hn : n ≠ 0) (hvalid : s.param.valid = true) :
      Effect (.rxStart n) s (newSession n s)
  | sessionStop {s : State} : Effect .rxStop s { s with rx := { s.rx with stop := true } }
  | probe {sel : StreamSel} {s : State} (e : Event) : Effect (.prbLevel sel) s (s.emitted [e])
  | chunk {s u : State} {c : List Sample} (hrun : s.halted = false) (h : StageEffect c s u) : Effect .rxChunk s u
  | push {s u : State} {c : List Sample} (hrun : s.halted = false)
      (h : StageEffect (sfProcess s.cfg s.sf c).2 (pushStages c s) u) : Effect .rxPush s u
  /-- An aggregate over an empty store (log 11). -/
  | emptyStore {i : Instr} {s : State} (hi : i ∈ [Instr.statOnavg, .statOnmin, .statOnmax, .statOffavg, .statOffmin,
      .statOffmax, .statTotal]) (hvalid : s.slc.valid = true) (hempty : s.slc.onPowers = [] ∨ s.slc.offPowers = []) :
      Effect i s (Over.State.emitted { s with faultCode := 0x20 } [.fault 0x20])
  | fatal {s : State} :
      Effect .cmpDiff s (Over.State.emitted { s with halted := true, faultCode := 0x30 } [.fault 0x30])

section effect
variable {i : Instr} {s t : State}

/-- `t` is what an effect of the command leaves, with a response. -/
abbrev Leaves (i : Instr) (s t : State) : Prop := ∃ u, Effect i s u ∧ ∃ code frames, t = u.answered code frames

theorem Effect.leaves {u : State} (h : Effect i s u) (code : Byte) (frames : List OutFrame) :
    Leaves i s (u.answered code frames) := ⟨u, h, code, frames, rfl⟩

/-- The shape of the command lemmas `exec…_cases`: a refusal, or what `P` says. -/
theorem leaves_of_refused_or {P : Prop} (h : Refused s t ∨ P) (hP : P → Leaves i s t) : Leaves i s t := by
  rcases h with ⟨code, rfl⟩ | h
  · exact (Effect.response i s).leaves code []
  · exact hP h

theorem statistic_leaves {f : List Amp → List Amp → Level} (hi : i ∈ [Instr.statOnavg, .statOnmin, .statOnmax,
    .statOffavg, .statOffmin, .statOffmax, .statTotal]) (h : statistic f s = .next t) : Leaves i s t := by
  refine leaves_of_refused_or (statistic_cases h) ?_
  rintro ⟨-, -, hv, ⟨he, rfl⟩ | ⟨-, -, rfl⟩⟩
  · exact (Effect.emptyStore hi hv he).leaves 0x20 []
  · exact (Effect.response i s).leaves _ _

/-- Everything a command can leave. -/
theorem exec_leaves (h : exec i s = .next t) : Leaves i s t := by
  cases i with
  | sysReset => exact execSysReset_cases h ▸ (Effect.reset s).leaves _ _
  | sysRdreg reg =>
    exact leaves_of_refused_or (execSysRdreg_cases h) fun ⟨v, _, _, ht⟩ => ht ▸ (Effect.response _ s).leaves _ _
  | paramLoad n =>
    exact leaves_of_refused_or (execParamLoad_cases h) fun ⟨p, _, hfree, _, hvalid, ht⟩ =>
      ht ▸ (Effect.load hfree hvalid).leaves _ _
  | bcApplyS =>
    exact leaves_of_refused_or (batchApply_cases h) fun ⟨buf, _, _, ht⟩ =>
      ht ▸ (Effect.batch (.inl rfl) buf).leaves _ _
  | bcApplyD =>
    exact leaves_of_refused_or (batchApply_cases h) fun ⟨buf, _, _, ht⟩ =>
      ht ▸ (Effect.batch (.inr rfl) buf).leaves _ _
  | sfInit preset =>
    exact leaves_of_refused_or (execSfInit_cases h) fun ⟨p, _, _, _, ht⟩ => ht ▸ (Effect.filterInit p).leaves _ _
  | sfProc =>
    exact leaves_of_refused_or (execSfProc_cases h) fun ⟨buf, _, _, ht⟩ => ht ▸ (Effect.filter buf).leaves _ _
  | txStart n =>
    exact leaves_of_refused_or (execTxStart_cases h) fun ⟨data, _, _, hvalid, hidle, _, hlen, _, ht⟩ =>
      ht ▸ (Effect.transmit hvalid hidle ((List.length_map _).trans hlen)).leaves _ _
  | txStop =>
    exact leaves_of_refused_or (execTxStop_cases h) fun ⟨_, _, ht⟩ => ht ▸ Effect.transmitStop.leaves _ _
  | rxStart n =>
    exact leaves_of_refused_or (execRxStart_cases h) fun ⟨_, hn, _, hvalid, _, ht⟩ =>
      ht ▸ (Effect.session hn hvalid).leaves _ _
  | rxStop =>
    exact leaves_of_refused_or (execRxStop_cases h) fun ⟨_, _, ht⟩ => ht ▸ Effect.sessionStop.leaves _ _
  | prbLevel sel =>
    exact leaves_of_refused_or (execPrbLevel_cases h) fun ⟨c, e, _, _, _, _, ht⟩ =>
      ht ▸ (Effect.probe e).leaves _ _
  | slcDecide =>
    exact leaves_of_refused_or (execSlcDecide_cases h) fun ⟨_, _, _, _, _, _, _, ht⟩ =>
      ht ▸ (Effect.response _ s).leaves _ _
  | statOnavg | statOnmin | statOnmax | statOffavg | statOffmin | statOffmax | statTotal =>
    exact statistic_leaves (f := fun _ _ => _) (by decide) h
  | rxChunk =>
    refine leaves_of_refused_or (execRxChunk_cases h) ?_
    rintro ⟨c, hrun, -, -, -, -, ⟨-, rfl⟩ | ⟨-, hstage⟩⟩
    · exact (Effect.response _ s).leaves _ _
    · obtain ⟨u, hu, hresponse⟩ := endStage_chunkStage_effect hstage
      exact ⟨u, .chunk hrun hu, hresponse⟩
  | rxPush =>
    refine leaves_of_refused_or (execRxPush_cases h) ?_
    rintro ⟨c, hrun, -, -, -, -, ⟨-, rfl⟩ | ⟨-, hstage⟩⟩
    · exact (Effect.response _ s).leaves _ _
    · obtain ⟨u, hu, hresponse⟩ := endStage_chunkStage_effect hstage
      exact ⟨u, .push hrun hu, hresponse⟩
  | cmpDiff =>
    refine leaves_of_refused_or (execCmpDiff_cases h) ?_
    rintro ⟨a, b, -, -, ⟨-, rfl⟩ | ⟨-, rfl⟩⟩
    · exact Effect.fatal.leaves 0x30 []
    · exact (Effect.response _ s).leaves _ _

end effect

/-! ## What every command keeps (R51, R277) -/

section keeps
variable {i : Instr} {c : List Sample} {s u : State} {ready : Bool}

/-- What belongs to no unit stays, and no event is recalled. -/
structure OutsideKept (s u : State) : Prop where
  cfg : u.cfg = s.cfg
  env : u.env = s.env
  sink : u.io.sink = s.io.sink
  din : u.io.din = s.io.din
  evt : ∃ es, u.io.evt = s.io.evt ++ es

/-- The units that the chunk stage does not write stay as they are. -/
structure StageKept (s u : State) : Prop extends OutsideKept s u where
  param : u.param = s.param
  bcSt : u.bcSt = s.bcSt
  sf : u.sf = s.sf
  tx : u.tx = s.tx
  halted : u.halted = s.halted

theorem StageEffect.kept (h : StageEffect c s u) : StageKept s u := by
  cases h <;> exact ⟨⟨rfl, rfl, rfl, rfl, _, rfl⟩, rfl, rfl, rfl, rfl, rfl⟩

/-- The stages before the chunk stage write the streaming filter and two events. -/
theorem pushStages_outside (c : List Sample) (s : State) : OutsideKept s (pushStages c s) := by
  rw [pushStages_eq]
  exact ⟨rfl, rfl, rfl, rfl, _, rfl⟩

theorem OutsideKept.trans {v : State} (h : OutsideKept s u) (h' : OutsideKept u v) : OutsideKept s v := by
  obtain ⟨es, hes⟩ := h.evt
  obtain ⟨es', hes'⟩ := h'.evt
  exact ⟨h'.cfg.trans h.cfg, h'.env.trans h.env, h'.sink.trans h.sink, h'.din.trans h.din, es ++ es',
    by rw [hes', hes, List.append_assoc]⟩

theorem Effect.outside (h : Effect i s u) : OutsideKept s u := by
  cases h with
  | probe e | emptyStore | fatal => exact ⟨rfl, rfl, rfl, rfl, _, rfl⟩
  | chunk _ hu => exact hu.kept.toOutsideKept
  | push _ hu => exact (pushStages_outside _ s).trans hu.kept.toOutsideKept
  | _ => exact ⟨rfl, rfl, rfl, rfl, [], (List.append_nil _).symm⟩

/-- A turn of TXLOOP hands the sink at most one frame and emits nothing. -/
theorem txRep_outputs (ready : Bool) (s : State) :
    (txRep ready s).cfg = s.cfg ∧ (txRep ready s).io.evt = s.io.evt ∧
      ∃ fs, (txRep ready s).io.sink = s.io.sink ++ fs ∧ fs.length ≤ 1 := by
  rcases txRep_cases ready s with ⟨-, h⟩ | ⟨-, -, h⟩ | ⟨-, -, h⟩ <;> rw [h]
  · exact ⟨rfl, rfl, [], (List.append_nil _).symm, Nat.zero_le 1⟩
  · exact ⟨rfl, rfl, [], (List.append_nil _).symm, Nat.zero_le 1⟩
  · exact ⟨rfl, rfl, [_], rfl, le_rfl⟩

end keeps

/-! ## The state machines (R20, R24, R29) -/

section transitions
variable {i : Instr} {c : List Sample} {s u : State}

/-- The chunk stage changes `rxState` only where it ends a session. -/
theorem StageEffect.rxState (h : StageEffect c s u) (hne : u.rx.state ≠ s.rx.state) :
    s.rx.state = .accumulating ∧ u.rx.state = .done := by
  cases h with
  | reports | accumulates => exact absurd rfl hne
  | decodes hstate | rangeFault hstate | unsound hstate => exact ⟨hstate, rfl⟩

theorem pushStages_rx (c : List Sample) (s : State) : (pushStages c s).rx = s.rx := by rw [pushStages_eq]; rfl

theorem Effect.rxState (h : Effect i s u) (hne : u.rx.state ≠ s.rx.state) :
    ((∃ n, i = .rxStart n) ∧ u.rx.state = .accumulating) ∨
      ((i = .rxChunk ∨ i = .rxPush) ∧ s.rx.state = .accumulating ∧ u.rx.state = .done) ∨
      (i = .sysReset ∧ u.rx.state = .none) := by
  cases h with
  | reset => exact .inr (.inr ⟨rfl, rfl⟩)
  | session => exact .inl ⟨⟨_, rfl⟩, rfl⟩
  | chunk _ hu => exact .inr (.inl ⟨.inl rfl, hu.rxState hne⟩)
  | @push _ _ c _ hu =>
    have hrx : (pushStages c s).rx.state = s.rx.state := congrArg Over.RxUnit.state (pushStages_rx c s)
    exact .inr (.inl ⟨.inr rfl, hrx ▸ hu.rxState (hrx ▸ hne)⟩)
  | _ => exact absurd rfl hne

theorem Effect.txState (h : Effect i s u) (hne : u.tx.state ≠ s.tx.state) :
    ((∃ n, i = .txStart n) ∧ s.tx.state = .idle ∧ u.tx.state = .running) ∨
      (i = .sysReset ∧ u.tx.state = .idle) := by
  cases h with
  | reset => exact .inr ⟨rfl, rfl⟩
  | transmit _ hidle => exact .inl ⟨⟨_, rfl⟩, hidle, rfl⟩
  | chunk _ hu => exact absurd (congrArg Over.TxUnit.state hu.kept.tx) hne
  | push _ hu => exact absurd (congrArg Over.TxUnit.state hu.kept.tx) hne
  | _ => exact absurd rfl hne

theorem Effect.halted (h : Effect i s u) (hne : u.halted ≠ s.halted) :
    (i = .cmpDiff ∧ u.halted = true ∧ u.faultCode = 0x30) ∨ (i = .sysReset ∧ u.halted = false) := by
  cases h with
  | reset => exact .inr ⟨rfl, rfl⟩
  | fatal => exact .inl ⟨rfl, rfl, rfl⟩
  | chunk _ hu => exact absurd hu.kept.halted hne
  | push _ hu => exact absurd hu.kept.halted hne
  | _ => exact absurd rfl hne

theorem txRep_transitions (ready : Bool) (s : State) :
    (txRep ready s).rx.state = s.rx.state ∧ (txRep ready s).halted = s.halted ∧
      ((txRep ready s).tx.state ≠ s.tx.state →
        s.tx.state = .running ∧ s.tx.stop = true ∧ (txRep ready s).tx.state = .idle) := by
  rcases txRep_cases ready s with ⟨-, h⟩ | ⟨hen, hstop, h⟩ | ⟨-, -, h⟩ <;> rw [h]
  · exact ⟨rfl, rfl, fun hne => absurd rfl hne⟩
  · obtain ⟨-, hrunning, -⟩ := repEnabled_iff.mp hen
    exact ⟨rfl, rfl, fun _ => ⟨hrunning, hstop, rfl⟩⟩
  · exact ⟨rfl, rfl, fun hne => absurd rfl hne⟩

end transitions

/-! ## The obligations -/

/-- Settles O6: the decoded command runs on the presented payload; a placed word is presented with the payload that
stands on `din`. -/
theorem stepRunsDecodedCommand : Obligations.StepRunsDecodedCommand :=
  ⟨fun _ _ _ _ _ => step_of_decode_ok, fun _ _ _ => step_withFetchWord⟩

/-- Settles O7: the two branches of the step that are no command. -/
theorem stepTakesTxloopTurn : Obligations.StepTakesTxloopTurn :=
  ⟨fun _ _ _ => step_of_rep, fun _ => step_of_no_turn⟩

/-- Settles O9: every branch of a command answers, and no effect reaches what belongs to no unit. -/
theorem everyStepAnswers : Obligations.EveryStepAnswers := by
  refine ⟨step_answers, fun i s => ?_⟩
  obtain ⟨t, ht⟩ := exec_answers i s
  obtain ⟨u, hu, code, frames, rfl⟩ := exec_leaves ht
  obtain ⟨hcfg, henv, hsink, hdin, -⟩ := hu.outside
  exact ⟨_, ht, hcfg, henv, hsink, hdin⟩

/-- Settles O51: the reset writes every field of the state after power-on but configuration, ports and environment,
and its response. -/
theorem resetFollowsItsRule : Obligations.ResetFollowsItsRule := fun s =>
  ⟨(afterReset s).answered 0 [], rfl, rfl, rfl, rfl, rfl, rfl, rfl, rfl, rfl, rfl, rfl, rfl, rfl, rfl, rfl, rfl, rfl,
    rfl, rfl, rfl, rfl, rfl, rfl, rfl, rfl⟩

/-- Settles O57: of the effects of commands only those of the transitions named change the three registers, and of
the turns of TXLOOP only the stopping one. -/
theorem stateMachineTransitions : Obligations.StateMachineTransitions := by
  refine ⟨fun i s t h => ?_, txRep_transitions⟩
  obtain ⟨u, hu, code, frames, rfl⟩ := exec_leaves h
  exact ⟨hu.rxState, hu.txState, hu.halted⟩

/-- Settles O58: a turn of TXLOOP adds at most one frame, a command adds events only. -/
theorem outputsOnlyGrow : Obligations.OutputsOnlyGrow := by
  intro s t h
  rcases step_cases h with ⟨-, rfl⟩ | ⟨ready, rest, -, rfl⟩ | ⟨w, din, rest, i, -, -, h⟩ | ⟨w, din, rest, e, -, -, h⟩
  · exact ⟨rfl, ⟨[], (List.append_nil _).symm⟩, [], (List.append_nil _).symm, Nat.zero_le 1⟩
  · obtain ⟨hcfg, hevt, hsink⟩ := txRep_outputs ready (popTurn rest s)
    exact ⟨hcfg, ⟨[], hevt.trans (List.append_nil _).symm⟩, hsink⟩
  · obtain ⟨u, hu, code, frames, rfl⟩ := exec_leaves h
    obtain ⟨hcfg, -, hsink, -, hevt⟩ := hu.outside
    exact ⟨hcfg, hevt, [], hsink.trans (List.append_nil _).symm, Nat.zero_le 1⟩
  · obtain ⟨code, rfl⟩ := h
    exact ⟨rfl, ⟨[], (List.append_nil _).symm⟩, [], (List.append_nil _).symm, Nat.zero_le 1⟩

end Sys2Proof.Machine
end

section
/-! PROOFS. The invariant of the block: it holds after reset and every step keeps it (10_state.md sections 2 to 6,
43_synchronizer.md section 2, 60_exceptions.md section 2). -/

namespace Sys2Proof.Machine

open Sys2Proof

/-! ## Sound sample counts (R92, R94, R96) -/

section geometry
variable {d : DerivedRegs} {n : Nat}

/-- The relations between the sample counts that `DerivedRegs.sound` tests. -/
structure Geometry (d : DerivedRegs) (n : Nat) : Prop where
  slot : 2 ≤ d.samplesPerSlot
  count : 1 ≤ n
  symbol : d.samplesPerSymbol = 2 * d.samplesPerSlot
  delimiter : d.samplesPerDelimiter = 6 * d.samplesPerSlot
  frame : d.samplesPerFrame = d.samplesPerSymbol * n
  buffer : d.accumulationBufferSize = 2 * d.samplesPerDelimiter + 2 * d.samplesPerFrame

theorem sound_iff : d.sound n = true ↔ Geometry d n := by
  simp only [Over.DerivedRegs.sound, Bool.and_eq_true, decide_eq_true_iff]
  constructor
  · rintro ⟨⟨⟨⟨⟨hslot, hcount⟩, hsym⟩, hdel⟩, hframe⟩, hbuf⟩
    exact ⟨hslot, hcount, hsym, hdel, hframe, hbuf⟩
  · rintro ⟨hslot, hcount, hsym, hdel, hframe, hbuf⟩
    exact ⟨⟨⟨⟨⟨hslot, hcount⟩, hsym⟩, hdel⟩, hframe⟩, hbuf⟩

theorem geometry_deriveFrom {p : ParamRegs} (h : paramsValid p (deriveFrom p) = true) :
    Geometry (deriveFrom p) p.symbolCount := by
  obtain ⟨-, -, hcount, hslot, -⟩ := (paramsValid_deriveFrom p).mp h
  exact ⟨hslot, hcount, rfl, rfl, rfl, rfl⟩

end geometry

/-! ## What the invariant says of a state -/

section invariant
variable {s : Over.State Sample}

theorem Over.State.Inv.geometry (h : s.Inv) (hv : s.param.valid = true) : Geometry s.param.d s.param.p.symbolCount := by
  obtain ⟨hd, hok⟩ := h.params hv
  rw [hd] at hok ⊢
  exact geometry_deriveFrom hok

theorem Over.State.Inv.geometry_of_session (h : s.Inv) (hr : s.rx.state ≠ .none) :
    Geometry s.param.d s.param.p.symbolCount :=
  have ⟨hv, _⟩ := h.session.2 hr
  h.geometry hv

/-- In a session every index of the chunk stage and of the decode lies inside its space (R41). -/
theorem Over.State.Inv.spacesSound (h : s.Inv) (hr : s.rx.state ≠ .none) : spacesSound s = true := by
  obtain ⟨-, hbuf, -, -⟩ := h.session.2 hr
  rw [Machine.spacesSound, sound_iff.mpr (h.geometry_of_session hr), decide_eq_true hbuf]
  rfl

theorem ne_none_of_accumulating (hstate : s.rx.state = .accumulating) : s.rx.state ≠ .none := by
  rw [hstate]
  decide

/-- While a session accumulates there is no result. -/
theorem Over.State.Inv.no_result (h : s.Inv) (hstate : s.rx.state = .accumulating) :
    s.slc.valid = false ∧ s.rx.synValid = false := by
  obtain ⟨hflags, hresult⟩ := h.results
  have hslc : s.slc.valid = false := by
    refine Bool.eq_false_iff.mpr fun hv => ?_
    obtain ⟨hdone, -⟩ := hresult hv
    cases hstate.symm.trans hdone
  exact ⟨hslc, hflags.trans hslc⟩

/-- The stores of a result have an entry: a valid symbol count is at least 1. -/
theorem Over.State.Inv.stores_ne_nil (h : s.Inv) (hv : s.slc.valid = true) :
    s.slc.onPowers ≠ [] ∧ s.slc.offPowers ≠ [] := by
  obtain ⟨-, hresult⟩ := h.results
  obtain ⟨hdone, hon, hoff, -⟩ := hresult hv
  have hcount := (h.geometry_of_session (by rw [hdone]; decide)).count
  exact ⟨fun he => by simp [← hon, he] at hcount, fun he => by simp [← hoff, he] at hcount⟩

/-- The invariant reads neither the batch filter nor ports nor environment. -/
theorem Over.State.Inv.with_outside (h : s.Inv) (bcSt : Vector (Over.SecState Sample) 8) (io : Over.Ports Sample)
    (env : Over.Env Sample) : Over.State.Inv { s with bcSt := bcSt, io := io, env := env } :=
  ⟨h.params, h.session, h.results, h.transmit, h.sections, h.faults⟩

end invariant

/-! ## After reset (R34) -/

theorem poweredOn_inv (cfg : Config) : (State.poweredOn cfg).Inv where
  params := nofun
  session := ⟨⟨nofun, nofun⟩, fun h => absurd rfl h⟩
  results := ⟨rfl, nofun⟩
  transmit := nofun
  sections k _ := Vector.getElem_replicate k.isLt
  faults := ⟨nofun, .inl rfl⟩

/-! ## The filter keeps its unused sections (R16) -/

theorem cleared_sectionsOk (s : State) (p : Preset) :
    Over.State.SectionsOk { s with sf := ⟨p, Vector.replicate 10 SecState.cleared⟩ } :=
  fun k _ => Vector.getElem_replicate k.isLt

theorem sfProcess_later_section (cfg : Config) (sf : StreamFilter) (xs : List Sample) (k : Fin 10)
    (hk : sf.preset.sections ≤ k.val) : (sfProcess cfg sf xs).1.st[k] = sf.st[k] := by
  have hlen : (cascadeRun (cfg.sfCoef sf.preset) (sf.st.toList.take sf.preset.sections) xs).1.length =
      sf.preset.sections := by simp [cascadeRun_length, sections_le_ten]
  have hst := congrArg (·[k.val]?) (sfProcess_states cfg sf xs)
  rw [List.getElem?_append_right (hlen.trans_le hk), hlen, List.getElem?_drop, Nat.add_sub_cancel' hk] at hst
  simpa using hst

theorem sfProcess_sectionsOk {s : State} (h : s.SectionsOk) (xs : List Sample) :
    Over.State.SectionsOk { s with sf := (sfProcess s.cfg s.sf xs).1 } :=
  fun k hk => (sfProcess_later_section s.cfg s.sf xs k hk).trans (h k hk)

/-! ## The record of a symbol (R213 to R216) -/

section record
variable {d : Over.DerivedRegs Sample} {n : Nat} {buf : List Sample} {delay : Nat} {r : Over.SymbolResult Sample}

theorem chr_bitNat (b : Bool) : chr (bitNat b) = if b then 0x31 else 0x30 := by cases b <;> rfl

theorem Over.Amp.max_eq (a b : Over.Amp Sample) : a.max b = ⟨Max.max a.ms b.ms⟩ := by
  rw [Over.Amp.max]
  split
  · next h => rw [max_eq_right h.le]
  · next h => rw [max_eq_left (not_lt.mp h)]

theorem Over.Amp.min_eq (a b : Over.Amp Sample) : a.min b = ⟨Min.min a.ms b.ms⟩ := by
  rw [Over.Amp.min]
  split
  · next h => rw [min_eq_left h.le]
  · next h => rw [min_eq_right (not_lt.mp h)]

theorem demodulate_length : (demodulate rationals d n buf delay).length = n := by simp [demodulate]

/-- A record of the demodulation is that of two powers, none of them negative. -/
theorem exists_powers_of_mem_demodulate (hr : r ∈ demodulate rationals d n buf delay) :
    ∃ first second : Amp, 0 ≤ first.ms ∧ 0 ≤ second.ms ∧ r = sliceSymbol rationals d first second := by
  obtain ⟨i, -, rfl⟩ := List.mem_map.mp hr
  exact ⟨_, _, rms_ms_nonneg _, rms_ms_nonneg _, rfl⟩

theorem ml_of_mem_demodulate (hr : r ∈ demodulate rationals d n buf delay) : r.ml = 0x30 ∨ r.ml = 0x31 := by
  obtain ⟨first, second, -, -, rfl⟩ := exists_powers_of_mem_demodulate hr
  rw [sliceSymbol, chr_bitNat]
  split
  · exact .inr rfl
  · exact .inl rfl

theorem sec_of_mem_demodulate (hr : r ∈ demodulate rationals d n buf delay) :
    r.sec = 0x30 ∨ r.sec = 0x31 ∨ r.sec = 0x32 := by
  obtain ⟨first, second, -, -, rfl⟩ := exists_powers_of_mem_demodulate hr
  rw [sliceSymbol]
  cases secureBit rationals d first second
  · exact .inl rfl
  · exact .inr (.inl rfl)
  · exact .inr (.inr rfl)

/-- `onPower >= offPower >= 0` (R215): they are the greater and the smaller of the two powers. -/
theorem powers_of_mem_demodulate (hr : r ∈ demodulate rationals d n buf delay) :
    0 ≤ r.off.ms ∧ r.off.ms ≤ r.on.ms := by
  obtain ⟨first, second, hf, hs, rfl⟩ := exists_powers_of_mem_demodulate hr
  rw [sliceSymbol, Over.Amp.max_eq, Over.Amp.min_eq]
  exact ⟨le_min hf hs, min_le_max⟩

end record

/-! ## The chunk stage keeps the invariant -/

section stage
variable {s u : State} {c : List Sample}

theorem decodedBuffer_resultsOk (s : State) : s.decodedBuffer.ResultsOk := by
  refine ⟨rfl, fun _ => ⟨rfl, ?_, ?_, ?_, ?_, fun b hb => ?ml, fun b hb => ?sec, fun p hp => ?powers⟩⟩
  case ml =>
    obtain ⟨r, hr, rfl⟩ := List.mem_map.mp hb
    exact ml_of_mem_demodulate hr
  case sec =>
    obtain ⟨r, hr, rfl⟩ := List.mem_map.mp hb
    exact sec_of_mem_demodulate hr
  case powers =>
    obtain ⟨r, hr, rfl⟩ := List.mem_map.mp (List.zip_map' .. ▸ hp)
    exact powers_of_mem_demodulate hr
  all_goals exact (List.length_map _).trans demodulate_length

/-- A session that ends is DONE with its buffer. -/
theorem sessionOk_of_done (h : s.SessionOk) (hr : s.rx.state ≠ .none) (hparam : u.param = s.param)
    (hfull : u.rx.full = true) (hstate : u.rx.state = .done) (hbuf : u.rx.buf = s.rx.buf)
    (hcursor : u.rx.cursor = s.rx.cursor) (hchunk : u.rx.chunk = s.rx.chunk) : u.SessionOk := by
  refine ⟨iff_of_true hfull hstate, fun _ => ?_⟩
  rw [hparam, hbuf, hcursor, hchunk]
  exact h.2 hr

theorem StageEffect.inv (h : StageEffect c s u) (hrun : s.halted = false) (hs : s.Inv) : u.Inv := by
  cases h with
  | reports => exact hs.with_outside _ _ _
  | accumulates hstate hsound hfits =>
    obtain ⟨hv, hbuf, hcursor, hchunk⟩ := hs.session.2 (ne_none_of_accumulating hstate)
    exact
      { hs with
        session := ⟨hs.session.1, fun _ => ⟨hv, (writeSlice_length _ _ _ (hbuf ▸ hfits)).trans hbuf, hfits, hchunk⟩⟩ }
  | decodes hstate =>
    exact
      { hs with
        session := sessionOk_of_done hs.session (ne_none_of_accumulating hstate) rfl rfl rfl rfl rfl rfl
        results := decodedBuffer_resultsOk s }
  | rangeFault hstate =>
    obtain ⟨hslc, hsyn⟩ := hs.no_result hstate
    exact
      { hs with
        session := sessionOk_of_done hs.session (ne_none_of_accumulating hstate) rfl rfl rfl rfl rfl rfl
        results := ⟨hs.results.1, fun hv => absurd hv (Bool.eq_false_iff.mp hslc)⟩
        faults := ⟨fun hh => absurd hh (Bool.eq_false_iff.mp hrun), .inr (.inl rfl)⟩ }
  | unsound hstate hunsound =>
    exact absurd (hs.spacesSound (ne_none_of_accumulating hstate)) (Bool.eq_false_iff.mp hunsound)

end stage

/-! ## Every command and every turn keep the invariant -/

section steps
variable {i : Instr} {s u : Over.State Sample}

theorem pushStages_halted (c : List Sample) (s : State) : (pushStages c s).halted = s.halted := by
  rw [pushStages_eq]
  rfl

theorem pushStages_inv (hs : s.Inv) (c : List Sample) : (pushStages c s).Inv := by
  rw [pushStages_eq]
  exact { hs with sections := sfProcess_sectionsOk hs.sections c }

/-- Without Parameters there is no session, no result and no transmission. -/
theorem Over.State.Inv.idle_of_no_params (h : s.Inv) (hfree : s.param.valid = false) :
    s.rx.state = .none ∧ s.slc.valid = false ∧ s.tx.state = .idle := by
  have hv : ¬ s.param.valid = true := Bool.eq_false_iff.mp hfree
  have hrx : s.rx.state = .none := by
    by_contra hr
    obtain ⟨hvalid, -⟩ := h.session.2 hr
    exact hv hvalid
  refine ⟨hrx, Bool.eq_false_iff.mpr fun hslc => ?_, ?_⟩
  · obtain ⟨hdone, -⟩ := h.results.2 hslc
    cases hrx.symm.trans hdone
  · cases htx : s.tx.state with
    | idle => rfl
    | running =>
      obtain ⟨hvalid, -⟩ := h.transmit htx
      exact absurd hvalid hv

theorem Effect.inv (h : Effect i s u) (hs : s.Inv) : u.Inv := by
  cases h with
  | response | batch | probe => exact hs.with_outside _ _ _
  | transmitStop | sessionStop => exact { hs with }
  | reset => exact (poweredOn_inv s.cfg).with_outside _ _ _
  | load hfree hvalid =>
    obtain ⟨hrx, hslc, htx⟩ := hs.idle_of_no_params hfree
    exact
      { hs with
        params := fun _ => ⟨rfl, hvalid⟩
        session := ⟨hs.session.1, fun hr => absurd hrx hr⟩
        results := ⟨hs.results.1, fun hv => absurd hv (Bool.eq_false_iff.mp hslc)⟩
        transmit := fun hr => by cases htx.symm.trans hr }
  | filterInit p => exact { hs with sections := cleared_sectionsOk s p }
  | filter buf => exact { hs with sections := sfProcess_sectionsOk hs.sections buf }
  | transmit hvalid _ hlen => exact { hs with transmit := fun _ => ⟨hvalid, hlen⟩ }
  | session hn hvalid =>
    exact
      { hs with
        session := ⟨⟨nofun, nofun⟩, fun _ => ⟨hvalid, List.length_replicate, Nat.zero_le _, Nat.pos_of_ne_zero hn⟩⟩
        results := ⟨rfl, nofun⟩ }
  | chunk hrun hu => exact hu.inv hrun hs
  | push hrun hu => exact hu.inv ((pushStages_halted _ s).trans hrun) (pushStages_inv hs _)
  | emptyStore _ hvalid hempty =>
    obtain ⟨hon, hoff⟩ := hs.stores_ne_nil hvalid
    exact absurd hempty (not_or.mpr ⟨hon, hoff⟩)
  | fatal => exact { hs with faults := ⟨fun _ => rfl, .inr (.inr rfl)⟩ }

theorem txRep_inv (ready : Bool) (hs : s.Inv) : (txRep ready s).Inv := by
  rcases txRep_cases ready s with ⟨-, h⟩ | ⟨-, -, h⟩ | ⟨-, -, h⟩ <;> rw [h]
  · exact hs
  · exact { hs with transmit := nofun }
  · exact { hs with }

end steps

/-! ## The obligations -/

/-- Settles O54: after reset no unit holds anything the invariant speaks of. -/
theorem soundAtReset : Obligations.SoundAtReset := ⟨poweredOn_inv _, nofun, rfl⟩

/-- Settles O55: each effect of a command keeps the invariant, and so does each turn of TXLOOP. -/
theorem stepKeepsSoundness : Obligations.StepKeepsSoundness := by
  intro s t hs h
  rcases step_cases h with ⟨-, rfl⟩ | ⟨ready, rest, -, rfl⟩ | ⟨w, din, rest, i, -, -, h⟩ | ⟨w, din, rest, e, -, -, h⟩
  · exact hs
  · exact txRep_inv ready (hs.with_outside _ _ _)
  · obtain ⟨u, hu, code, frames, rfl⟩ := exec_leaves h
    exact (hu.inv (hs.with_outside _ _ _)).with_outside _ _ _
  · obtain ⟨code, rfl⟩ := h
    exact hs.with_outside _ _ _

end Sys2Proof.Machine
end

section
/-! PROOFS. The rows of R45, and commands of the capture context beside steps of the playback context (20_memory.md
sections 4 and 6). -/

namespace Sys2Proof.Machine

open Sys2Proof

/-! ## Each command writes only the units of its row (R45) -/

section rows
variable {i : Instr} {s u : State}

theorem Effect.bcSt (h : Effect i s u) (hreset : i ≠ .sysReset) (hS : i ≠ .bcApplyS) (hD : i ≠ .bcApplyD) :
    u.bcSt = s.bcSt := by
  cases h with
  | reset => exact absurd rfl hreset
  | batch hi => exact (hi.elim hS hD).elim
  | chunk _ hu | push _ hu => exact hu.kept.bcSt
  | _ => rfl

theorem Effect.sf (h : Effect i s u) (hreset : i ≠ .sysReset) (hinit : ∀ p, i ≠ .sfInit p) (hproc : i ≠ .sfProc)
    (hpush : i ≠ .rxPush) : u.sf = s.sf := by
  cases h with
  | reset => exact absurd rfl hreset
  | filterInit => exact absurd rfl (hinit _)
  | filter => exact absurd rfl hproc
  | push => exact absurd rfl hpush
  | chunk _ hu => exact hu.kept.sf
  | _ => rfl

theorem Effect.tx (h : Effect i s u) (hreset : i ≠ .sysReset) (hstart : ∀ n, i ≠ .txStart n) (hstop : i ≠ .txStop) :
    u.tx = s.tx := by
  cases h with
  | reset => exact absurd rfl hreset
  | transmit => exact absurd rfl (hstart _)
  | transmitStop => exact absurd rfl hstop
  | chunk _ hu | push _ hu => exact hu.kept.tx
  | _ => rfl

theorem Effect.rx (h : Effect i s u) (hreset : i ≠ .sysReset) (hstart : ∀ n, i ≠ .rxStart n) (hstop : i ≠ .rxStop)
    (hchunk : i ≠ .rxChunk) (hpush : i ≠ .rxPush) : u.rx = s.rx := by
  cases h with
  | reset => exact absurd rfl hreset
  | session => exact absurd rfl (hstart _)
  | sessionStop => exact absurd rfl hstop
  | chunk => exact absurd rfl hchunk
  | push => exact absurd rfl hpush
  | _ => rfl

theorem Effect.slc (h : Effect i s u) (hreset : i ≠ .sysReset) (hstart : ∀ n, i ≠ .rxStart n)
    (hchunk : i ≠ .rxChunk) (hpush : i ≠ .rxPush) : u.slc = s.slc := by
  cases h with
  | reset => exact absurd rfl hreset
  | session => exact absurd rfl (hstart _)
  | chunk => exact absurd rfl hchunk
  | push => exact absurd rfl hpush
  | _ => rfl

/-- The transitions of `halted` are those of SYS.RESET and CMP.DIFF. -/
theorem Effect.halted_eq (h : Effect i s u) (hreset : i ≠ .sysReset) (hdiff : i ≠ .cmpDiff) : u.halted = s.halted := by
  by_contra hne
  rcases h.halted hne with ⟨hi, -⟩ | ⟨hi, -⟩
  · exact hdiff hi
  · exact hreset hi

/-- In a state of the invariant no statistic meets an empty store. -/
theorem Effect.faultCode (h : Effect i s u) (hs : s.Inv) (hreset : i ≠ .sysReset) (hdiff : i ≠ .cmpDiff)
    (hchunk : i ≠ .rxChunk) (hpush : i ≠ .rxPush) : u.faultCode = s.faultCode := by
  cases h with
  | reset => exact absurd rfl hreset
  | fatal => exact absurd rfl hdiff
  | chunk => exact absurd rfl hchunk
  | push => exact absurd rfl hpush
  | emptyStore _ hvalid hempty =>
    obtain ⟨hon, hoff⟩ := hs.stores_ne_nil hvalid
    exact absurd hempty (not_or.mpr ⟨hon, hoff⟩)
  | _ => rfl

end rows

/-! ## The capture context beside the playback context (R47, R48) -/

/-- What the playback context and its environment own: the modulator, the batch sections, the sink's frames and the
environment's side. -/
structure Playback where
  tx : TxUnit
  bcSt : Vector SecState 8
  sink : List (List Int)
  env : Env

/-- `s` with these values in place of its own. -/
def Over.State.withPlayback (s : Over.State Sample) (p : Playback) : Over.State Sample :=
  { s with tx := p.tx, bcSt := p.bcSt, io := { s.io with sink := p.sink }, env := p.env }

/-- `s` with another playback side, and the response of another command on its ports. -/
def Over.State.beside (s : Over.State Sample) (p : Playback) (code : Byte) (frames : List (Over.OutFrame Sample)) :
    Over.State Sample := (s.withPlayback p).answered code frames

/-- The outcome with its next state changed by `f`. -/
def mapNext (f : State → State) : Result → Result
  | .next s => .next (f s)
  | .fault r => .fault r
  | .refused r => .refused r

section capture
variable {i : Instr} (s : State) (p : Playback) (code : Byte) (frames : List OutFrame)

@[simp] theorem beside_cfg : (s.beside p code frames).cfg = s.cfg := rfl
@[simp] theorem beside_param : (s.beside p code frames).param = s.param := rfl
@[simp] theorem beside_sf : (s.beside p code frames).sf = s.sf := rfl
@[simp] theorem beside_rx : (s.beside p code frames).rx = s.rx := rfl
@[simp] theorem beside_halted : (s.beside p code frames).halted = s.halted := rfl
@[simp] theorem beside_din : (s.beside p code frames).io.din = s.io.din := rfl

/-- A refusal or fault overwrites the response that stood there. -/
theorem raise_beside (x : Exc) : raise x (s.beside p code frames) = mapNext (·.withPlayback p) (raise x s) := by
  cases x <;> rfl

theorem respond_beside (fs : List OutFrame) :
    respond fs (s.beside p code frames) = mapNext (·.withPlayback p) (respond fs s) := rfl

theorem unlessHalted_beside {body body' : Result} (h : body' = mapNext (·.withPlayback p) body) :
    unlessHalted (s.beside p code frames) body' = mapNext (·.withPlayback p) (unlessHalted s body) := by
  rw [unlessHalted, unlessHalted, apply_ite (mapNext _), h, ← raise_beside s p code frames]
  rfl

theorem unlessPayload_beside {body body' : Result} (h : body' = mapNext (·.withPlayback p) body) :
    unlessPayload (s.beside p code frames) body' = mapNext (·.withPlayback p) (unlessPayload s body) := by
  unfold unlessPayload
  simp only [beside_din]
  split
  · exact h
  · exact raise_beside s p code frames _

theorem ite_beside {P Q : Prop} [Decidable P] [Decidable Q] (hPQ : P ↔ Q) {a a' b b' : Result}
    (ha : a' = mapNext (·.withPlayback p) a) (hb : b' = mapNext (·.withPlayback p) b) :
    (if P then a' else b') = mapNext (·.withPlayback p) (if Q then a else b) := by
  simp only [hPQ, apply_ite (mapNext _), ha, hb]

/-- The chunk stage reads and writes the capture side only. -/
theorem endStage_chunkStage_beside (fs : List OutFrame) (c : List Sample) :
    endStage fs (chunkStage rationals c (s.beside p code frames)) =
      mapNext (·.withPlayback p) (endStage fs (chunkStage rationals c s)) := by
  rcases chunkStage_cases c s with ⟨hst, h⟩ | ⟨hst, hw, hc, h⟩ | ⟨hst, hw, hc, -⟩ | ⟨hst, hw, -⟩
  · rw [h, chunkStage_reports (s := s.beside p code frames) hst]
    rfl
  · rw [h, chunkStage_accumulates (s := s.beside p code frames) hst hw hc]
    rfl
  · cases hr : s.coarse.outOfRange s.param.d
    · rw [chunkStage_decodes hst hw hc hr, chunkStage_decodes (s := s.beside p code frames) hst hw hc hr]
      rfl
    · rw [chunkStage_rangeFault hst hw hc hr, chunkStage_rangeFault (s := s.beside p code frames) hst hw hc hr]
      rfl
  · rw [chunkStage_unsound hst hw, chunkStage_unsound (s := s.beside p code frames) hst hw]
    rfl

/-- A command of the capture context neither reads nor writes the playback side, and it writes over the response that
stands on the ports. -/
theorem exec_beside (hi : captureCommand i = true) :
    exec i (s.beside p code frames) = mapNext (·.withPlayback p) (exec i s) := by
  have raised (x : Exc) := raise_beside s p code frames x
  have responded (fs : List OutFrame) := respond_beside s p code frames fs
  cases i with
  | sfInit preset =>
    refine unlessHalted_beside s p code frames ?_
    cases presetOf preset with
    | none => exact raised _
    | some q => exact unlessPayload_beside s p code frames rfl
  | sfProc =>
    refine unlessHalted_beside s p code frames ?_
    rw [beside_din]
    cases oneNumFrame s.io.din with
    | none => exact raised _
    | some xs => rfl
  | rxStart n =>
    exact unlessHalted_beside s p code frames (unlessPayload_beside s p code frames
      (ite_beside p Iff.rfl (raised _) (ite_beside p Iff.rfl (raised _) (ite_beside p Iff.rfl (raised _) rfl))))
  | rxStop => exact unlessHalted_beside s p code frames (unlessPayload_beside s p code frames rfl)
  | rxChunk =>
    refine unlessHalted_beside s p code frames ?_
    rw [beside_din]
    cases oneChunk s.io.din with
    | none => exact raised _
    | some c =>
      exact ite_beside p Iff.rfl (raised _) (ite_beside p Iff.rfl (raised _)
        (ite_beside p Iff.rfl (responded _) (endStage_chunkStage_beside s p code frames _ c)))
  | rxPush =>
    refine unlessHalted_beside s p code frames ?_
    rw [beside_din]
    cases oneChunk s.io.din with
    | none => exact raised _
    | some c =>
      exact ite_beside p Iff.rfl (raised _) (ite_beside p Iff.rfl (raised _)
        (ite_beside p Iff.rfl (responded _) (endStage_chunkStage_beside (pushStages c s) p code frames _ _)))
  | _ => cases hi

end capture

/-! ## The playback context beside the capture context -/

section playback
variable {i j : Instr} {s t u : State} {ready : Bool}

/-- All that a step of the playback context reads is as it was. -/
structure PlaybackKept (s t : State) : Prop where
  cfg : t.cfg = s.cfg
  env : t.env = s.env
  sink : t.io.sink = s.io.sink
  param : t.param = s.param
  bcSt : t.bcSt = s.bcSt
  tx : t.tx = s.tx
  halted : t.halted = s.halted

theorem Effect.playbackKept (h : Effect i s u) (hi : captureCommand i = true) : PlaybackKept s u := by
  obtain ⟨hcfg, henv, hsink, -⟩ := h.outside
  cases h with
  | chunk _ hu | push _ hu =>
    exact ⟨hcfg, henv, hsink, hu.kept.param, hu.kept.bcSt, hu.kept.tx, hu.kept.halted⟩
  | response | filterInit | filter | session | sessionStop => exact ⟨hcfg, henv, hsink, rfl, rfl, rfl, rfl⟩
  | batch hi' => obtain rfl | rfl := hi' <;> cases hi
  | emptyStore hi' => fin_cases hi' <;> cases hi
  | _ => cases hi

theorem exec_playbackKept (hi : captureCommand i = true) (h : exec i s = .next t) : PlaybackKept s t := by
  obtain ⟨u, hu, code, frames, rfl⟩ := exec_leaves h
  obtain ⟨hcfg, henv, hsink, hparam, hbcSt, htx, hhalted⟩ := hu.playbackKept hi
  exact ⟨hcfg, henv, hsink, hparam, hbcSt, htx, hhalted⟩

/-- What a turn of TXLOOP leaves of the playback side. -/
def playbackAfter (ready : Bool) (s : State) : Playback :=
  ⟨(txRep ready s).tx, (txRep ready s).bcSt, (txRep ready s).io.sink, (txRep ready s).env⟩

theorem txRep_eq_withPlayback (ready : Bool) (s : State) : txRep ready s = s.withPlayback (playbackAfter ready s) := by
  rw [playbackAfter]
  rcases txRep_cases ready s with ⟨-, h⟩ | ⟨-, -, h⟩ | ⟨-, -, h⟩ <;> rw [h] <;> rfl

theorem repEnabled_eq (h : PlaybackKept s t) : repEnabled ready t = repEnabled ready s := by
  rw [repEnabled, repEnabled, h.halted, h.tx]

/-- TX.REP reads the playback side and the registers that both contexts read. -/
theorem playbackAfter_eq (h : PlaybackKept s t) : playbackAfter ready t = playbackAfter ready s := by
  have hen := repEnabled_eq (ready := ready) h
  rw [playbackAfter, playbackAfter]
  rcases txRep_cases ready s with ⟨hoff, hs⟩ | ⟨hon, hstop, hs⟩ | ⟨hon, hstop, hs⟩
  · rw [hs, txRep_of_not_enabled (by simp [hen, hoff]), h.tx, h.bcSt, h.sink, h.env]
  · rw [hs, txRep_of_stop (hen.trans hon) (h.tx ▸ hstop), h.tx, h.bcSt, h.sink, h.env]
  · rw [hs, txRep_of_no_stop (hen.trans hon) (h.tx ▸ hstop)]
    simp only [repetition, burstBuffer, h.cfg, h.param, h.tx, h.sink, h.env]

theorem exec_txRep (hi : captureCommand i = true) (h : exec i s = .next t) :
    exec i (txRep ready s) = .next (txRep ready t) := by
  rw [txRep_eq_withPlayback ready s, txRep_eq_withPlayback ready t, playbackAfter_eq (exec_playbackKept hi h)]
  exact (exec_beside s (playbackAfter ready s) s.io.status s.io.dout hi).trans (congrArg (mapNext _) h)

/-- In every state that agrees with `s` on what the playback context reads, `j` writes the same into the modulator and
answers the same. -/
abbrev WritesModulatorAlike (j : Instr) (s : State) (din : List Frame) : Prop :=
  ∃ tx code, ∀ t, PlaybackKept s t → t.io.din = din →
    exec j t = .next (Over.State.answered { t with tx := tx } code [])

variable {din : List Frame}

theorem writesModulatorAlike_of_refusal {code : Byte}
    (h : ∀ t, PlaybackKept s t → t.io.din = din → exec j t = .next (t.answered code [])) :
    WritesModulatorAlike j s din :=
  ⟨s.tx, code, fun t ht hd => (h t ht hd).trans (by rw [← ht.tx])⟩

theorem txStop_writesModulatorAlike (s : State) (din : List Frame) : WritesModulatorAlike .txStop s din := by
  cases hs : s.halted
  · by_cases hd : din = []
    · refine ⟨{ s.tx with stop := true }, 0, fun t ht htd => ?_⟩
      rw [exec, execTxStop, unlessHalted_of_running (ht.halted.trans hs), unlessPayload_of_none (htd.trans hd), ht.tx]
      rfl
    · refine writesModulatorAlike_of_refusal (code := 0x02) fun t ht htd => ?_
      rw [exec, execTxStop, unlessHalted_of_running (ht.halted.trans hs), unlessPayload_of_some (htd ▸ hd)]
  · exact writesModulatorAlike_of_refusal fun t ht _ => unlessHalted_of_halted (ht.halted.trans hs) _

theorem txStart_writesModulatorAlike (n : Nat) (s : State) (din : List Frame) :
    WritesModulatorAlike (.txStart n) s din := by
  cases hs : s.halted
  case true => exact writesModulatorAlike_of_refusal fun t ht _ => unlessHalted_of_halted (ht.halted.trans hs) _
  by_cases hdata : ∃ data, din = [bytes data]
  case neg =>
    exact writesModulatorAlike_of_refusal fun t ht htd =>
      exec_txStart_of_bad_payload (ht.halted.trans hs) (htd ▸ not_exists.mp hdata)
  obtain ⟨data, rfl⟩ := hdata
  by_cases hblocked : s.param.valid = false ∨ s.tx.state = .running
  case pos =>
    exact writesModulatorAlike_of_refusal fun t ht htd =>
      exec_txStart_of_blocked (ht.halted.trans hs) htd (ht.param ▸ ht.tx ▸ hblocked)
  have hready (t : State) (ht : PlaybackKept s t) (htd : t.io.din = [bytes data]) :=
    exec_txStart_of_ready (n := n) (ht.halted.trans hs) htd (ht.param ▸ ht.tx ▸ hblocked)
  by_cases hn : n < s.cfg.devMinOut
  case pos =>
    exact writesModulatorAlike_of_refusal fun t ht htd => (hready t ht htd).trans (if_pos (ht.cfg ▸ hn))
  by_cases hlen : data.length ≠ s.param.p.symbolCount
  case pos =>
    refine writesModulatorAlike_of_refusal (code := 0x11) fun t ht htd => ?_
    rw [hready t ht htd, if_neg (ht.cfg ▸ hn), if_pos (ht.param ▸ hlen)]
  by_cases hbad : data.all isBinary = false
  case pos =>
    refine writesModulatorAlike_of_refusal (code := 0x12) fun t ht htd => ?_
    rw [hready t ht htd, if_neg (ht.cfg ▸ hn), if_neg (ht.param ▸ hlen), if_pos hbad]
  refine ⟨⟨data.map (· == 0x31), false, n, .running, s.tx.buf⟩, 0, fun t ht htd => ?_⟩
  rw [hready t ht htd, if_neg (ht.cfg ▸ hn), if_neg (ht.param ▸ hlen), if_neg hbad, ht.tx]

theorem writesModulatorAlike (hj : (∃ n, j = .txStart n) ∨ j = .txStop) (s : State) (din : List Frame) :
    WritesModulatorAlike j s din := by
  obtain ⟨n, rfl⟩ | rfl := hj
  · exact txStart_writesModulatorAlike n s din
  · exact txStop_writesModulatorAlike s din

end playback

/-! ## The obligations -/

/-- Settles O59, unit by unit over the effects of the commands; a turn of TXLOOP writes the playback side. -/
theorem stepsWriteOnlyTheirRow : Obligations.StepsWriteOnlyTheirRow := by
  refine ⟨fun i s t hs h hreset => ?_, fun ready s => ?_⟩
  · have hparam (hload : ∀ n, i ≠ .paramLoad n) : t.param = s.param := exec_param hload hreset h
    obtain ⟨u, hu, code, frames, rfl⟩ := exec_leaves h
    exact ⟨hparam, hu.bcSt hreset, hu.sf hreset, hu.tx hreset, hu.rx hreset, hu.slc hreset, hu.halted_eq hreset,
      hu.faultCode hs hreset⟩
  · intro t
    have ht : t = txRep ready s := rfl
    rcases txRep_cases ready s with ⟨-, h⟩ | ⟨-, -, h⟩ | ⟨-, -, h⟩ <;> rw [ht, h] <;>
      exact ⟨rfl, rfl, rfl, rfl, rfl, rfl, rfl, rfl, rfl, rfl, rfl, rfl⟩

/-- Settles O60: a capture command commutes with any change of the playback side, and a playback step reads nothing
that a capture command writes. -/
theorem contextsCommute : Obligations.ContextsCommute := by
  refine ⟨fun i ready s t => exec_txRep, fun i j a b s t₁ t₂ u₁ u₂ hi hj h₁ h₂ h₃ h₄ => ?_⟩
  obtain ⟨tx, code, hexec⟩ := writesModulatorAlike hj s b
  obtain ⟨hcfg, henv, hsink, hparam, hbcSt, htx, hhalted⟩ := exec_playbackKept hi h₁
  have ht₂ := (hexec (t₁.withDin b) ⟨hcfg, henv, hsink, hparam, hbcSt, htx, hhalted⟩ rfl).symm.trans h₂
  have hu₁ := (hexec (s.withDin b) ⟨rfl, rfl, rfl, rfl, rfl, rfl, rfl⟩ rfl).symm.trans h₃
  cases ht₂
  cases hu₁
  have hu₂ := (exec_beside (s.withDin a) ⟨tx, s.bcSt, s.io.sink, s.env⟩ code [] hi).symm.trans h₄
  rw [h₁] at hu₂
  cases hu₂
  change t₁.bcSt = s.bcSt at hbcSt
  change t₁.io.sink = s.io.sink at hsink
  change t₁.env = s.env at henv
  rw [← hbcSt, ← hsink, ← henv]
  rfl

end Sys2Proof.Machine
end

section
/-! PROOFS. The chunk commands RX.CHUNK and RX.PUSH (43_synchronizer.md sections 2 and 3, 60_exceptions.md sections 2
and 6). -/

namespace Sys2Proof.Machine

open Sys2Proof

/-! ## What the chunk commands answer (R173, R176) -/

section commands
variable {s : State} {c : List Sample} {i : Instr}

theorem exec_chunk_of_bad_payload (hi : i = .rxChunk ∨ i = .rxPush) (hs : s.halted = false)
    (hd : ∀ c, c ≠ [] → s.io.din ≠ [nums c]) : exec i s = .next (s.answered 0x02 []) := by
  obtain rfl | rfl := hi
  · rw [exec, execRxChunk, rxChunk, unlessHalted_of_running hs, oneChunk_eq_none hd]
    exact raise_refusal s rfl
  · rw [exec, execRxPush, rxPush, unlessHalted_of_running hs, oneChunk_eq_none hd]
    exact raise_refusal s rfl

/-- A chunk on `din` leaves the checks of R173 in their order. -/
theorem exec_rxChunk_of_chunk (hs : s.halted = false) (hne : c ≠ []) (hd : s.io.din = [nums c]) :
    exec .rxChunk s =
      if s.rx.state = .none then .next (s.answered 0x03 [])
      else if c.length ≠ s.rx.chunk then .next (s.answered 0x02 [])
      else if s.rx.stop = true then .next (s.answered 0 [])
      else endStage [] (chunkStage rationals c s) := by
  rw [exec, execRxChunk, rxChunk, unlessHalted_of_running hs, oneChunk_eq_some.mpr ⟨hd, hne⟩]
  rfl

/-- RX.PUSH has the checks of RX.CHUNK, and runs the chunk stage on the filtered chunk (R176). -/
theorem exec_rxPush_of_chunk (hs : s.halted = false) (hne : c ≠ []) (hd : s.io.din = [nums c]) :
    exec .rxPush s =
      if s.rx.state = .none then .next (s.answered 0x03 [])
      else if c.length ≠ s.rx.chunk then .next (s.answered 0x02 [])
      else if s.rx.stop = true then .next (s.answered 0 [[]])
      else endStage [numItems (sfProcess s.cfg s.sf c).2]
        (chunkStage rationals (sfProcess s.cfg s.sf c).2 (pushStages c s)) := by
  rw [exec, execRxPush, rxPush, unlessHalted_of_running hs, oneChunk_eq_some.mpr ⟨hd, hne⟩]
  rfl

/-- The chunk on `din` is one the session takes. -/
structure Taken (s : State) (c : List Sample) : Prop where
  running : s.halted = false
  nonempty : c ≠ []
  payload : s.io.din = [nums c]
  session : s.rx.state ≠ .none
  size : c.length = s.rx.chunk
  live : s.rx.stop = false

theorem exec_rxChunk_of_taken (h : Taken s c) : exec .rxChunk s = endStage [] (chunkStage rationals c s) := by
  rw [exec_rxChunk_of_chunk h.running h.nonempty h.payload, if_neg h.session, if_neg (not_not.mpr h.size),
    if_neg (Bool.eq_false_iff.mp h.live)]

theorem exec_rxPush_of_taken (h : Taken s c) :
    exec .rxPush s = endStage [numItems (sfProcess s.cfg s.sf c).2]
      (chunkStage rationals (sfProcess s.cfg s.sf c).2 (pushStages c s)) := by
  rw [exec_rxPush_of_chunk h.running h.nonempty h.payload, if_neg h.session, if_neg (not_not.mpr h.size),
    if_neg (Bool.eq_false_iff.mp h.live)]

/-- The chunk of a session has at least one sample (R171), so a frame of that size is a chunk. -/
theorem taken_of_inv (hinv : s.Inv) (hs : s.halted = false) (hd : s.io.din = [nums c])
    (hstate : s.rx.state = .accumulating) (hlen : c.length = s.rx.chunk) (hstop : s.rx.stop = false) : Taken s c := by
  have hsession := ne_none_of_accumulating hstate
  obtain ⟨-, -, -, hchunk⟩ := hinv.session.2 hsession
  exact ⟨hs, List.ne_nil_of_length_pos (hlen ▸ hchunk), hd, hsession, hlen, hstop⟩

end commands

/-! ## The filtered chunk of RX.PUSH (R176) -/

section push
variable {s : State} {c : List Sample}

theorem sfProcess_length (cfg : Config) (sf : StreamFilter) (xs : List Sample) :
    (sfProcess cfg sf xs).2.length = xs.length := cascadeRun_output_length _ _ _

theorem emitted_emitted (s : State) (es es' : List Event) : (s.emitted es).emitted es' = s.emitted (es ++ es') := by
  simp only [Over.State.emitted, List.append_assoc]

/-- The decode does not read the events. -/
theorem emitted_rangeFaulted (s : State) (es : List Event) :
    (s.emitted es).rangeFaulted = s.rangeFaulted.emitted es := rfl

theorem pushStages_spacesSound (c : List Sample) (s : State) : spacesSound (pushStages c s) = spacesSound s := by
  rw [pushStages_eq]
  rfl

end push

/-! ## RX.PUSH is SF.PROC and then RX.CHUNK (R277) -/

/-- On two states that differ in their ports the chunk stage leaves the same, emits the same and ends with the same
status. -/
theorem endStage_chunkStage_ports (c : List Sample) (s : State) (io : Ports) (fs fs' : List OutFrame) :
    ∃ (u v : State) (es : List Event),
      endStage fs (chunkStage rationals c s) = .next u ∧ u.io.evt = s.io.evt ++ es ∧
      endStage fs' (chunkStage rationals c { s with io := io }) = .next v ∧ v.io.evt = io.evt ++ es ∧
      v.io.status = u.io.status ∧ { v with io := u.io } = u := by
  rcases chunkStage_cases c s with ⟨hst, h⟩ | ⟨hst, hw, hc, h⟩ | ⟨hst, hw, hc, -⟩ | ⟨hst, hw, -⟩
  · rw [h, chunkStage_reports (s := { s with io := io }) hst]
    exact ⟨_, _, _, rfl, rfl, rfl, rfl, rfl, rfl⟩
  · rw [h, chunkStage_accumulates (s := { s with io := io }) hst hw hc]
    exact ⟨_, _, _, rfl, rfl, rfl, rfl, rfl, rfl⟩
  · cases hr : s.coarse.outOfRange s.param.d
    · rw [chunkStage_decodes hst hw hc hr, chunkStage_decodes (s := { s with io := io }) hst hw hc hr]
      exact ⟨_, _, _, rfl, rfl, rfl, rfl, rfl, rfl⟩
    · rw [chunkStage_rangeFault hst hw hc hr, chunkStage_rangeFault (s := { s with io := io }) hst hw hc hr]
      exact ⟨_, _, _, rfl, rfl, rfl, rfl, rfl, rfl⟩
  · rw [chunkStage_unsound hst hw, chunkStage_unsound (s := { s with io := io }) hst hw]
    exact ⟨_, _, _, rfl, rfl, rfl, rfl, rfl, rfl⟩

/-! ## The obligations -/

/-- Settles O30: the cases are the branches of the checks, in their order. -/
theorem chunkRefusalsAndStop : Obligations.ChunkRefusalsAndStop := by
  refine fun s i hi => ⟨fun hs => exec_of_halted hs (by rintro rfl; simp at hi), exec_chunk_of_bad_payload hi,
    fun c hs hne hd => ?_⟩
  obtain ⟨r, hexec⟩ : ∃ r, exec i s =
      if s.rx.state = .none then .next (s.answered 0x03 [])
      else if c.length ≠ s.rx.chunk then .next (s.answered 0x02 [])
      else if s.rx.stop = true then .next (s.answered 0 (if i = .rxPush then [[]] else []))
      else r := by
    obtain rfl | rfl := hi
    · exact ⟨_, exec_rxChunk_of_chunk hs hne hd⟩
    · exact ⟨_, exec_rxPush_of_chunk hs hne hd⟩
  refine ⟨fun hst => ?noSession, fun hst hlen => ?size, fun hst hlen hstop => ?stopped⟩ <;> rw [hexec]
  case noSession => exact if_pos hst
  case size => rw [if_neg hst, if_pos hlen]
  case stopped => rw [if_neg hst, if_neg (not_not.mpr hlen), if_pos hstop]

/-- Settles O31: the chunk stage writes the chunk at the cursor, and reads of the buffer see the write inside its range
only. -/
theorem chunkIsAccumulated : Obligations.ChunkIsAccumulated := by
  intro s chunk hinv hs hd hstate hlen hstop hfits
  have htaken := taken_of_inv hinv hs hd hstate hlen hstop
  have hsound := hinv.spacesSound htaken.session
  obtain ⟨-, hbuf, -, -⟩ := hinv.session.2 htaken.session
  have hroom : s.rx.cursor + chunk.length ≤ s.rx.buf.length := hbuf ▸ hfits
  refine ⟨writeSlice s.rx.buf s.rx.cursor chunk, ?_, writeSlice_length _ _ _ hroom,
    writeSlice_inside _ _ _ hroom, writeSlice_outside _ _ _ hroom⟩
  rw [exec_rxChunk_of_taken htaken, chunkStage_accumulates hstate hsound hfits]
  rfl

/-- Settles O32: the first three stages leave the session as it is, so the filtered chunk fits where the chunk does. -/
theorem pushIsAccumulated : Obligations.PushIsAccumulated := by
  intro s c hinv hs hd hstate hlen hstop hfits f
  have htaken := taken_of_inv hinv hs hd hstate hlen hstop
  have hsound := (pushStages_spacesSound c s).trans (hinv.spacesSound htaken.session)
  have hf : f.length = c.length := sfProcess_length s.cfg s.sf c
  have hroom : s.rx.cursor + f.length ≤ s.param.d.accumulationBufferSize := hf ▸ hfits
  rw [exec_rxPush_of_taken htaken, chunkStage_accumulates (s := pushStages c s) hstate hsound hroom, ← hf,
    pushStages_eq]
  simp only [Over.State.emitted, List.append_assoc]
  rfl

/-- Settles O33: outside ACCUMULATING the chunk stage only reports. -/
theorem chunkAfterDoneOnlyReports : Obligations.ChunkAfterDoneOnlyReports := by
  intro s c hs hne hd hstate hlen hstop f
  have htaken : Taken s c := ⟨hs, hne, hd, by rw [hstate]; decide, hlen, hstop⟩
  have hdone : s.rx.state ≠ .accumulating := by rw [hstate]; decide
  refine ⟨?chunk, ?push⟩
  case chunk =>
    rw [exec_rxChunk_of_taken htaken, chunkStage_reports hdone]
    rfl
  case push =>
    rw [exec_rxPush_of_taken htaken, chunkStage_reports (s := pushStages c s) hdone, pushStages_eq, emitted_emitted]
    rfl

/-- Settles O34: the overflowing chunk leads to the decode, whose coarse peak is in range. -/
theorem overflowingChunkEndsSession : Obligations.OverflowingChunkEndsSession := by
  intro s chunk hinv hs hd hstate hlen hstop hover d c f syms hrange
  have htaken := taken_of_inv hinv hs hd hstate hlen hstop
  have hin : s.coarse.outOfRange s.param.d = false := decide_eq_false hrange.not_gt
  rw [exec_rxChunk_of_taken htaken, chunkStage_decodes hstate (hinv.spacesSound htaken.session) hover hin]
  rfl

/-- Settles O35: the overflowing chunk leads to the decode, whose coarse peak is out of range; a session that
accumulates has no result. -/
theorem rangeFaultOutcome : Obligations.RangeFaultOutcome := by
  intro s chunk hinv hs hd hstate hlen hstop hover d c f rx hrange
  have htaken := taken_of_inv hinv hs hd hstate hlen hstop
  have hout : s.coarse.outOfRange s.param.d = true := decide_eq_true hrange
  have hsound := hinv.spacesSound htaken.session
  obtain ⟨hslc, hsyn⟩ := hinv.no_result hstate
  refine ⟨?chunk, ?push, hsyn, hslc⟩
  case chunk =>
    rw [exec_rxChunk_of_taken htaken, chunkStage_rangeFault hstate hsound hover hout]
    rfl
  case push =>
    have hf : f.length = chunk.length := sfProcess_length s.cfg s.sf chunk
    have hover' : s.param.d.accumulationBufferSize < s.rx.cursor + f.length := hf ▸ hover
    rw [exec_rxPush_of_taken htaken, chunkStage_rangeFault (s := pushStages chunk s) hstate
      ((pushStages_spacesSound chunk s).trans hsound) hover' hout, pushStages_eq, emitted_rangeFaulted,
      emitted_emitted]
    rfl

/-- Settles O36: RX.PUSH runs the chunk stage on the state that SF.PROC leaves, but for the ports. -/
theorem pushIsFilterThenChunk : Obligations.PushIsFilterThenChunk := by
  intro s c hs hne hstate hlen hstop
  have hf := sfProcess_length s.cfg s.sf c
  have hpush : Taken (s.withDin [nums c]) c := ⟨hs, hne, rfl, hstate, hlen, hstop⟩
  let t : State := Over.State.answered { s.withDin [nums c] with sf := (sfProcess s.cfg s.sf c).1 } 0
    [numItems (sfProcess s.cfg s.sf c).2]
  have hchunk : Taken (t.withDin [nums (sfProcess s.cfg s.sf c).2]) (sfProcess s.cfg s.sf c).2 :=
    ⟨hs, List.ne_nil_of_length_pos (hf ▸ List.length_pos_of_ne_nil hne), rfl, hstate, hf.trans hlen, hstop⟩
  obtain ⟨u, v, es, hu, hues, hv, hves, hstatus, hrest⟩ := endStage_chunkStage_ports (sfProcess s.cfg s.sf c).2
    (t.withDin [nums (sfProcess s.cfg s.sf c).2]) (pushStages c (s.withDin [nums c])).io []
    [numItems (sfProcess s.cfg s.sf c).2]
  refine ⟨t, u, v, _, es, exec_sfProc_of_frame hs rfl, rfl, (exec_rxChunk_of_taken hchunk).trans hu, hues,
    (exec_rxPush_of_taken hpush).trans hv, ?_, hstatus, hrest⟩
  rw [hves, pushStages_eq]
  rfl

end Sys2Proof.Machine
end

section
/-! PROOFS. The batch decode's searches: templates, correlator, coarse and fine search (43_synchronizer.md section 3,
R177 to R189). -/

namespace Sys2Proof.Machine

open Sys2Proof

/-! ## What a scan answers (R7) -/

section scan
variable {R : Type} [LT R] [DecidableLT R]

/-- The loop answers what it starts from, or an index of its list with its value. -/
theorem scanFrom_eq_or_mem (f : Nat → R) (best : R) (arg : Nat) (is : List Nat) :
    scanFrom f best arg is = (best, arg) ∨
      (scanFrom f best arg is).2 ∈ is ∧ (scanFrom f best arg is).1 = f (scanFrom f best arg is).2 := by
  induction is generalizing best arg with
  | nil => exact .inl rfl
  | cons i is ih =>
    rw [scanFrom]
    split
    · rcases ih (f i) i with h | ⟨hmem, hval⟩
      · rw [h]
        exact .inr ⟨List.mem_cons_self, rfl⟩
      · exact .inr ⟨List.mem_cons_of_mem i hmem, hval⟩
    · rcases ih best arg with h | ⟨hmem, hval⟩
      · exact .inl h
      · exact .inr ⟨List.mem_cons_of_mem i hmem, hval⟩

theorem scan_eq_zero_or_mem [Zero R] (init : ScanInit) (is : List Nat) (f : Nat → R) :
    scan init is f = (0, 0) ∨ (scan init is f).2 ∈ is ∧ (scan init is f).1 = f (scan init is f).2 := by
  match init, is with
  | .zero, is => exact scanFrom_eq_or_mem f 0 0 is
  | .first, [] => exact .inl rfl
  | .first, i :: is =>
    rcases scanFrom_eq_or_mem f (f i) i (i :: is) with h | h
    · refine .inr ?_
      rw [scan, h]
      exact ⟨List.mem_cons_self, rfl⟩
    · exact .inr h

end scan

/-! ## Scaling (R189) -/

section scaling

theorem corr_scale {R : Type} [CommRing R] (g : R) (r t : List R) (i : Nat) :
    corr r (t.map (g * ·)) i = g * corr r t i := by
  have hzip : List.zipWith (· * ·) r ((t.drop i).map (g * ·)) =
      (List.zipWith (· * ·) r (t.drop i)).map (g * ·) := by
    rw [List.zipWith_map_right, List.map_zipWith]
    simp only [mul_left_comm]
  rw [corr, corr, ← List.map_drop, hzip]
  simp

variable {R : Type} [CommRing R] [LinearOrder R] [IsStrictOrderedRing R] {g : R}

/-- A positive factor leaves every comparison of the loop as it is. -/
theorem scanFrom_scale (hg : 0 < g) (f : Nat → R) (best : R) (arg : Nat) (is : List Nat) :
    scanFrom (fun i => g * f i) (g * best) arg is = (g * (scanFrom f best arg is).1, (scanFrom f best arg is).2) := by
  induction is generalizing best arg with
  | nil => rfl
  | cons i is ih =>
    simp only [scanFrom, mul_lt_mul_iff_right₀ hg, ih]
    split <;> rfl

theorem scan_scale (hg : 0 < g) (init : ScanInit) (is : List Nat) (f : Nat → R) :
    scan init is (fun i => g * f i) = (g * (scan init is f).1, (scan init is f).2) := by
  match init, is with
  | .zero, is =>
    have h := scanFrom_scale hg f 0 0 is
    rwa [mul_zero] at h
  | .first, [] => simp [scan]
  | .first, i :: is => exact scanFrom_scale hg f (f i) i (i :: is)

theorem thresholded_scale {g thr : Sample} {buf : List Sample} (h : ∀ x ∈ buf, thr < |g * x| ↔ thr < |x|) :
    thresholded thr (buf.map (g * ·)) = thresholded thr buf := by
  rw [thresholded, thresholded, List.map_map]
  exact List.map_congr_left fun x hx => if_congr (h x hx) rfl rfl

end scaling

/-! ## The thresholded sequence and the two templates (R177, R178, R183) -/

section templates

/-- In a concatenation of blocks of one length, block `j` begins at `j` times that length. -/
theorem getElem?_flatMap_blocks {α β : Type} {f : α → List β} {n : Nat} (hf : ∀ a, (f a).length = n) {l : List α}
    {j o : Nat} {a : α} (ha : l[j]? = some a) (ho : o < n) : (l.flatMap f)[j * n + o]? = (f a)[o]? := by
  induction l generalizing j with
  | nil => cases ha
  | cons b l ih =>
    cases j with
    | zero =>
      cases ha
      rw [List.flatMap_cons, Nat.zero_mul, Nat.zero_add, List.getElem?_append_left (by rwa [hf])]
    | succ j =>
      have hshift : (j + 1) * n + o = n + (j * n + o) := by ring
      rw [List.flatMap_cons, hshift, List.getElem?_append_right (by rw [hf]; omega), hf, Nat.add_sub_cancel_left]
      exact ih ha

/-- One slot of the delimiter template, with its hole (R178). -/
def delimiterSlot (hole : Option Nat) (sps : Nat) (bit : Bool) : List Int :=
  (List.range sps).map fun o => if hole = some o then 0 else if bit then 1 else -1

theorem delimiterSlot_length (hole : Option Nat) (sps : Nat) (bit : Bool) :
    (delimiterSlot hole sps bit).length = sps := by simp [delimiterSlot]

theorem refDelimiter_eq (hole : Option Nat) (sps : Nat) :
    refDelimiter hole sps = [true, true, true, false, false, false].flatMap (delimiterSlot hole sps) := rfl

theorem refDelimiter_length (hole : Option Nat) (sps : Nat) : (refDelimiter hole sps).length = 6 * sps := by
  simp only [refDelimiter_eq, List.flatMap_cons, List.flatMap_nil, List.length_append, List.length_nil,
    delimiterSlot_length]
  omega

theorem refDelimiter_getElem? (hole : Option Nat) {sps j o : Nat} {bit : Bool}
    (hj : [true, true, true, false, false, false][j]? = some bit) (ho : o < sps) :
    (refDelimiter hole sps)[j * sps + o]? = some (if hole = some o then 0 else if bit then 1 else -1) := by
  rw [refDelimiter_eq, getElem?_flatMap_blocks (delimiterSlot_length hole sps) hj ho]
  simp [delimiterSlot, ho]

theorem refSymbol_length (sps : Nat) : (refSymbol sps).length = 2 * sps := by
  simp [refSymbol, Nat.two_mul]

theorem refSymbol_getElem? {sps k : Nat} (hk : k < 2 * sps) :
    (refSymbol sps)[k]? = some (if k < sps then 1 else -1) := by
  rw [refSymbol]
  split
  · next h => rw [List.getElem?_append_left (by simpa using h), List.getElem?_replicate_of_lt h]
  · next h =>
    rw [List.getElem?_append_right (by simpa using h), List.length_replicate, List.getElem?_replicate_of_lt (by omega)]

theorem thresholded_length (thr : Sample) (buf : List Sample) : (thresholded thr buf).length = buf.length :=
  List.length_map _

end templates

/-! ## Bounds on correlations (R179, R184) -/

section bounds

theorem abs_sum_le_length {l : List Int} (h : ∀ x ∈ l, |x| ≤ 1) : |l.sum| ≤ l.length := by
  induction l with
  | nil => simp
  | cons x l ih =>
    obtain ⟨hx, hl⟩ := List.forall_mem_cons.mp h
    have hsum := abs_add_le x l.sum
    have := ih hl
    rw [List.sum_cons, List.length_cons]
    push_cast
    omega

/-- A sum of odd numbers has the parity of their count. -/
theorem sum_emod_two {l : List Int} (h : ∀ x ∈ l, x % 2 = 1) : l.sum % 2 = (l.length : Int) % 2 := by
  induction l with
  | nil => rfl
  | cons x l ih =>
    obtain ⟨hx, hl⟩ := List.forall_mem_cons.mp h
    have := ih hl
    rw [List.sum_cons, List.length_cons]
    push_cast
    omega

theorem abs_le_one_of_mem_thresholded {thr : Sample} {buf : List Sample} {x : Int} (hx : x ∈ thresholded thr buf) :
    x = 1 ∨ x = -1 := by
  obtain ⟨y, -, rfl⟩ := List.mem_map.mp hx
  exact ite_eq_or_eq _ _ _

theorem mem_refSymbol {sps : Nat} {x : Int} (hx : x ∈ refSymbol sps) : x = 1 ∨ x = -1 := by
  rw [refSymbol, List.mem_append, List.mem_replicate, List.mem_replicate] at hx
  exact hx.imp And.right And.right

theorem abs_le_one_of_mem_refDelimiter {hole : Option Nat} {sps : Nat} {x : Int} (hx : x ∈ refDelimiter hole sps) :
    |x| ≤ 1 := by
  rw [refDelimiter_eq] at hx
  obtain ⟨bit, -, hx⟩ := List.mem_flatMap.mp hx
  obtain ⟨o, -, rfl⟩ := List.mem_map.mp hx
  split_ifs <;> decide

/-- A product along two lists comes from an element of each. -/
theorem exists_of_mem_zipWith {α β γ : Type} {f : α → β → γ} {as : List α} {bs : List β} {z : γ}
    (h : z ∈ List.zipWith f as bs) : ∃ a ∈ as, ∃ b ∈ bs, z = f a b := by
  rw [← List.map_uncurry_zip_eq_zipWith] at h
  obtain ⟨⟨a, b⟩, hab, rfl⟩ := List.mem_map.mp h
  obtain ⟨ha, hb⟩ := List.of_mem_zip hab
  exact ⟨a, ha, b, hb, rfl⟩

/-- No factor exceeds 1, so a correlation is at most the length of its sequence. -/
theorem abs_corr_le {r t : List Int} (hr : ∀ x ∈ r, |x| ≤ 1) (ht : ∀ x ∈ t, |x| ≤ 1) (i : Nat) :
    |corr r t i| ≤ r.length := by
  have hprod : ∀ z ∈ List.zipWith (· * ·) r (t.drop i), |z| ≤ 1 := by
    intro z hz
    obtain ⟨x, hx, y, hy, rfl⟩ := exists_of_mem_zipWith hz
    rw [abs_mul]
    exact mul_le_one₀ (hr x hx) (abs_nonneg y) (ht y (List.mem_of_mem_drop hy))
  have hlen : (List.zipWith (· * ·) r (t.drop i)).length ≤ r.length := by simp
  exact (abs_sum_le_length hprod).trans (by exact_mod_cast hlen)

theorem abs_coarse_corr_le (hole : Option Nat) (sps : Nat) (thr : Sample) (buf : List Sample) (i : Nat) :
    |corr (refDelimiter hole sps) (thresholded thr buf) i| ≤ 6 * sps := by
  have h := abs_corr_le (r := refDelimiter hole sps) (t := thresholded thr buf)
    (fun x => abs_le_one_of_mem_refDelimiter)
    (fun x hx => by obtain rfl | rfl := abs_le_one_of_mem_thresholded hx <;> decide) i
  rw [refDelimiter_length] at h
  exact_mod_cast h

/-- The `2·sps` products of the symbol template are odd, so their sum is even. -/
theorem refSymbol_corr_even_and_le {sps : Nat} (thr : Sample) {buf : List Sample} {o : Nat}
    (ho : o + 2 * sps ≤ buf.length) :
    (corr (refSymbol sps) (thresholded thr buf) o).natAbs % 2 = 0 ∧
      (corr (refSymbol sps) (thresholded thr buf) o).natAbs ≤ 2 * sps := by
  have hprod : ∀ z ∈ List.zipWith (· * ·) (refSymbol sps) ((thresholded thr buf).drop o), z = 1 ∨ z = -1 := by
    intro z hz
    obtain ⟨x, hx, y, hy, rfl⟩ := exists_of_mem_zipWith hz
    obtain rfl | rfl := mem_refSymbol hx <;>
      obtain rfl | rfl := abs_le_one_of_mem_thresholded (List.mem_of_mem_drop hy) <;> decide
  have hlen : (List.zipWith (· * ·) (refSymbol sps) ((thresholded thr buf).drop o)).length = 2 * sps := by
    rw [List.length_zipWith, List.length_drop, thresholded_length, refSymbol_length]
    omega
  have heven := sum_emod_two fun z hz => by obtain rfl | rfl := hprod z hz <;> decide
  have hle := abs_sum_le_length fun z hz => by obtain rfl | rfl := hprod z hz <;> decide
  rw [hlen] at heven hle
  rw [Int.abs_eq_natAbs] at hle
  rw [corr]
  omega

end bounds

/-! ## The profile (R184) -/

section profile
variable {d : DerivedRegs} {n : Nat} {tseq : List Int}

theorem profile_length : (profile d tseq).length = d.accumulationBufferSize - d.samplesPerSymbol + 1 := by
  simp [profile]

theorem profile_getElem? {o : Nat} (ho : o ≤ d.accumulationBufferSize - d.samplesPerSymbol) :
    (profile d tseq)[o]? = some (corr (refSymbol d.samplesPerSlot) tseq o).natAbs := by
  simp [profile, Nat.lt_succ_of_le ho]

theorem mem_profile (hd : Geometry d n) {thr : Sample} {buf : List Sample}
    (hbuf : buf.length = d.accumulationBufferSize)
    {p : Nat} (hp : p ∈ profile d (thresholded thr buf)) : p % 2 = 0 ∧ p ≤ d.samplesPerSymbol := by
  obtain ⟨o, ho, rfl⟩ := List.mem_map.mp hp
  rw [List.mem_range] at ho
  have hsym := hd.symbol
  have hdel := hd.delimiter
  have hL := hd.buffer
  rw [hsym]
  exact refSymbol_corr_even_and_le thr (by omega)

end profile

/-! ## The obligations -/

/-- Settles O39: a positive factor comes out of every sum and leaves every comparison; the datapath sees the threshold
comparison only. -/
theorem correlatorScalingLaw : Obligations.CorrelatorScalingLaw := by
  refine ⟨fun R _ _ _ g r t hg => ⟨corr_scale g r t, fun init is => ?scan⟩, fun g cfg d buf _ hthr => ?datapath⟩
  case scan =>
    rw [funext (corr_scale g r t)]
    exact scan_scale hg init is _
  case datapath => rw [coarseSync, coarseSync, thresholded_scale hthr]

/-- Settles O40: the templates are blocks of one slot each; a profile value is the magnitude of a sum of `sym` numbers
±1. -/
theorem templatesAndProfile : Obligations.TemplatesAndProfile := by
  refine ⟨thresholded_length, fun thr buf k x hx => ?thresholded, fun hole sps j o bit => refDelimiter_getElem? hole,
    refDelimiter_length, refSymbol_length, fun sps k => refSymbol_getElem?, fun cfg d n buf hsound hbuf => ?profile⟩
  case thresholded => rw [thresholded, List.getElem?_map, hx, Option.map_some]
  case profile => exact ⟨profile_length, fun o => profile_getElem?, fun p => mem_profile (sound_iff.mp hsound) hbuf⟩

end Sys2Proof.Machine
end

section
/-! PROOFS. The searches stay inside their spaces, the registers they write are bounded, and a silent buffer decodes
(43_synchronizer.md section 3, R179 to R190). -/

namespace Sys2Proof.Machine

open Sys2Proof

/-! ## The correlator as a sum over the offsets (R179) -/

theorem corr_eq_sum {R : Type} [CommRing R] (r t : List R) (i : Nat) (h : i + r.length ≤ t.length) :
    corr r t i = ((List.range r.length).map fun k => r.getD k 0 * t.getD (i + k) 0).sum := by
  rw [corr]
  congr 1
  refine List.ext_getElem (by simp; omega) fun k hk hk' => ?_
  simp only [List.length_map, List.length_range] at hk'
  simp [hk', show i + k < t.length by omega]

/-! ## The coarse and the fine search (R180 to R186) -/

section search
variable {cfg : Config} {d : DerivedRegs} {n : Nat} {buf : List Sample}

/-- The coarse search runs over `[0, spd + spf)`: the buffer is twice that long. -/
theorem coarseSync_scan (hd : Geometry d n) :
    ((coarseSync cfg d buf).currentMax, (coarseSync cfg d buf).argmax) =
      scan cfg.coarseInit (List.range (d.samplesPerDelimiter + d.samplesPerFrame))
        (corr (refDelimiter cfg.delimHole d.samplesPerSlot) (thresholded cfg.sampleThreshold buf)) := by
  have hL := hd.buffer
  have hrange : d.accumulationBufferSize - d.samplesPerDelimiter - d.samplesPerFrame =
      d.samplesPerDelimiter + d.samplesPerFrame := by omega
  rw [coarseSync, hrange]

theorem coarse_argmax_lt (hd : Geometry d n) :
    (coarseSync cfg d buf).argmax < d.samplesPerDelimiter + d.samplesPerFrame := by
  have hscan := coarseSync_scan (cfg := cfg) (buf := buf) hd
  rcases scan_eq_zero_or_mem cfg.coarseInit (List.range (d.samplesPerDelimiter + d.samplesPerFrame))
    (corr (refDelimiter cfg.delimHole d.samplesPerSlot) (thresholded cfg.sampleThreshold buf)) with h | ⟨h, -⟩ <;>
    rw [← hscan] at h
  · have hslot := hd.slot
    have hdel := hd.delimiter
    have harg : (coarseSync cfg d buf).argmax = 0 := congrArg Prod.snd h
    omega
  · exact List.mem_range.mp h

theorem coarse_abs_currentMax_le (hd : Geometry d n) :
    |(coarseSync cfg d buf).currentMax| ≤ d.samplesPerDelimiter := by
  have hscan := coarseSync_scan (cfg := cfg) (buf := buf) hd
  rcases scan_eq_zero_or_mem cfg.coarseInit (List.range (d.samplesPerDelimiter + d.samplesPerFrame))
    (corr (refDelimiter cfg.delimHole d.samplesPerSlot) (thresholded cfg.sampleThreshold buf)) with h | ⟨-, h⟩ <;>
    rw [← hscan] at h
  · have hmax : (coarseSync cfg d buf).currentMax = 0 := congrArg Prod.fst h
    rw [hmax]
    simp
  · have hmax : (coarseSync cfg d buf).currentMax = _ := h
    rw [hmax, hd.delimiter]
    push_cast
    exact abs_coarse_corr_le _ _ _ _ _

variable {c : Coarse}

theorem outOfRange_iff (hd : Geometry d n) :
    c.outOfRange d = true ↔ d.samplesPerDelimiter + d.samplesPerFrame - d.samplesPerSlot / 2 < c.argmax := by
  have hslot := hd.slot
  have hdel := hd.delimiter
  have hL := hd.buffer
  rw [Coarse.outOfRange, decide_eq_true_iff, Coarse.hi, Coarse.delimiterEnd]
  omega

/-- The window of the fine search ends `hi`, where the range check has passed. -/
theorem hi_of_inRange (h : c.outOfRange d = false) : c.hi d + d.samplesPerFrame ≤ d.accumulationBufferSize := by
  rw [Coarse.outOfRange, decide_eq_false_iff_not] at h
  omega

theorem mem_window (hd : Geometry d n) {delay : Nat}
    (h : delay ∈ List.range' (c.lo d) (2 * (d.samplesPerSlot / 2) + 1)) : c.lo d ≤ delay ∧ delay ≤ c.hi d := by
  have hdel := hd.delimiter
  rw [List.mem_range'_1, Coarse.lo, Coarse.delimiterEnd] at h
  rw [Coarse.lo, Coarse.hi, Coarse.delimiterEnd]
  omega

/-- Every index of the fine search lies inside the profile (R185, R186). -/
theorem fine_index_lt (hd : Geometry d n) (h : c.outOfRange d = false) {delay j : Nat} (hdelay : delay ≤ c.hi d)
    (hj : j < n) : delay + j * d.samplesPerSymbol < d.accumulationBufferSize - d.samplesPerSymbol + 1 := by
  have hhi := hi_of_inRange h
  have hframe := hd.frame
  have hlast : (j + 1) * d.samplesPerSymbol ≤ d.samplesPerSymbol * n := by
    rw [Nat.mul_comm]
    exact Nat.mul_le_mul_left _ hj
  rw [Nat.add_mul, Nat.one_mul] at hlast
  omega

/-- The best score is a score, which is never negative, so the register holds it as it is. -/
theorem fineSync_scan :
    (((fineSync cfg d n c).fineMax : Int), (fineSync cfg d n c).delay) =
      scan cfg.fineInit (List.range' (c.lo d) (2 * (d.samplesPerSlot / 2) + 1))
        (fun delay => (score d n (profile d c.tseq) delay : Int)) := by
  have hnonneg : 0 ≤ (scan cfg.fineInit (List.range' (c.lo d) (2 * (d.samplesPerSlot / 2) + 1))
      (fun delay => (score d n (profile d c.tseq) delay : Int))).1 := by
    rcases scan_eq_zero_or_mem cfg.fineInit (List.range' (c.lo d) (2 * (d.samplesPerSlot / 2) + 1))
      (fun delay => (score d n (profile d c.tseq) delay : Int)) with h | ⟨-, h⟩ <;> rw [h]
    exact Int.natCast_nonneg _
  rw [fineSync]
  exact Prod.ext (Int.toNat_of_nonneg hnonneg) rfl

theorem fine_delay_add_frame_le (hd : Geometry d n) (h : c.outOfRange d = false) :
    (fineSync cfg d n c).delay + d.samplesPerFrame ≤ d.accumulationBufferSize := by
  have hscan := fineSync_scan (cfg := cfg) (d := d) (n := n) (c := c)
  have hhi := hi_of_inRange h
  rcases scan_eq_zero_or_mem cfg.fineInit (List.range' (c.lo d) (2 * (d.samplesPerSlot / 2) + 1))
    (fun delay => (score d n (profile d c.tseq) delay : Int)) with hz | ⟨hmem, -⟩
  · rw [← hscan] at hz
    have hdelay : (fineSync cfg d n c).delay = 0 := congrArg Prod.snd hz
    omega
  · rw [← hscan] at hmem
    obtain ⟨-, hle⟩ := mem_window hd hmem
    dsimp only at hle
    omega

/-- A score adds `n` profile values of at most `sym`. -/
theorem score_le {prof : List Nat} (h : ∀ p ∈ prof, p ≤ d.samplesPerSymbol) (delay : Nat) :
    score d n prof delay ≤ n * d.samplesPerSymbol := by
  have hsum := List.sum_le_card_nsmul
    ((List.range n).map fun j => prof.getD (delay + j * d.samplesPerSymbol) 0) d.samplesPerSymbol ?_
  · simpa [score] using hsum
  · intro x hx
    obtain ⟨j, -, rfl⟩ := List.mem_map.mp hx
    rcases lt_or_ge (delay + j * d.samplesPerSymbol) prof.length with hlt | hge
    · rw [List.getD_eq_getElem _ _ hlt]
      exact h _ (List.getElem_mem hlt)
    · rw [List.getD_eq_default _ _ hge]
      exact Nat.zero_le _

theorem fine_fineMax_le (hd : Geometry d n) (hbuf : buf.length = d.accumulationBufferSize)
    (htseq : c.tseq = thresholded cfg.sampleThreshold buf) :
    (fineSync cfg d n c).fineMax ≤ n * d.samplesPerSymbol := by
  have hscan := fineSync_scan (cfg := cfg) (d := d) (n := n) (c := c)
  rcases scan_eq_zero_or_mem cfg.fineInit (List.range' (c.lo d) (2 * (d.samplesPerSlot / 2) + 1))
    (fun delay => (score d n (profile d c.tseq) delay : Int)) with h | ⟨-, h⟩ <;> rw [← hscan] at h
  · have hmax : ((fineSync cfg d n c).fineMax : Int) = 0 := congrArg Prod.fst h
    omega
  · have hmax : (fineSync cfg d n c).fineMax = score d n (profile d c.tseq) (fineSync cfg d n c).delay :=
      Nat.cast_injective (R := Int) h
    rw [hmax, htseq]
    exact score_le (fun p hp => (mem_profile hd hbuf hp).2) _

end search

/-! ## The bounds of the result registers (R97, R181, R186) -/

section bounds
variable {i : Instr} {c : List Sample} {s u : Over.State Sample}

theorem decodedBuffer_synBounded (hs : s.Inv) (hstate : s.rx.state = .accumulating)
    (hrange : s.coarse.outOfRange s.param.d = false) : s.decodedBuffer.SynBounded := by
  intro _
  have hd := hs.geometry_of_session (ne_none_of_accumulating hstate)
  obtain ⟨-, hbuf, -, -⟩ := hs.session.2 (ne_none_of_accumulating hstate)
  exact ⟨coarse_argmax_lt hd, rfl, coarse_abs_currentMax_le hd, fine_delay_add_frame_le hd hrange,
    fine_fineMax_le hd hbuf rfl⟩

theorem synBounded_of_no_result (h : s.rx.synValid = false) : s.SynBounded := fun hv =>
  absurd hv (Bool.eq_false_iff.mp h)

theorem StageEffect.synBounded (h : StageEffect c s u) (hs : s.Inv) (hb : s.SynBounded) : u.SynBounded := by
  cases h with
  | reports | accumulates => exact hb
  | decodes hstate _ hrange => exact decodedBuffer_synBounded hs hstate hrange
  | rangeFault hstate | unsound hstate => exact synBounded_of_no_result (hs.no_result hstate).2

theorem Effect.synBounded (h : Effect i s u) (hs : s.Inv) (hb : s.SynBounded) : u.SynBounded := by
  cases h with
  | reset | session => exact synBounded_of_no_result rfl
  | load hfree =>
    obtain ⟨-, hslc, -⟩ := hs.idle_of_no_params hfree
    exact synBounded_of_no_result (hs.results.1.trans hslc)
  | chunk _ hu => exact hu.synBounded hs hb
  | push _ hu => exact hu.synBounded (pushStages_inv hs _) hb
  | _ => exact hb

end bounds

/-! ## The obligations -/

/-- Settles O41: a scan answers an index of its list or 0, and the range check bounds the last index of the fine search;
a peak past the check needs half a slot of at least 2. -/
theorem fineSearchStaysInRange : Obligations.FineSearchStaysInRange := by
  refine ⟨fun R _ r t i => corr_eq_sum r t i, fun cfg d n buf hsound hbuf => ?_⟩
  intro c f tseq refd delimiterEnd h
  have hd : Geometry d n := sound_iff.mp hsound
  have harg : c.argmax < d.samplesPerDelimiter + d.samplesPerFrame := coarse_argmax_lt hd
  refine ⟨rfl, rfl, coarseSync_scan hd, rfl, rfl, rfl, fun _ => fineSync_scan, harg, outOfRange_iff hd,
    fun hout => ?fourSamples, fun hin => ⟨fun delay j _ hdelay hj => ?index, fine_delay_add_frame_le hd hin,
      fine_fineMax_le hd hbuf rfl⟩⟩
  case fourSamples =>
    have hlate := (outOfRange_iff hd).mp hout
    omega
  case index => exact (fine_index_lt hd hin hdelay hj).trans_eq profile_length.symm

/-- Settles O56: the registers are written by a decode, whose searches stay in their ranges, and no other step writes
them or PARAM while a result stands. -/
theorem stepKeepsSynBounds : Obligations.StepKeepsSynBounds := by
  intro s t hs hb h
  rcases step_cases h with ⟨-, rfl⟩ | ⟨ready, rest, -, rfl⟩ | ⟨w, din, rest, i, -, -, h⟩ | ⟨w, din, rest, e, -, -, h⟩
  · exact hb
  · rw [txRep_eq_withPlayback]
    exact hb
  · obtain ⟨u, hu, code, frames, rfl⟩ := exec_leaves h
    exact hu.synBounded (hs.with_outside _ _ _) hb
  · obtain ⟨code, rfl⟩ := h
    exact hb

end Sys2Proof.Machine
end

section
/-! PROOFS. A silent buffer decodes (43_synchronizer.md section 3, R190; 70_reset_and_hazards.md section 3, R320). -/

namespace Sys2Proof.Machine

open Sys2Proof

/-! ## Correlations of silence -/

section silence

theorem thresholded_silence {thr : Sample} (h : 0 ≤ thr) (L : Nat) :
    thresholded thr (List.replicate L 0) = List.replicate L (-1) := by
  rw [thresholded, List.map_replicate, if_neg (by simpa using h)]

/-- Where the sequence fits, its correlation with a constant is the multiple of its sum. -/
theorem corr_replicate {r : List Int} {L i : Nat} (x : Int) (h : i + r.length ≤ L) :
    corr r (List.replicate L x) i = r.sum * x := by
  have hzip : List.zipWith (· * ·) r (List.replicate (L - i) x) = r.map (· * x) := by
    refine List.ext_getElem (by simp; omega) fun k hk hk' => ?_
    simp
  rw [corr, List.drop_replicate, hzip]
  simp [List.sum_map_mul_right]

theorem delimiterSlot_neg (hole : Option Nat) (sps : Nat) :
    (delimiterSlot hole sps false).sum = -(delimiterSlot hole sps true).sum := by
  have hmap : delimiterSlot hole sps false = (delimiterSlot hole sps true).map (- ·) := by
    simp [delimiterSlot, Function.comp_def, apply_ite Neg.neg]
  rw [hmap, ← List.sum_neg]

/-- The three on slots and the three off slots of the delimiter cancel, holes included. -/
theorem refDelimiter_sum (hole : Option Nat) (sps : Nat) : (refDelimiter hole sps).sum = 0 := by
  simp only [refDelimiter_eq, List.flatMap_cons, List.flatMap_nil, List.sum_append, List.sum_nil, delimiterSlot_neg]
  omega

theorem refSymbol_sum (sps : Nat) : (refSymbol sps).sum = 0 := by simp [refSymbol]

end silence

/-! ## Scans of nothing -/

/-- A scan of zeros answers 0 at its start: index 0 from ZERO, the first index of its list from FIRST. -/
theorem scan_zeros (init : ScanInit) (i : Nat) (is : List Nat) {f : Nat → Int} (h : ∀ j ∈ i :: is, f j = 0) :
    scan init (i :: is) f = (0, if init = .zero then 0 else i) := by
  obtain ⟨hi, -⟩ := List.forall_mem_cons.mp h
  cases init with
  | zero => exact scan_zero_eq_zero f _ fun j hj => (h j hj).le
  | first =>
    rw [scan, scanFrom_eq_start _ _ _ _ fun j hj => (h j hj).trans_le hi.ge, hi]
    rfl

/-! ## The decode of silence -/

section decode
variable {cfg : Config} {d : DerivedRegs} {n : Nat}

theorem coarseSync_silence (hd : Geometry d n) (hthr : 0 ≤ cfg.sampleThreshold) :
    (coarseSync cfg d (List.replicate d.accumulationBufferSize 0)).currentMax = 0 ∧
      (coarseSync cfg d (List.replicate d.accumulationBufferSize 0)).argmax = 0 := by
  have hscan := coarseSync_scan (cfg := cfg) (buf := List.replicate d.accumulationBufferSize 0) hd
  have hslot := hd.slot
  have hdel := hd.delimiter
  have hL := hd.buffer
  have hzero : ∀ i ∈ List.range (d.samplesPerDelimiter + d.samplesPerFrame),
      corr (refDelimiter cfg.delimHole d.samplesPerSlot)
        (thresholded cfg.sampleThreshold (List.replicate d.accumulationBufferSize 0)) i = 0 := by
    intro i hi
    rw [List.mem_range] at hi
    rw [thresholded_silence hthr, corr_replicate _ (by rw [refDelimiter_length]; omega), refDelimiter_sum, zero_mul]
  obtain ⟨m, hm⟩ : ∃ m, d.samplesPerDelimiter + d.samplesPerFrame = m + 1 :=
    ⟨d.samplesPerDelimiter + d.samplesPerFrame - 1, by omega⟩
  rw [hm, List.range_succ_eq_map] at hscan hzero
  rw [scan_zeros _ _ _ hzero, ite_self] at hscan
  exact Prod.mk.inj hscan

variable {c : Coarse}

theorem profile_silence (hd : Geometry d n) (htseq : c.tseq = List.replicate d.accumulationBufferSize (-1)) {p : Nat}
    (hp : p ∈ profile d c.tseq) : p = 0 := by
  obtain ⟨o, ho, rfl⟩ := List.mem_map.mp hp
  rw [List.mem_range] at ho
  have hsym := hd.symbol
  have hdel := hd.delimiter
  have hL := hd.buffer
  rw [htseq, corr_replicate _ (by rw [refSymbol_length]; omega), refSymbol_sum, zero_mul, Int.natAbs_zero]

theorem score_zeros {prof : List Nat} (h : ∀ p ∈ prof, p = 0) (delay : Nat) : score d n prof delay = 0 := by
  refine List.sum_eq_zero fun x hx => ?_
  obtain ⟨j, -, rfl⟩ := List.mem_map.mp hx
  rcases lt_or_ge (delay + j * d.samplesPerSymbol) prof.length with hlt | hge
  · rw [List.getD_eq_getElem _ _ hlt]
    exact h _ (List.getElem_mem hlt)
  · exact List.getD_eq_default _ _ hge

theorem fineSync_silence (hd : Geometry d n) (htseq : c.tseq = List.replicate d.accumulationBufferSize (-1))
    (harg : c.argmax = 0) :
    (fineSync cfg d n c).fineMax = 0 ∧
      (fineSync cfg d n c).delay =
        if cfg.fineInit = .zero then 0 else d.samplesPerDelimiter - d.samplesPerSlot / 2 := by
  have hscan := fineSync_scan (cfg := cfg) (d := d) (n := n) (c := c)
  have hlo : c.lo d = d.samplesPerDelimiter - d.samplesPerSlot / 2 := by
    rw [Coarse.lo, Coarse.delimiterEnd, harg, Nat.zero_add]
  rw [List.range'_succ, scan_zeros _ _ _ fun delay _ => by rw [score_zeros fun p => profile_silence hd htseq]; rfl,
    hlo] at hscan
  obtain ⟨hmax, hdelay⟩ := Prod.mk.inj hscan
  exact ⟨by exact_mod_cast hmax, hdelay⟩

theorem rms_silence (m : Nat) : rms (List.replicate m (0 : Sample)) = ⟨0⟩ := by simp [rms]

theorem slice_silence (L lo hi : Nat) : slice (List.replicate L (0 : Sample)) lo hi =
    List.replicate (min (hi - lo) (L - lo)) 0 := by
  simp [slice]

/-- Two silent powers are no 1 for the ML bit and unclear for the secure bit: -inf reaches no threshold. -/
theorem sliceSymbol_silence : sliceSymbol rationals d ⟨0⟩ ⟨0⟩ = ⟨0x30, 0x32, ⟨0⟩, ⟨0⟩⟩ := by
  have hsecure : secureBit rationals d ⟨0⟩ ⟨0⟩ = .unclear := by
    rw [Secure.eq_unclear_iff, ne_eq, ne_eq, secureBit_eq_one_iff, secureBit_eq_zero_iff]
    simp [Over.Amp.real, dBReal_zero]
  rw [sliceSymbol, hsecure, Over.Amp.max_eq, Over.Amp.min_eq, max_self, min_self]
  rfl

theorem demodulate_silence (L delay : Nat) :
    demodulate rationals d n (List.replicate L 0) delay = List.replicate n ⟨0x30, 0x32, ⟨0⟩, ⟨0⟩⟩ := by
  refine List.eq_replicate_iff.mpr ⟨demodulate_length, fun r hr => ?_⟩
  obtain ⟨i, -, rfl⟩ := List.mem_map.mp hr
  simp only [demodSymbol, firstPower, secondPower, slice_silence, rms_silence, sliceSymbol_silence]

end decode

/-! ## The obligation -/

/-- Settles O42: every correlation of silence is 0, so the searches answer their start values, which are in range, and
every symbol has two silent powers. -/
theorem silentBufferDecodes : Obligations.SilentBufferDecodes := by
  intro s chunk hinv hs hd hstate hlen hstop hover hthr hbuf N d
  have htaken := taken_of_inv hinv hs hd hstate hlen hstop
  have hgeo := hinv.geometry_of_session htaken.session
  have hcoarse := coarseSync_silence hgeo hthr
  rw [← hbuf] at hcoarse
  obtain ⟨hmax, harg⟩ : s.coarse.currentMax = 0 ∧ s.coarse.argmax = 0 := hcoarse
  have htseq : s.coarse.tseq = List.replicate d.accumulationBufferSize (-1) := by
    rw [Over.State.coarse, hbuf]
    exact thresholded_silence hthr _
  obtain ⟨hfine, hdelay⟩ := fineSync_silence (cfg := s.cfg) hgeo htseq harg
  have hin : s.coarse.outOfRange d = false := by
    rw [← Bool.not_eq_true, outOfRange_iff hgeo, harg]
    omega
  have hsyms : s.symbols = List.replicate N ⟨0x30, 0x32, ⟨0⟩, ⟨0⟩⟩ := by
    rw [Over.State.symbols, hbuf, demodulate_silence]
  have hstage := chunkStage_decodes hstate (hinv.spacesSound htaken.session) hover hin
  refine ⟨_, (exec_rxChunk_of_taken htaken).trans (congrArg (endStage []) hstage), rfl, ?events, ?registers⟩
  case events =>
    have hevent : decodedEvent s.decodedBuffer.slc = .decoded (s.symbols.map (·.ml)) (s.symbols.map (·.sec))
        (s.symbols.map (·.on)) (s.symbols.map (·.off)) := rfl
    simp only [hsyms, List.map_replicate] at hevent
    exact congrArg (fun e => s.io.evt ++ [levelEvent chunk s, e, .stopReq]) hevent
  case registers =>
    change (⟨s.coarse.argmax, s.coarse.currentMax, s.coarse.argmax + d.samplesPerDelimiter, s.fine.delay,
      s.fine.fineMax⟩ : SynRegs) = _
    rw [Over.State.fine, harg, hmax, hfine, hdelay, Nat.zero_add]

end Sys2Proof.Machine
end

section
/-! PROOFS. The batch filter's command and the two passes of a repetition (41_filterbank.md section 2, 42_modulator.md
section 3, R114, R115, R147). -/

namespace Sys2Proof.Machine

open Sys2Proof

/-! ## Two cascades in a row (R112) -/

/-- A cascade may be cut anywhere: the first sections take the whole buffer, the others take their result. -/
theorem cascadeRun_append_cascade {K : Type} [Field K] {cs : List (Over.Biquad K)} {sts : List (Over.SecState K)}
    (h : cs.length = sts.length) (ds : List (Over.Biquad K)) (us : List (Over.SecState K)) (xs : List K) :
    cascadeRun (cs ++ ds) (sts ++ us) xs =
      ((cascadeRun cs sts xs).1 ++ (cascadeRun ds us (cascadeRun cs sts xs).2).1,
        (cascadeRun ds us (cascadeRun cs sts xs).2).2) := by
  induction cs generalizing sts xs with
  | nil =>
    obtain rfl := List.length_eq_zero_iff.mp h.symm
    simp
  | cons c cs ih =>
    match sts, h with
    | st :: sts, h =>
      rw [List.cons_append, List.cons_append, cascadeRun_cons_section, cascadeRun_cons_section c cs,
        ih (Nat.succ.inj h), List.append_assoc]

/-! ## What BC.APPLY answers (R114, R115) -/

section commands
variable {i : Instr} {s : State}

theorem exec_bcApply_of_bad_payload (hi : i = .bcApplyS ∨ i = .bcApplyD) (hs : s.halted = false)
    (hd : ∀ xs, s.io.din ≠ [nums xs]) : exec i s = .next (s.answered 0x02 []) := by
  have hbatch : exec i s = batchApply s := by obtain rfl | rfl := hi <;> rfl
  rw [hbatch, batchApply, unlessHalted_of_running hs, oneNumFrame_eq_none hd]
  exact raise_refusal s rfl

theorem bcApply_eq_cascadeRun (cfg : Config) (xs : List Sample) :
    ((bcApply cfg xs).1.toList, (bcApply cfg xs).2) =
      cascadeRun cfg.bcCoef.toList (List.replicate 8 SecState.cleared) xs := by
  simp [bcApply, sectionsAfter]

end commands

/-! ## The obligations -/

/-- Settles O16: the command runs the cascade from cleared sections and keeps their last states. -/
theorem batchApplyFollowsItsRule : Obligations.BatchApplyFollowsItsRule := by
  refine fun i s hi => ⟨fun hs => exec_of_halted hs (by rintro rfl; simp at hi), exec_bcApply_of_bad_payload hi,
    fun xs hs hd => ⟨(bcApply s.cfg xs).1, (bcApply s.cfg xs).2, exec_bcApply_of_frame hi hs hd,
      bcApply_output_length s.cfg xs, bcApply_eq_cascadeRun s.cfg xs⟩⟩

/-- Settles O24: sixteen sections are the eight and the eight again, each from cleared states. -/
theorem twoPassesAreSixteenSections : Obligations.TwoPassesAreSixteenSections := by
  intro cfg buf
  have hlen : cfg.bcCoef.toList.length = (List.replicate 8 (SecState.cleared : SecState)).length := by simp
  have hsixteen : List.replicate 16 (SecState.cleared : SecState) =
      List.replicate 8 SecState.cleared ++ List.replicate 8 SecState.cleared := rfl
  rw [bandpassTwice, bcApply_output, bcApply_output, hsixteen, cascadeRun_append_cascade hlen]

end Sys2Proof.Machine
end

section
/-! PROOFS. The buffer of a repetition and its PCM frame (42_modulator.md sections 3 and 4, R143 to R151). -/

namespace Sys2Proof.Machine

open Sys2Proof

/-! ## Scaled draws (R144, R146) -/

section noise

theorem draw_taken {K : Type} [Inhabited K] (np : Over.NoisePort K) : np.draw.2.taken = np.taken + 1 := by
  unfold Over.NoisePort.draw
  split <;> rfl

variable {K : Type} [Field K] [Inhabited K] (gain : K)

theorem noiseBurst_output_length (k : Nat) (np : Over.NoisePort K) : (noiseBurst gain k np).1.length = k := by
  induction k generalizing np with
  | zero => rfl
  | succ k ih => simp [noiseBurst, ih]

theorem noiseBurst_taken (k : Nat) (np : Over.NoisePort K) : (noiseBurst gain k np).2.taken = np.taken + k := by
  induction k generalizing np with
  | zero => rfl
  | succ k ih =>
    simp only [noiseBurst, ih, draw_taken]
    omega

/-- Draws are taken one by one, so a burst may be cut anywhere. -/
theorem noiseBurst_add (k l : Nat) (np : Over.NoisePort K) :
    noiseBurst gain (k + l) np =
      ((noiseBurst gain k np).1 ++ (noiseBurst gain l (noiseBurst gain k np).2).1,
        (noiseBurst gain l (noiseBurst gain k np).2).2) := by
  induction k generalizing np with
  | zero => simp [noiseBurst]
  | succ k ih => simp [Nat.succ_add, noiseBurst, ih]

theorem noiseBurst_ready (draws rest : List K) (k : Nat) :
    noiseBurst gain draws.length ⟨draws ++ rest, k⟩ = (draws.map (gain * ·), ⟨rest, k + draws.length⟩) := by
  induction draws generalizing k with
  | nil => rfl
  | cons v draws ih =>
    simp only [List.length_cons, noiseBurst, List.cons_append, Over.NoisePort.draw, ih, List.map_cons]
    rw [Nat.add_assoc, Nat.add_comm 1]

/-! ## The slots of the buffer (R143, R144) -/

/-- The samples of one slot, with the NOISE port after its draws. -/
def slotBurst (sps : Nat) (b : Bool) (np : Over.NoisePort K) : List K × Over.NoisePort K :=
  if b then noiseBurst gain sps np else (List.replicate sps 0, np)

theorem slotBurst_length (sps : Nat) (b : Bool) (np : Over.NoisePort K) : (slotBurst gain sps b np).1.length = sps := by
  cases b
  · exact List.length_replicate
  · exact noiseBurst_output_length gain sps np

theorem fillSlots_cons (sps : Nat) (b : Bool) (ss : List Bool) (np : Over.NoisePort K) :
    fillSlots gain sps (b :: ss) np =
      ((slotBurst gain sps b np).1 ++ (fillSlots gain sps ss (slotBurst gain sps b np).2).1,
        (fillSlots gain sps ss (slotBurst gain sps b np).2).2) := by
  cases b <;> rfl

theorem fillSlots_length (sps : Nat) (ss : List Bool) (np : Over.NoisePort K) :
    (fillSlots gain sps ss np).1.length = ss.length * sps := by
  induction ss generalizing np with
  | nil => simp [fillSlots]
  | cons b ss ih =>
    rw [fillSlots_cons, List.length_append, slotBurst_length, ih, List.length_cons, Nat.succ_mul, Nat.add_comm]

theorem fillSlots_off (sps : Nat) (ss : List Bool) (np : Over.NoisePort K) {j k : Nat} (hj : ss[j]? = some false)
    (hk : k < sps) : (fillSlots gain sps ss np).1[j * sps + k]? = some 0 := by
  induction ss generalizing j np with
  | nil => cases hj
  | cons b ss ih =>
    rw [fillSlots_cons]
    have hlen := slotBurst_length gain sps b np
    cases j with
    | zero =>
      cases hj
      rw [Nat.zero_mul, Nat.zero_add, List.getElem?_append_left (hk.trans_eq hlen.symm)]
      exact List.getElem?_replicate_of_lt hk
    | succ j =>
      have hshift : (j + 1) * sps + k = sps + (j * sps + k) := by ring
      rw [hshift, List.getElem?_append_right (by omega), hlen, Nat.add_sub_cancel_left]
      exact ih _ hj

/-- Behind a first block, block `j + 1` is block `j` of the rest. -/
theorem slice_append_block {α : Type} {block : List α} {n : Nat} (h : block.length = n) (rest : List α) (j : Nat) :
    slice (block ++ rest) ((j + 1) * n) ((j + 1 + 1) * n) = slice rest (j * n) ((j + 1) * n) := by
  have hdrop : (j + 1) * n = block.length + j * n := by rw [h]; ring
  have hlen : (j + 1 + 1) * n - (j + 1) * n = (j + 1) * n - j * n := by
    rw [← Nat.sub_mul, ← Nat.sub_mul]
    congr 1
    omega
  rw [slice, slice, hlen, hdrop, List.drop_length_add_append]

/-- The samples of the on slots, slot by slot, are the scaled draws, and off slots take none. -/
theorem fillSlots_on (sps : Nat) (ss : List Bool) (np : Over.NoisePort K) :
    ((List.range ss.length).flatMap fun j =>
      if ss[j]? = some true then slice (fillSlots gain sps ss np).1 (j * sps) ((j + 1) * sps) else []) =
      (noiseBurst gain (ss.count true * sps) np).1 ∧
    (fillSlots gain sps ss np).2 = (noiseBurst gain (ss.count true * sps) np).2 := by
  induction ss generalizing np with
  | nil => simp [fillSlots, noiseBurst]
  | cons b ss ih =>
    obtain ⟨hon, hnoise⟩ := ih (slotBurst gain sps b np).2
    have hlen := slotBurst_length gain sps b np
    have hfirst : slice ((slotBurst gain sps b np).1 ++ (fillSlots gain sps ss (slotBurst gain sps b np).2).1) 0 sps =
        (slotBurst gain sps b np).1 := by
      rw [slice, List.drop_zero, Nat.sub_zero, List.take_left' hlen]
    simp only [fillSlots_cons, List.length_cons, List.range_succ_eq_map, List.flatMap_cons, List.flatMap_map,
      List.getElem?_cons_zero, List.getElem?_cons_succ, slice_append_block hlen, Nat.succ_eq_add_one, hon, hnoise,
      Nat.zero_mul, Nat.zero_add, Nat.one_mul, hfirst]
    cases b with
    | false => simp [slotBurst]
    | true =>
      have hcount : (true :: ss).count true * sps = sps + ss.count true * sps := by
        rw [List.count_cons_self]
        ring
      rw [hcount, noiseBurst_add]
      exact ⟨rfl, rfl⟩

end noise

/-! ## The edges and silence (R145, R151) -/

section edges

theorem zeroEdges_length {K : Type} [Field K] (w : Nat) (buf : List K) : (zeroEdges w buf).length = buf.length :=
  List.length_mapIdx

theorem zeroEdges_getElem? {K : Type} [Field K] (w : Nat) (buf : List K) {k : Nat} (hk : k < buf.length) :
    (zeroEdges w buf)[k]? = if k < w ∨ buf.length - w ≤ k then some 0 else buf[k]? := by
  rw [zeroEdges, List.getElem?_mapIdx, List.getElem?_eq_getElem hk, Option.map_some]
  split <;> rfl

theorem zeroEdges_take {w : Nat} {buf : List Sample} (hw : w ≤ buf.length) :
    (zeroEdges w buf).take w = List.replicate w 0 := by
  refine List.ext_getElem? fun k => ?_
  rcases lt_or_ge k w with hk | hk
  · rw [List.getElem?_take_of_lt hk, zeroEdges_getElem? w buf (hk.trans_le hw), if_pos (.inl hk),
      List.getElem?_replicate_of_lt hk]
  · simp [hk]

theorem zeroEdges_silence (w n : Nat) : zeroEdges w (List.replicate n (0 : Sample)) = List.replicate n 0 := by
  refine List.ext_getElem? fun k => ?_
  rcases lt_or_ge k n with hk | hk
  · rw [zeroEdges_getElem? w _ (by simpa using hk), List.getElem?_replicate_of_lt hk, ite_self]
  · simp [zeroEdges, hk]

/-- The filter is causal and answers silence with silence, so a silent beginning stays silent through both passes. -/
theorem bandpassTwice_take {cfg : Config} {w : Nat} {buf : List Sample} (h : buf.take w = List.replicate w 0) :
    (bandpassTwice cfg buf).2.take w = List.replicate w 0 := by
  rw [bandpassTwice, ← bcApply_causal, ← bcApply_causal, h, bcApply_silence, bcApply_silence]

theorem bandpassTwice_length (cfg : Config) (buf : List Sample) : (bandpassTwice cfg buf).2.length = buf.length := by
  rw [bandpassTwice, bcApply_output_length, bcApply_output_length]

theorem winLen_le (sps : Nat) : winLen sps ≤ sps := by
  have hfloor : (winLen sps : ℚ) ≤ sps / 10 := by simpa [← winLen_cast] using Int.floor_le (sps / 10 : ℚ)
  have hsps : (0 : ℚ) ≤ sps := Nat.cast_nonneg sps
  have hle : (winLen sps : ℚ) ≤ sps := by linarith
  exact_mod_cast hle

/-- Draws that are all 0 leave the buffer silent. -/
theorem fillSlots_silence (gain : Sample) (sps : Nat) (ss : List Bool) (rest : List Sample) (k : Nat) :
    (fillSlots gain sps ss ⟨List.replicate (ss.count true * sps) 0 ++ rest, k⟩).1 =
      List.replicate (ss.length * sps) 0 := by
  induction ss generalizing k with
  | nil => simp [fillSlots]
  | cons b ss ih =>
    rw [fillSlots_cons, List.length_cons, Nat.succ_mul, Nat.add_comm, ← List.replicate_append_replicate]
    cases b with
    | false =>
      rw [List.count_cons_of_ne (by decide)]
      exact congrArg (List.replicate sps 0 ++ ·) (ih k)
    | true =>
      have hready := noiseBurst_ready gain (List.replicate sps 0) (List.replicate (ss.count true * sps) 0 ++ rest) k
      rw [List.length_replicate, ← List.append_assoc, List.replicate_append_replicate, List.map_replicate,
        mul_zero] at hready
      rw [List.count_cons_self, Nat.succ_mul, Nat.add_comm (_ * sps), slotBurst, if_pos rfl, hready, ih]

end edges

/-! ## PCM conversion (R148) -/

section pcm

theorem truncate_of_nonneg {x : Sample} (h : 0 ≤ x) : (truncate x : ℚ) ≤ x ∧ x < truncate x + 1 := by
  rw [truncate, if_pos h]
  exact ⟨Int.floor_le x, Int.lt_floor_add_one x⟩

theorem truncate_of_neg {x : Sample} (h : x < 0) : x ≤ truncate x ∧ (truncate x : ℚ) - 1 < x := by
  rw [truncate, if_neg h.not_ge]
  have := Int.ceil_lt_add_one x
  exact ⟨Int.le_ceil x, by linarith⟩

/-- A wrapped value lies in the two's-complement range of `bits` bits and differs from the value by a multiple of
`2 ^ bits`. -/
theorem wrapPcm_range {bits : Nat} (hbits : 1 ≤ bits) (t : Int) :
    -(2 ^ (bits - 1)) ≤ wrapPcm bits t ∧ wrapPcm bits t ≤ 2 ^ (bits - 1) - 1 ∧
      (2 ^ bits : Int) ∣ wrapPcm bits t - t := by
  obtain ⟨b, rfl⟩ := Nat.exists_eq_add_of_le' hbits
  have hpow : (2 : Int) ^ (b + 1) = 2 * 2 ^ b := pow_succ' 2 b
  have hpos : (0 : Int) < 2 ^ b := by positivity
  have hnonneg := Int.emod_nonneg t (show (2 : Int) ^ (b + 1) ≠ 0 by positivity)
  have hlt := Int.emod_lt_of_pos t (show (0 : Int) < 2 ^ (b + 1) by positivity)
  have hdvd : (2 ^ (b + 1) : Int) ∣ t % 2 ^ (b + 1) - t := by
    rw [← Int.neg_sub, Int.dvd_neg]
    exact Int.dvd_self_sub_emod
  rw [wrapPcm, Nat.add_sub_cancel]
  split
  · refine ⟨by omega, by omega, ?_⟩
    have hsub : t % 2 ^ (b + 1) - 2 ^ (b + 1) - t = t % 2 ^ (b + 1) - t - 2 ^ (b + 1) := by ring
    rw [hsub]
    exact Int.dvd_sub hdvd (Int.dvd_refl _)
  · exact ⟨by omega, by omega, hdvd⟩

/-- The conversion falls outside `2^31`, so that its value is free (R148). -/
def escapes (cfg : Config) (v : Sample) : Bool := decide (2 ^ 31 ≤ |truncate (v * cfg.pcmScale)|)

variable {cfg : Config} {v : Sample}

theorem toPcm_of_escapes (h : escapes cfg v = true) (k : Nat) :
    toPcm cfg v k = (wrapPcm cfg.pcmBits (Config.freePcm k), k + 1) := if_pos (of_decide_eq_true h)

theorem toPcm_of_not_escapes (h : escapes cfg v = false) (k : Nat) :
    toPcm cfg v k = (wrapPcm cfg.pcmBits (truncate (v * cfg.pcmScale)), k) := if_neg (of_decide_eq_false h)

theorem toPcm_range (hbits : 1 ≤ cfg.pcmBits) (k : Nat) :
    -(2 ^ (cfg.pcmBits - 1)) ≤ (toPcm cfg v k).1 ∧ (toPcm cfg v k).1 ≤ 2 ^ (cfg.pcmBits - 1) - 1 := by
  cases h : escapes cfg v
  · rw [toPcm_of_not_escapes h]
    obtain ⟨hlo, hhi, -⟩ := wrapPcm_range hbits (truncate (v * cfg.pcmScale))
    exact ⟨hlo, hhi⟩
  · rw [toPcm_of_escapes h]
    obtain ⟨hlo, hhi, -⟩ := wrapPcm_range hbits (Config.freePcm k)
    exact ⟨hlo, hhi⟩

theorem toPcm_escapes (cfg : Config) (v : Sample) (k : Nat) :
    (toPcm cfg v k).2 = k + if escapes cfg v then 1 else 0 := by
  cases h : escapes cfg v
  · rw [toPcm_of_not_escapes h]
    rfl
  · rw [toPcm_of_escapes h]
    rfl

theorem pcmFrame_cons (cfg : Config) (x : Sample) (buf : List Sample) (n : Nat) :
    pcmFrame cfg (x :: buf) n =
      ((toPcm cfg x n).1 :: (pcmFrame cfg buf (toPcm cfg x n).2).1, (pcmFrame cfg buf (toPcm cfg x n).2).2) := rfl

theorem pcmFrame_length (cfg : Config) (buf : List Sample) (k : Nat) : (pcmFrame cfg buf k).1.length = buf.length := by
  induction buf generalizing k with
  | nil => rfl
  | cons v buf ih => simp [pcmFrame, ih]

theorem pcmFrame_getElem? (cfg : Config) (buf : List Sample) (n : Nat) {k : Nat} (hv : buf[k]? = some v) :
    (pcmFrame cfg buf n).1[k]? = some (toPcm cfg v (n + (buf.take k).countP (escapes cfg))).1 := by
  induction buf generalizing n k with
  | nil => cases hv
  | cons x buf ih =>
    cases k with
    | zero =>
      cases hv
      rfl
    | succ k =>
      rw [pcmFrame_cons, List.getElem?_cons_succ, ih _ hv, toPcm_escapes, List.take_succ_cons, List.countP_cons,
        Nat.add_assoc, Nat.add_comm (ite _ _ _)]

theorem pcmFrame_escapes (cfg : Config) (buf : List Sample) (n : Nat) :
    (pcmFrame cfg buf n).2 = n + buf.countP (escapes cfg) := by
  induction buf generalizing n with
  | nil => rfl
  | cons x buf ih =>
    rw [pcmFrame_cons, ih, toPcm_escapes, List.countP_cons, Nat.add_assoc, Nat.add_comm (ite _ _ _)]

theorem mem_pcmFrame {buf : List Sample} {n : Nat} {x : Int} (hx : x ∈ (pcmFrame cfg buf n).1) :
    ∃ v k, x = (toPcm cfg v k).1 := by
  obtain ⟨k, hk⟩ := List.mem_iff_getElem?.mp hx
  have hlt : k < buf.length := by
    rw [← pcmFrame_length cfg buf n]
    exact (List.getElem?_eq_some_iff.mp hk).1
  rw [pcmFrame_getElem? cfg buf n (List.getElem?_eq_getElem hlt)] at hk
  cases hk
  exact ⟨_, _, rfl⟩

theorem toPcm_zero (cfg : Config) (k : Nat) : toPcm cfg 0 k = (0, k) := by
  have hzero : truncate (0 * cfg.pcmScale : Sample) = 0 := by simp [truncate]
  have hin : escapes cfg 0 = false := by
    rw [escapes, hzero]
    decide
  rw [toPcm_of_not_escapes hin, hzero, wrapPcm]
  simp

theorem pcmFrame_silence (cfg : Config) (m k : Nat) : (pcmFrame cfg (List.replicate m 0) k).1 = List.replicate m 0 := by
  induction m generalizing k with
  | zero => rfl
  | succ m ih => rw [List.replicate_succ, List.replicate_succ, pcmFrame, toPcm_zero]; exact congrArg _ (ih k)

end pcm

/-! ## A whole repetition (R151) -/

section repetition
variable {s : State}

/-- Where TX.REP repeats, its frame is the conversion of the filtered buffer. -/
theorem txRep_true_eq_repetition (hs : s.halted = false) (hrunning : s.tx.state = .running)
    (hstop : s.tx.stop = false) : txRep true s = repetition s :=
  txRep_of_no_stop (repEnabled_iff.mpr ⟨hs, hrunning, .inr rfl⟩) hstop

theorem slots_length (bits : List Bool) : (slots bits).length = 6 + 2 * bits.length := by
  rw [slots_eq_delimiter_append_pairs, List.length_append, flatMap_slotPair_length]
  rfl

theorem slots_count (bits : List Bool) : (slots bits).count true = 3 + bits.length := by
  rw [slots_eq_delimiter_append_pairs, List.count_append, flatMap_slotPair_count]
  rfl

theorem burstBuffer_length (s : State) :
    (burstBuffer s).1.length = (6 + 2 * s.tx.bits.length) * s.param.d.samplesPerSlot := by
  rw [burstBuffer, zeroEdges_length, fillSlots_length, slots_length]

theorem burstBuffer_taken (s : State) :
    (burstBuffer s).2.taken = s.env.noise.taken + (3 + s.tx.bits.length) * s.param.d.samplesPerSlot := by
  rw [burstBuffer, (fillSlots_on _ _ _ _).2, noiseBurst_taken, slots_count]

theorem burstBuffer_silence {rest : List Sample}
    (h : s.env.noise.pending = List.replicate ((3 + s.tx.bits.length) * s.param.d.samplesPerSlot) 0 ++ rest) :
    (burstBuffer s).1 = List.replicate ((6 + 2 * s.tx.bits.length) * s.param.d.samplesPerSlot) 0 := by
  have hnoise : s.env.noise = ⟨List.replicate ((slots s.tx.bits).count true * s.param.d.samplesPerSlot) 0 ++ rest,
      s.env.noise.taken⟩ := by rw [slots_count, ← h]
  rw [burstBuffer, hnoise, fillSlots_silence, zeroEdges_silence, slots_length]

/-- The window is no longer than a slot, so it lies inside the buffer. -/
theorem burstBuffer_take (s : State) :
    (burstBuffer s).1.take (winLen s.param.d.samplesPerSlot) = List.replicate (winLen s.param.d.samplesPerSlot) 0 := by
  refine zeroEdges_take ?_
  rw [fillSlots_length, slots_length]
  calc winLen s.param.d.samplesPerSlot
      ≤ s.param.d.samplesPerSlot := winLen_le _
    _ ≤ (6 + 2 * s.tx.bits.length) * s.param.d.samplesPerSlot := Nat.le_mul_of_pos_left _ (by omega)

end repetition

/-! ## The obligations -/

/-- Settles O23: by induction on the slots, and on the draws that stand ready. -/
theorem noiseFillsOnSlots : Obligations.NoiseFillsOnSlots := by
  refine ⟨fun gain sps ss np => ⟨fillSlots_length gain sps ss np, fun j k => fillSlots_off gain sps ss np, ?_⟩,
    noiseBurst_ready, fun w buf => ⟨zeroEdges_length w buf, fun k => zeroEdges_getElem? w buf⟩⟩
  exact fillSlots_on gain sps ss np

/-- Settles O25: the frame by induction on the buffer; a conversion wraps the truncated value or a free one. -/
theorem pcmWrapsNotClamps : Obligations.PcmWrapsNotClamps := by
  refine ⟨fun cfg buf n => ⟨pcmFrame_length cfg buf n, fun k v => pcmFrame_getElem? cfg buf n,
    pcmFrame_escapes cfg buf n⟩, fun cfg v k hbits => ?_⟩
  intro x t out
  obtain ⟨hlo, hhi⟩ := toPcm_range (cfg := cfg) (v := v) hbits k
  refine ⟨truncate_of_nonneg, truncate_of_neg, hlo, hhi, fun hin => ?inside, fun hout => ?outside⟩
  case inside =>
    have hconv := toPcm_of_not_escapes (cfg := cfg) (v := v) (decide_eq_false hin.not_ge) k
    obtain ⟨-, -, hdvd⟩ := wrapPcm_range hbits t
    exact ⟨by rwa [show out = wrapPcm cfg.pcmBits t from congrArg Prod.fst hconv], congrArg Prod.snd hconv⟩
  case outside => exact congrArg Prod.snd (toPcm_of_escapes (cfg := cfg) (v := v) (decide_eq_true hout) k)

/-- Settles O27: a running modulator has one bit per symbol, so the slots are `6 + 2N`, of which `3 + N` draw. -/
theorem repetitionFrameSize : Obligations.RepetitionFrameSize := by
  intro s hinv hs hrunning hstop hbits
  obtain ⟨hv, hlen⟩ := hinv.transmit hrunning
  have hd := hinv.geometry hv
  rw [txRep_true_eq_repetition hs hrunning hstop, ← hlen]
  have hframe : (pcmFrame s.cfg (bandpassTwice s.cfg (burstBuffer s).1).2 s.env.escapes).1.length =
      (6 + 2 * s.tx.bits.length) * s.param.d.samplesPerSlot := by
    rw [pcmFrame_length, bandpassTwice_length, burstBuffer_length]
  refine ⟨_, rfl, hframe, ?half, fun v hv => ?range, burstBuffer_taken s⟩
  case half =>
    rw [hframe, hd.buffer, hd.delimiter, hd.frame, hd.symbol, hlen]
    ring
  case range =>
    obtain ⟨x, k, rfl⟩ := mem_pcmFrame hv
    exact toPcm_range hbits k

/-- Settles O28: silence passes through every stage, and the zeroed window through the two causal passes. -/
theorem repetitionSilence : Obligations.RepetitionSilence := by
  refine ⟨fun s rest hinv hs hrunning hstop hdraws => ?silence, fun s hs hrunning hstop k hk => ?window⟩ <;>
    rw [txRep_true_eq_repetition hs hrunning hstop]
  case silence =>
    obtain ⟨-, hlen⟩ := hinv.transmit hrunning
    rw [← hlen] at hdraws ⊢
    rw [repetition, burstBuffer_silence hdraws, bandpassTwice, bcApply_silence, bcApply_silence, pcmFrame_silence]
  case window =>
    have htake := bandpassTwice_take (cfg := s.cfg) (burstBuffer_take s)
    have hget := congrArg (·[k]?) htake
    rw [List.getElem?_take_of_lt hk, List.getElem?_replicate_of_lt hk] at hget
    exact hget

end Sys2Proof.Machine
end

section
/-! PROOFS. The two measurement windows of a symbol and the round trip of a noiseless frame (44_slicer.md, R210 to
R219). -/

namespace Sys2Proof.Machine

open Sys2Proof

/-! ## Windows (R211) -/

section windows
variable {buf : List Sample}

/-- A window inside the buffer, sample by sample. -/
theorem slice_eq_map_getD {lo w : Nat} (h : lo + w ≤ buf.length) :
    slice buf lo (lo + w) = (List.range w).map fun k => buf.getD (lo + k) 0 := by
  rw [slice, Nat.add_sub_cancel_left]
  refine List.ext_getElem (by simp; omega) fun k hk hk' => ?_
  simp only [List.length_map, List.length_range] at hk'
  simp [show lo + k < buf.length by omega]

/-- The RMS of samples of one magnitude is that magnitude. -/
theorem rms_of_magnitude {xs : List Sample} {A : Sample} (hne : xs ≠ []) (h : ∀ x ∈ xs, |x| = A) :
    rms xs = Amp.ofLinear A := by
  have hsq : xs.map (fun x => x * x) = List.replicate xs.length (A * A) := by
    refine List.eq_replicate_iff.mpr ⟨List.length_map _, fun y hy => ?_⟩
    obtain ⟨x, hx, rfl⟩ := List.mem_map.mp hy
    rw [← h x hx, abs_mul_abs_self]
  have hlen : (xs.length : Sample) ≠ 0 := by simpa using hne
  rw [rms, hsq, List.sum_replicate, nsmul_eq_mul, mul_div_cancel_left₀ _ hlen]
  rfl

end windows

/-! ## Symbols -/

section symbols
variable {d : DerivedRegs} {n : Nat} {buf : List Sample}

/-- The samples of one window: a slot without its two skips (R211). -/
def windowLength (sps : Nat) : Nat := sps - skipBefore sps - skipAfter sps

/-- A window together with its skips is a slot, and it is never empty (R96). -/
theorem windowLength_eq (hd : Geometry d n) :
    1 ≤ windowLength d.samplesPerSlot ∧
      skipBefore d.samplesPerSlot + windowLength d.samplesPerSlot + skipAfter d.samplesPerSlot = d.samplesPerSlot := by
  have h := skips_lt_slot d.samplesPerSlot hd.slot
  rw [windowLength]
  omega

/-- Symbol `i` of a frame ends inside it. -/
theorem symbol_end_le (hd : Geometry d n) {i : Nat} (hi : i < n) :
    i * d.samplesPerSymbol + d.samplesPerSymbol ≤ d.samplesPerFrame := by
  rw [hd.frame, Nat.mul_comm d.samplesPerSymbol, ← Nat.succ_mul]
  exact Nat.mul_le_mul_right _ hi

theorem firstPower_eq (hd : Geometry d n) (start : Nat) :
    firstPower d buf start = rms (slice buf (start + skipBefore d.samplesPerSlot)
      (start + skipBefore d.samplesPerSlot + windowLength d.samplesPerSlot)) := by
  obtain ⟨-, hslot⟩ := windowLength_eq hd
  rw [firstPower]
  congr 2
  omega

theorem secondPower_eq (hd : Geometry d n) (start : Nat) :
    secondPower d buf start = rms (slice buf (start + d.samplesPerSlot + skipBefore d.samplesPerSlot)
      (start + d.samplesPerSlot + skipBefore d.samplesPerSlot + windowLength d.samplesPerSlot)) := by
  obtain ⟨-, hslot⟩ := windowLength_eq hd
  have hsym := hd.symbol
  rw [secondPower]
  congr 2
  omega

theorem demodulate_getElem? (d : DerivedRegs) (buf : List Sample) (delay : Nat) {i : Nat} (hi : i < n) :
    (demodulate rationals d n buf delay)[i]? =
      some (sliceSymbol rationals d (firstPower d buf (delay + i * d.samplesPerSymbol))
        (secondPower d buf (delay + i * d.samplesPerSymbol))) := by
  simp [demodulate, demodSymbol, hi]

end symbols

/-! ## The record of a noiseless symbol (R213, R214, R219) -/

section noiseless
variable {d : DerivedRegs} {A a : Sample}

theorem sliceSymbol_of_decisions {first second : Amp} {m : Bool} {q : Secure} (hml : mlBit first second = m)
    (hsec : secureBit rationals d first second = q) :
    sliceSymbol rationals d first second =
      ⟨chr (bitNat m), chr q.toNat, ⟨max first.ms second.ms⟩, ⟨min first.ms second.ms⟩⟩ := by
  rw [sliceSymbol, hml, hsec, Over.Amp.max_eq, Over.Amp.min_eq]

/-- Powers on both sides of the threshold decide the symbol, whichever slot is on. -/
theorem sliceSymbol_noiseless (hT : d.thresholdHigh = d.thresholdLow) (ha : 0 ≤ a) (hlt : a < A)
    (hon : ((d.thresholdHigh : ℝ) : WithBot ℝ) ≤ dBReal A) (hoff : dBReal a ≤ ((d.thresholdLow : ℝ) : WithBot ℝ))
    (b : Bool) :
    sliceSymbol rationals d (Amp.ofLinear (if b then A else a)) (Amp.ofLinear (if b then a else A)) =
      { ml := if b then 0x31 else 0x30
        sec := if b then 0x31 else 0x30
        on := ⟨A * A⟩
        off := ⟨a * a⟩ } := by
  have hA : 0 ≤ A := ha.trans hlt.le
  have hsq : (Amp.ofLinear a).ms < (Amp.ofLinear A).ms := mul_self_lt_mul_self ha hlt
  have hdB : dBReal a < dBReal A :=
    dBReal_strictMonoOn (show (0 : ℝ) ≤ a by exact_mod_cast ha) (show (0 : ℝ) ≤ A by exact_mod_cast hA)
      (by exact_mod_cast hlt)
  cases b with
  | true =>
    have hsec : secureBit rationals d (Amp.ofLinear A) (Amp.ofLinear a) = .one := by
      rw [secureBit_eq_one_iff, ofLinear_real ha, ofLinear_real hA]
      exact ⟨hon, hoff⟩
    refine (sliceSymbol_of_decisions (decide_eq_true hsq) hsec).trans ?_
    rw [max_eq_left hsq.le, min_eq_right hsq.le]
    rfl
  | false =>
    have hsec : secureBit rationals d (Amp.ofLinear a) (Amp.ofLinear A) = .zero := by
      rw [secureBit_eq_zero_iff, ofLinear_real ha, ofLinear_real hA]
      refine ⟨fun ⟨hge, hle⟩ => ?_, hoff, hon⟩
      rw [hT] at hge
      exact absurd (hle.trans hge) hdB.not_ge
    refine (sliceSymbol_of_decisions (decide_eq_false hsq.not_gt) hsec).trans ?_
    rw [max_eq_right hsq.le, min_eq_left hsq.le]
    rfl

/-- A window of `buf` all of whose samples have magnitude `B` measures `B`. -/
theorem rms_slice_of_magnitude {buf : List Sample} {B : Sample} {lo w : Nat} (hw : 1 ≤ w) (hbuf : lo + w ≤ buf.length)
    (h : ∀ p, lo ≤ p → p < lo + w → ∃ x, buf[p]? = some x ∧ |x| = B) :
    rms (slice buf lo (lo + w)) = Amp.ofLinear B := by
  have hlen := slice_length buf lo (lo + w) hbuf
  refine rms_of_magnitude (List.ne_nil_of_length_pos (by omega)) fun x hx => ?_
  rw [slice_eq_map_getD hbuf] at hx
  obtain ⟨k, hk, rfl⟩ := List.mem_map.mp hx
  rw [List.mem_range] at hk
  obtain ⟨y, hy, hB⟩ := h (lo + k) (by omega) (by omega)
  rwa [List.getD_eq_getElem?_getD, hy]

/-- A window inside one half of a noiseless symbol measures the magnitude of that half. -/
theorem rms_half_window {buf : List Sample} {base sps sym lo w : Nat} {b firstHalf : Bool} {A a : Sample}
    (hsamples : ∀ k, k < sym → ∃ x, buf[base + k]? = some x ∧ |x| = if (decide (k < sps)) = b then A else a)
    (hw : 1 ≤ w) (hsym : sps ≤ sym) (hlo : base + (if firstHalf then 0 else sps) ≤ lo)
    (hhi : lo + w ≤ base + if firstHalf then sps else sym) (hbuf : base + sym ≤ buf.length) :
    rms (slice buf lo (lo + w)) = Amp.ofLinear (if firstHalf = b then A else a) := by
  have hend : lo + w ≤ base + sym := by split at hhi <;> omega
  refine rms_slice_of_magnitude hw (hend.trans hbuf) fun p hp hp' => ?_
  obtain ⟨k, rfl⟩ : ∃ k, p = base + k := Nat.exists_eq_add_of_le (by omega)
  have hhalf : decide (k < sps) = firstHalf := by
    cases firstHalf
    · exact decide_eq_false (by simp at hlo; omega)
    · exact decide_eq_true (by simp at hhi; omega)
  have hk := hsamples k (by omega)
  rwa [hhalf] at hk

end noiseless

/-! ## The obligation -/

/-- Settles O46: the slices of the model are the two windows; a delay within the tolerance keeps each window inside
its slot, where all samples have one magnitude. -/
theorem noiselessFrameRoundTrips : Obligations.NoiselessFrameRoundTrips := by
  refine ⟨fun d n buf delay hsound hbuf => ⟨demodulate_length, fun i hi => ?windows⟩,
    fun d bits buf start delay A a hsound hT ha hlt hon hoff hbuf hsamples hlate hearly => ?roundTrip⟩
  case windows =>
    intro sps start w first second
    have hd := sound_iff.mp hsound
    obtain ⟨hw, hslot⟩ := windowLength_eq hd
    have hsym := hd.symbol
    have hend : start + d.samplesPerSymbol ≤ buf.length := by
      have := symbol_end_le hd hi
      omega
    have hfirst : firstPower d buf start = first :=
      (firstPower_eq hd start).trans (congrArg rms (slice_eq_map_getD (by omega)))
    have hsecond : secondPower d buf start = second :=
      (secondPower_eq hd start).trans (congrArg rms (slice_eq_map_getD (by omega)))
    refine ⟨hw, ?_, hend, ?_⟩
    · change start + d.samplesPerSlot + skipBefore d.samplesPerSlot + windowLength d.samplesPerSlot +
        skipAfter d.samplesPerSlot = _
      omega
    · rw [demodulate_getElem? d buf delay hi, hfirst, hsecond, sliceSymbol_of_decisions rfl rfl, chr_bitNat]
      cases secureBit rationals d first second <;> rfl
  case roundTrip =>
    have hd := sound_iff.mp hsound
    obtain ⟨hw, hslot⟩ := windowLength_eq hd
    have hsym := hd.symbol
    refine List.ext_getElem? fun i => ?_
    rcases lt_or_ge i bits.length with hi | hi
    · have hend := symbol_end_le hd hi
      have hb : bits[i]? = some bits[i] := List.getElem?_eq_getElem hi
      have hhalf := fun k => hsamples i k bits[i] hb
      have hfirst : firstPower d buf (delay + i * d.samplesPerSymbol) =
          Amp.ofLinear (if bits[i] then A else a) := by
        rw [firstPower_eq hd, rms_half_window (firstHalf := true) hhalf hw (by omega) (by simp; omega) (by simp; omega)
          (by omega)]
        simp only [eq_comm (a := true)]
      have hsecond : secondPower d buf (delay + i * d.samplesPerSymbol) =
          Amp.ofLinear (if bits[i] then a else A) := by
        rw [secondPower_eq hd, rms_half_window (firstHalf := false) hhalf hw (by omega) (by simp; omega)
          (by simp; omega) (by omega)]
        cases bits[i] <;> rfl
      rw [demodulate_getElem? d buf delay hi, hfirst, hsecond, sliceSymbol_noiseless hT ha hlt hon hoff,
        List.getElem?_map, hb, Option.map_some]
    · rw [List.getElem?_eq_none (by rwa [demodulate_length]), List.getElem?_eq_none (by rwa [List.length_map])]

end Sys2Proof.Machine
end

section
/-! PROOFS. The seven statistics (45_slotstats.md sections 1 and 2, R230 to R237), and the payload that a
command without payload refuses (30_encoding.md section 5, R63, R68). -/

namespace Sys2Proof.Machine

open Sys2Proof

/-! ## What the statistics answer (R230) -/

section commands
variable {i : Instr} {s : State} {f : List Amp → List Amp → Level}

theorem statistic_of_no_store (hs : s.halted = false) (hd : s.io.din = []) (hv : s.slc.valid = false) :
    statistic f s = .next (s.answered 0x03 []) := by
  rw [statistic, unlessHalted_of_running hs, unlessPayload_of_none hd, hv]
  exact raise_refusal s rfl

theorem statistic_of_store (hs : s.halted = false) (hd : s.io.din = []) (hv : s.slc.valid = true)
    (hon : s.slc.onPowers ≠ []) (hoff : s.slc.offPowers ≠ []) :
    statistic f s = .next (s.answered 0 [[.num (.level (f s.slc.onPowers s.slc.offPowers))]]) := by
  rw [statistic, unlessHalted_of_running hs, unlessPayload_of_none hd, hv, if_neg (by decide),
    if_neg (not_or.mpr ⟨hon, hoff⟩)]
  rfl

/-- Each of the seven is the prologue with its own aggregate. -/
theorem exists_statistic (hi : i ∈ [Instr.statOnavg, .statOnmin, .statOnmax, .statOffavg, .statOffmin, .statOffmax,
    .statTotal]) (s : State) : ∃ f, exec i s = statistic f s := by
  fin_cases hi <;> exact ⟨fun _ _ => _, rfl⟩

end commands

/-! ## Extremes (R232, R233, R235, R236) -/

section extremes

/-- Folding a choice between two elements gives an element that stands in the chosen order to all of them. -/
theorem foldl_choice {α : Type} {op : α → α → α} {r : α → α → Prop} (hrefl : ∀ a, r a a)
    (htrans : ∀ {a b c}, r a b → r b c → r a c) (hop : ∀ a b, (op a b = a ∨ op a b = b) ∧ r (op a b) a ∧ r (op a b) b)
    (a : α) (as : List α) : as.foldl op a ∈ a :: as ∧ ∀ b ∈ a :: as, r (as.foldl op a) b := by
  induction as generalizing a with
  | nil => exact ⟨List.mem_singleton_self a, fun b hb => List.mem_singleton.mp hb ▸ hrefl a⟩
  | cons x as ih =>
    obtain ⟨hmem, hall⟩ := ih (op a x)
    obtain ⟨hchoice, hra, hrx⟩ := hop a x
    obtain ⟨hhead, htail⟩ := List.forall_mem_cons.mp hall
    refine ⟨?_, List.forall_mem_cons.mpr ⟨htrans hhead hra, List.forall_mem_cons.mpr ⟨htrans hhead hrx, htail⟩⟩⟩
    rw [List.foldl_cons]
    rcases List.mem_cons.mp hmem with h | h
    · rw [h]
      rcases hchoice with h | h <;> rw [h] <;> simp
    · simp [h]

theorem Over.Amp.real_mono {a b : Over.Amp Sample} (h : a.ms ≤ b.ms) : a.real ≤ b.real :=
  Real.sqrt_le_sqrt (by exact_mod_cast h)

theorem minAmp_least {as : List Amp} (hne : as ≠ []) : minAmp as ∈ as ∧ ∀ b ∈ as, (minAmp as).real ≤ b.real := by
  match as, hne with
  | a :: as, _ =>
    refine foldl_choice (r := fun x y : Amp => x.real ≤ y.real) (fun _ => le_rfl) (fun h => h.trans)
      (fun a b => ?_) a as
    rw [Over.Amp.min]
    split
    · next h => exact ⟨.inl rfl, le_rfl, Over.Amp.real_mono h.le⟩
    · next h => exact ⟨.inr rfl, Over.Amp.real_mono (not_lt.mp h), le_rfl⟩

theorem maxAmp_greatest {as : List Amp} (hne : as ≠ []) : maxAmp as ∈ as ∧ ∀ b ∈ as, b.real ≤ (maxAmp as).real := by
  match as, hne with
  | a :: as, _ =>
    refine foldl_choice (r := fun x y : Amp => y.real ≤ x.real) (fun _ => le_rfl) (fun h h' => h'.trans h)
      (fun a b => ?_) a as
    rw [Over.Amp.max]
    split
    · next h => exact ⟨.inr rfl, Over.Amp.real_mono h.le, le_rfl⟩
    · next h => exact ⟨.inl rfl, le_rfl, Over.Amp.real_mono (not_lt.mp h)⟩

end extremes

/-! ## Averages (R231, R234, R237) -/

section averages

theorem ratRoot_eq_some {x r : Sample} (h : ratRoot x = some r) : r * r = x ∧ 0 ≤ r := by
  rw [ratRoot] at h
  split at h
  · next hsq =>
    cases h
    exact ⟨hsq, Rat.sqrt_nonneg x⟩
  · cases h

theorem rootSum_cons (q : Sample) (rs : List Sample) : rootSum (q :: rs) = Real.sqrt q + rootSum rs := by
  simp [rootSum]

theorem rootSum_append (qs rs : List Sample) : rootSum (qs ++ rs) = rootSum qs + rootSum rs := by
  simp [rootSum]

theorem rootSum_perm {qs rs : List Sample} (h : qs.Perm rs) : rootSum qs = rootSum rs := (h.map _).sum_eq

/-- Two roots of one class add up to the root they are merged into. -/
theorem sqrt_mergeRoots {q r : Sample} (hq : 0 < q) (h : sameClass rationals q r = true) :
    Real.sqrt (mergeRoots rationals q r : Sample) = Real.sqrt q + Real.sqrt r := by
  obtain ⟨ρ, hρ⟩ := Option.isSome_iff_exists.mp h
  obtain ⟨hsq, hnonneg⟩ := ratRoot_eq_some hρ
  have hr : r = q * (ρ * ρ) := by rw [hsq, mul_div_cancel₀ _ hq.ne']
  have hρ' : (0 : ℝ) ≤ ρ := by exact_mod_cast hnonneg
  have hq' : (0 : ℝ) ≤ q := by exact_mod_cast hq.le
  rw [mergeRoots, hρ, hr]
  push_cast
  rw [Real.sqrt_mul hq', Real.sqrt_mul hq', Real.sqrt_mul_self (by positivity), Real.sqrt_mul_self hρ']
  simp
  ring

/-- Adding a root adds its value, merged or not. -/
theorem rootSum_addRoot {q : Sample} (hq : 0 ≤ q) (rs : List Sample) :
    rootSum (addRoot rationals q rs) = Real.sqrt q + rootSum rs := by
  rw [addRoot]
  split
  · next hzero => simp [hzero]
  · next hne =>
    have hpos : 0 < q := lt_of_le_of_ne hq (Ne.symm hne)
    split
    · next r hr =>
      have hclass := List.find?_some hr
      rw [rootSum_perm (List.perm_orderedInsert _ _ _), rootSum_cons, sqrt_mergeRoots hpos hclass,
        rootSum_perm (List.perm_cons_erase (List.mem_of_find?_eq_some hr)), rootSum_cons, add_assoc]
    · rw [rootSum_perm (List.perm_orderedInsert _ _ _), rootSum_cons]

theorem rootSum_sumRoots {qs : List Sample} (h : ∀ q ∈ qs, 0 ≤ q) : rootSum (sumRoots rationals qs) = rootSum qs := by
  have hfold : ∀ acc, rootSum (qs.foldl (fun acc q => addRoot rationals q acc) acc) = rootSum acc + rootSum qs := by
    induction qs with
    | nil => simp [rootSum]
    | cons q qs ih =>
      intro acc
      obtain ⟨hq, hqs⟩ := List.forall_mem_cons.mp h
      rw [List.foldl_cons, ih hqs, rootSum_addRoot hq, rootSum_cons]
      ring
  rw [sumRoots, hfold]
  simp [rootSum]

/-- The level of a sum of roots is the level of its value. -/
theorem dbOfRoots_real (rs : List Sample) : (dbOfRoots rs).real = dBReal (rootSum rs) := by
  match rs with
  | [] => simp [dbOfRoots, Over.Level.real, rootSum, dBReal_zero]
  | [q] => simp [dbOfRoots, Over.Level.real, rootSum]
  | _ :: _ :: _ => rfl

theorem rootSum_avgTerms (as : List Amp) : rootSum (avgTerms as) = meanReal as := by
  have hterm : ∀ a : Amp, Real.sqrt ((a.ms / ((as.length : Sample) * (as.length : Sample)) : Sample) : ℝ) =
      a.real / as.length := by
    intro a
    push_cast
    rw [Real.sqrt_div' _ (by positivity), Real.sqrt_mul_self (by positivity), Over.Amp.real]
  simp only [rootSum, avgTerms, List.map_map, Function.comp_def, hterm, meanReal]
  simp only [div_eq_mul_inv, List.sum_map_mul_right]

theorem avgTerms_nonneg {as : List Amp} (h : ∀ a ∈ as, 0 ≤ a.ms) : ∀ q ∈ avgTerms as, 0 ≤ q :=
  List.forall_mem_map.mpr fun a ha => div_nonneg (h a ha) (by positivity)

/-- A quarter of each mean square is half of each root. -/
theorem rootSum_quarters (qs : List Sample) : rootSum (qs.map fun q => q / 4) = rootSum qs / 2 := by
  have hterm : ∀ q : Sample, Real.sqrt ((q / 4 : Sample) : ℝ) = Real.sqrt q / 2 := by
    intro q
    push_cast
    rw [Real.sqrt_div' _ (by norm_num), show (4 : ℝ) = 2 * 2 by norm_num, Real.sqrt_mul_self (by norm_num)]
  simp only [rootSum, List.map_map, Function.comp_def, hterm]
  simp only [div_eq_mul_inv, List.sum_map_mul_right]

theorem dbAvg_real {as : List Amp} (h : ∀ a ∈ as, 0 ≤ a.ms) : (dbAvg rationals as).real = dBReal (meanReal as) := by
  rw [dbAvg, dbOfRoots_real, rootSum_sumRoots (avgTerms_nonneg h), rootSum_avgTerms]

theorem dbTotal_real {on off : List Amp} (hon : ∀ a ∈ on, 0 ≤ a.ms) (hoff : ∀ a ∈ off, 0 ≤ a.ms) :
    (dbTotal rationals on off).real = dBReal ((meanReal on + meanReal off) / 2) := by
  have hterms : ∀ q ∈ avgTerms on ++ avgTerms off, 0 ≤ q :=
    List.forall_mem_append.mpr ⟨avgTerms_nonneg hon, avgTerms_nonneg hoff⟩
  have hquarters : ∀ q ∈ (avgTerms on ++ avgTerms off).map fun q => q / 4, 0 ≤ q :=
    List.forall_mem_map.mpr fun q hq => div_nonneg (hterms q hq) (by norm_num)
  rw [dbTotal, dbOfRoots_real, rootSum_sumRoots hquarters, rootSum_quarters, rootSum_append, rootSum_avgTerms,
    rootSum_avgTerms]

end averages

/-! ## The obligations -/

/-- Settles O47: the roots are merged and sorted, but their sum is kept, so the level is that of the real mean. -/
theorem averageStatistics : Obligations.AverageStatistics := by
  intro s hs hd hv hon hoff hms
  obtain ⟨hmsOn, hmsOff⟩ := List.forall_mem_append.mp hms
  exact ⟨_, _, _, statistic_of_store (f := fun on _ => dbAvg rationals on) hs hd hv hon hoff,
    statistic_of_store (f := fun _ off => dbAvg rationals off) hs hd hv hon hoff,
    statistic_of_store (f := dbTotal rationals) hs hd hv hon hoff,
    dbAvg_real hmsOn, dbAvg_real hmsOff, dbTotal_real hmsOn hmsOff⟩

/-- Settles O48: the folds choose an element, and mean squares and amplitudes are ordered alike. -/
theorem extremeStatistics : Obligations.ExtremeStatistics := by
  intro s hs hd hv hon hoff _
  have hleast : ∀ as : List Amp, as ≠ [] →
      ∃ a ∈ as, (∀ b ∈ as, a.real ≤ b.real) ∧ (minAmp as).dB.real = dBReal a.real :=
    fun as h => ⟨minAmp as, (minAmp_least h).1, (minAmp_least h).2, Over.Amp.dB_real _⟩
  have hgreatest : ∀ as : List Amp, as ≠ [] →
      ∃ a ∈ as, (∀ b ∈ as, b.real ≤ a.real) ∧ (maxAmp as).dB.real = dBReal a.real :=
    fun as h => ⟨maxAmp as, (maxAmp_greatest h).1, (maxAmp_greatest h).2, Over.Amp.dB_real _⟩
  exact ⟨_, _, _, _, statistic_of_store (f := fun on _ => (minAmp on).dB) hs hd hv hon hoff,
    statistic_of_store (f := fun on _ => (maxAmp on).dB) hs hd hv hon hoff,
    statistic_of_store (f := fun _ off => (minAmp off).dB) hs hd hv hon hoff,
    statistic_of_store (f := fun _ off => (maxAmp off).dB) hs hd hv hon hoff,
    hleast _ hon, hgreatest _ hon, hleast _ hoff, hgreatest _ hoff⟩

/-- Settles O49: the seven share one prologue, and the invariant leaves no empty store behind a raised flag. -/
theorem statisticsNeedSlotInformation : Obligations.StatisticsNeedSlotInformation := by
  intro i s hi
  obtain ⟨f, hf⟩ := exists_statistic hi s
  refine ⟨fun hs => exec_of_halted hs ?_, fun hs hd hv => ?_, fun hinv hs hd hv => ?_⟩
  · rintro rfl
    exact absurd hi (by decide)
  · rw [hf, statistic_of_no_store hs hd hv]
  · obtain ⟨hon, hoff⟩ := hinv.stores_ne_nil hv
    exact ⟨_, hf.trans (statistic_of_store hs hd hv hon hoff)⟩

/-- A command without payload refuses one: its first check after the halted check. -/
theorem exec_of_payload {i : Instr} {s : State} (hi : takesNoPayload i = true) (hreset : i ≠ .sysReset)
    (hd : s.io.din ≠ []) (hs : s.halted = false) : exec i s = .next (s.answered 0x02 []) := by
  cases i with
  | sysReset => exact absurd rfl hreset
  | sfInit preset =>
    cases hp : presetOf preset with
    | none => exact exec_sfInit_of_reserved hs hp
    | some p =>
      rw [exec, execSfInit, unlessHalted_of_running hs, hp]
      exact unlessPayload_of_some hd _
  | sysRdreg | txStop | rxStart | rxStop | statOnavg | statOnmin | statOnmax | statOffavg | statOffmin | statOffmax
  | statTotal => exact (unlessHalted_of_running hs _).trans (unlessPayload_of_some hd _)
  | _ => cases hi

/-- Settles O21: both flags are behind the two checks of the prologue, and a payload fails the second. -/
theorem stopCommandsRaiseFlags : Obligations.StopCommandsRaiseFlags := by
  intro s
  refine ⟨fun hs => ⟨unlessHalted_of_halted hs _, unlessHalted_of_halted hs _⟩, fun hs hd => ⟨?_, ?_⟩,
    fun i hi hreset hd hs => exec_of_payload hi hreset hd hs⟩
  · exact (unlessHalted_of_running hs _).trans (unlessPayload_of_none hd _)
  · exact (unlessHalted_of_running hs _).trans (unlessPayload_of_none hd _)

end Sys2Proof.Machine
end
